-- ==== Sys2Proof/Word.lean ====
section
/-! DEFINITION. The word types of the machine: registers and instruction words are 32 bits (R3: XLEN = 32, ILEN = 32), memory is
indexed by byte (R29), a register is named by a 5-bit field (R20), a CSR by a 12-bit field (R27). -/

namespace Sys2Proof

/-- A register value, an address while it is computed, an instruction word (R3, R5). -/
abbrev Word := BitVec 32

/-- One byte of memory (R29). -/
abbrev Byte := BitVec 8

/-- A register number, the 5-bit field `rd`, `rs1` or `rs2` (R20). -/
abbrev RegId := BitVec 5

/-- A CSR address, instruction bits 31:20 of the CSR instructions (R27, R79). -/
abbrev CsrAddr := BitVec 12

end Sys2Proof
end

