-- ==== Sys2Proof/Config.lean ====
section
/-! DEFINITION. What the spec leaves to whoever instantiates the machine (R3): the memory map and the fetch-coherence parameter as
plain data (State holds one `Config`, which no step changes), and the read and write functions of the implemented CSRs as constants
without a body. -/

namespace Sys2Proof

/-- A run of backed byte addresses `base .. base + size - 1` (R50). DESIGN CHOICE of representation, log 4: a predicate on the
2^32 addresses is a finite union of such runs, so nothing `Backed` may be is left out. -/
structure Region where
  base : Nat
  size : Nat
  deriving DecidableEq, Repr

/-- The parameters of R3 that stay fixed while the machine runs and that an access reads. -/
structure Config where
  /-- `MemMap`: the backed byte addresses (R50, OPEN by D7). -/
  memMap : List Region
  /-- `IFETCH_COHERENT` (R3, R54; false unless overridden, D11). -/
  ifetchCoherent : Bool
  deriving DecidableEq, Repr

/-- The read function of a CSR (R27): the value a read of the CSR at an address gives, from the 32 bits the CSR holds.
DESIGN CHOICE, log 5: the spec says a model handed a `CSRFile` is handed this function, so it has no body here. -/
opaque Config.csrRead : CsrAddr → Word → Word

/-- What a CSR holds after it has been read: R175 speaks of 'a read side effect'. DESIGN CHOICE, log 5. -/
opaque Config.csrAfterRead : CsrAddr → Word → Word

/-- The write function of a CSR (R27: it 'may ignore or legalise bits'): what the CSR holds after a write, from the address, what it
held, and the value written. DESIGN CHOICE, log 5. -/
opaque Config.csrWrite : CsrAddr → Word → Word → Word

end Sys2Proof
end

