-- ==== Sys2Proof/Syntax.lean ====
section
/-! DEFINITION. The instructions as syntax: one constructor per row of spec/opcode_table.json, in the table's order, the four RV64I
rows that the spec records and does not admit (R160 to R164) among them. A field holds what the encoding supplies (R71 to R77, R79):
`imm` of the I and S formats is `imm[11:0]`, of the U format `imm[31:12]`; `offset` of the B and J formats is the byte distance
`imm[12:0]` or `imm[20:0]`, whose bit 0 no instruction bit supplies (Sys2Proof/WellFormed.lean asks that it be 0). -/

namespace Sys2Proof

/-- One instruction of the opcode table. -/
inductive Instr where
  /-- `lui rd,immediate` (R119). -/
  | lui (rd : RegId) (imm : BitVec 20)
  /-- `auipc rd,immediate` (R120). -/
  | auipc (rd : RegId) (imm : BitVec 20)
  /-- `jal rd,offset` (R131). -/
  | jal (rd : RegId) (offset : BitVec 21)
  /-- `jalr rd,offset(rs1)` (R132). -/
  | jalr (rd rs1 : RegId) (imm : BitVec 12)
  /-- `beq rs1,rs2,offset` (R135). -/
  | beq (rs1 rs2 : RegId) (offset : BitVec 13)
  /-- `bne rs1,rs2,offset` (R136). -/
  | bne (rs1 rs2 : RegId) (offset : BitVec 13)
  /-- `blt rs1,rs2,offset` (R137). -/
  | blt (rs1 rs2 : RegId) (offset : BitVec 13)
  /-- `bge rs1,rs2,offset` (R138). -/
  | bge (rs1 rs2 : RegId) (offset : BitVec 13)
  /-- `bltu rs1,rs2,offset` (R139). -/
  | bltu (rs1 rs2 : RegId) (offset : BitVec 13)
  /-- `bgeu rs1,rs2,offset` (R140). -/
  | bgeu (rs1 rs2 : RegId) (offset : BitVec 13)
  /-- `lb rd,offset(rs1)` (R151). -/
  | lb (rd rs1 : RegId) (imm : BitVec 12)
  /-- `lh rd,offset(rs1)` (R153). -/
  | lh (rd rs1 : RegId) (imm : BitVec 12)
  /-- `lw rd,offset(rs1)` (R155). -/
  | lw (rd rs1 : RegId) (imm : BitVec 12)
  /-- `lbu rd,offset(rs1)` (R152). -/
  | lbu (rd rs1 : RegId) (imm : BitVec 12)
  /-- `lhu rd,offset(rs1)` (R154). -/
  | lhu (rd rs1 : RegId) (imm : BitVec 12)
  /-- `sb rs2,offset(rs1)` (R157). -/
  | sb (rs2 rs1 : RegId) (imm : BitVec 12)
  /-- `sh rs2,offset(rs1)` (R158). -/
  | sh (rs2 rs1 : RegId) (imm : BitVec 12)
  /-- `sw rs2,offset(rs1)` (R159). -/
  | sw (rs2 rs1 : RegId) (imm : BitVec 12)
  /-- `addi rd,rs1,immediate` (R101). -/
  | addi (rd rs1 : RegId) (imm : BitVec 12)
  /-- `slti rd,rs1,immediate` (R111). -/
  | slti (rd rs1 : RegId) (imm : BitVec 12)
  /-- `sltiu rd,rs1,immediate` (R112). -/
  | sltiu (rd rs1 : RegId) (imm : BitVec 12)
  /-- `xori rd,rs1,immediate` (R108). -/
  | xori (rd rs1 : RegId) (imm : BitVec 12)
  /-- `ori rd,rs1,immediate` (R106). -/
  | ori (rd rs1 : RegId) (imm : BitVec 12)
  /-- `andi rd,rs1,immediate` (R104). -/
  | andi (rd rs1 : RegId) (imm : BitVec 12)
  /-- `slli rd,rs1,shamt` (R114). -/
  | slli (rd rs1 : RegId) (shamt : BitVec 5)
  /-- `srli rd,rs1,shamt` (R116). -/
  | srli (rd rs1 : RegId) (shamt : BitVec 5)
  /-- `srai rd,rs1,shamt` (R118). -/
  | srai (rd rs1 : RegId) (shamt : BitVec 5)
  /-- `add rd,rs1,rs2` (R100). -/
  | add (rd rs1 rs2 : RegId)
  /-- `sub rd,rs1,rs2` (R102). -/
  | sub (rd rs1 rs2 : RegId)
  /-- `sll rd,rs1,rs2` (R113). -/
  | sll (rd rs1 rs2 : RegId)
  /-- `slt rd,rs1,rs2` (R109). -/
  | slt (rd rs1 rs2 : RegId)
  /-- `sltu rd,rs1,rs2` (R110). -/
  | sltu (rd rs1 rs2 : RegId)
  /-- `xor rd,rs1,rs2` (R107). -/
  | xor (rd rs1 rs2 : RegId)
  /-- `srl rd,rs1,rs2` (R115). -/
  | srl (rd rs1 rs2 : RegId)
  /-- `sra rd,rs1,rs2` (R117). -/
  | sra (rd rs1 rs2 : RegId)
  /-- `or rd,rs1,rs2` (R105). -/
  | or (rd rs1 rs2 : RegId)
  /-- `and rd,rs1,rs2` (R103). -/
  | and (rd rs1 rs2 : RegId)
  /-- `fence pred,succ` (R170). -/
  | fence (pred succ : BitVec 4)
  /-- `fence.i` (R171). -/
  | fenceI
  /-- `ecall` (R172). -/
  | ecall
  /-- `ebreak` (R173). -/
  | ebreak
  /-- `csrrw rd,csr,rs1` (R175). -/
  | csrrw (rd : RegId) (csr : CsrAddr) (rs1 : RegId)
  /-- `csrrs rd,csr,rs1` (R176). -/
  | csrrs (rd : RegId) (csr : CsrAddr) (rs1 : RegId)
  /-- `csrrc rd,csr,rs1` (R177). -/
  | csrrc (rd : RegId) (csr : CsrAddr) (rs1 : RegId)
  /-- `csrrwi rd,csr,zimm` (R178). -/
  | csrrwi (rd : RegId) (csr : CsrAddr) (zimm : BitVec 5)
  /-- `csrrsi rd,csr,zimm` (R179). -/
  | csrrsi (rd : RegId) (csr : CsrAddr) (zimm : BitVec 5)
  /-- `csrrci rd,csr,zimm` (R180). -/
  | csrrci (rd : RegId) (csr : CsrAddr) (zimm : BitVec 5)
  /-- `mul rd,rs1,rs2` (R191). -/
  | mul (rd rs1 rs2 : RegId)
  /-- `mulh rd,rs1,rs2` (R192). -/
  | mulh (rd rs1 rs2 : RegId)
  /-- `mulhsu rd,rs1,rs2` (R194). -/
  | mulhsu (rd rs1 rs2 : RegId)
  /-- `mulhu rd,rs1,rs2` (R193). -/
  | mulhu (rd rs1 rs2 : RegId)
  /-- `div rd,rs1,rs2` (R195). -/
  | div (rd rs1 rs2 : RegId)
  /-- `divu rd,rs1,rs2` (R196). -/
  | divu (rd rs1 rs2 : RegId)
  /-- `rem rd,rs1,rs2` (R197). -/
  | rem (rd rs1 rs2 : RegId)
  /-- `remu rd,rs1,rs2` (R198). -/
  | remu (rd rs1 rs2 : RegId)
  /-- `lwu rd,offset(rs1)` (R161; RV64I, not admitted). -/
  | lwu (rd rs1 : RegId) (imm : BitVec 12)
  /-- `ld rd,offset(rs1)` (R162; RV64I, not admitted). -/
  | ld (rd rs1 : RegId) (imm : BitVec 12)
  /-- `sd rs2,offset(rs1)` (R163; RV64I, not admitted). -/
  | sd (rs2 rs1 : RegId) (imm : BitVec 12)
  /-- `addiw rd,rs1,immediate` (R164; RV64I, not admitted). -/
  | addiw (rd rs1 : RegId) (imm : BitVec 12)
  deriving DecidableEq, Repr

end Sys2Proof
end

