-- ==== Sys2Proof/WellFormed.lean ====
section
/-! DEFINITION. Which instructions as syntax are instructions of this machine: the row is admitted (R2, R81), and the byte offset of a
branch or of `jal` is even, because no instruction bit supplies its bit 0 (R74, R76, R79). Every other field has exactly the width
its encoding gives it and needs no check. -/

namespace Sys2Proof

/-- The instruction's row is admitted on this machine (R2): all but the four RV64I rows. -/
def Instr.admitted : Instr → Bool
  | .lwu .. | .ld .. | .sd .. | .addiw .. => false
  | .lui .. | .auipc .. | .jal .. | .jalr .. | .beq .. | .bne .. | .blt .. | .bge .. | .bltu .. | .bgeu .. => true
  | .lb .. | .lh .. | .lw .. | .lbu .. | .lhu .. | .sb .. | .sh .. | .sw .. => true
  | .addi .. | .slti .. | .sltiu .. | .xori .. | .ori .. | .andi .. | .slli .. | .srli .. | .srai .. => true
  | .add .. | .sub .. | .sll .. | .slt .. | .sltu .. | .xor .. | .srl .. | .sra .. | .or .. | .and .. => true
  | .fence .. | .fenceI | .ecall | .ebreak => true
  | .csrrw .. | .csrrs .. | .csrrc .. | .csrrwi .. | .csrrsi .. | .csrrci .. => true
  | .mul .. | .mulh .. | .mulhsu .. | .mulhu .. | .div .. | .divu .. | .rem .. | .remu .. => true

/-- The byte offset, where there is one, has bit 0 clear (R74, R76). -/
def Instr.offsetEven : Instr → Bool
  | .jal _ offset => !offset.getLsbD 0
  | .beq _ _ offset | .bne _ _ offset | .blt _ _ offset | .bge _ _ offset | .bltu _ _ offset | .bgeu _ _ offset =>
    !offset.getLsbD 0
  | .lui .. | .auipc .. | .jalr .. => true
  | .lb .. | .lh .. | .lw .. | .lbu .. | .lhu .. | .sb .. | .sh .. | .sw .. => true
  | .addi .. | .slti .. | .sltiu .. | .xori .. | .ori .. | .andi .. | .slli .. | .srli .. | .srai .. => true
  | .add .. | .sub .. | .sll .. | .slt .. | .sltu .. | .xor .. | .srl .. | .sra .. | .or .. | .and .. => true
  | .fence .. | .fenceI | .ecall | .ebreak => true
  | .csrrw .. | .csrrs .. | .csrrc .. | .csrrwi .. | .csrrsi .. | .csrrci .. => true
  | .mul .. | .mulh .. | .mulhsu .. | .mulhu .. | .div .. | .divu .. | .rem .. | .remu .. => true
  | .lwu .. | .ld .. | .sd .. | .addiw .. => true

/-- An instruction of this machine. -/
def Instr.wellFormed (i : Instr) : Bool := i.admitted && i.offsetEven

end Sys2Proof
end

