-- ==== Sys2Proof/Decode.lean ====
section
/-! DEFINITION. From bytes to an instruction and back: the byte order of a word (R42), the fields of the formats (R71 to R77) and the
immediates (R79), the opcode table (spec/opcode_table.json) as rows of mask and match, the decoder (R81, R82, R203), total on any word
and any bytes, rejecting by name, and the encoder, written from the same tables. -/

namespace Sys2Proof

/-! ## Byte order -/

/-- The number whose bytes are listed least significant first (R42). -/
def ofBytesLE : List Byte → Nat
  | [] => 0
  | b :: bs => b.toNat + 256 * ofBytesLE bs

/-- The low `n` bytes of a number, least significant first (R42). -/
def toBytesLE : Nat → Nat → List Byte
  | 0, _ => []
  | n + 1, v => BitVec.ofNat 8 v :: toBytesLE n (v / 256)

/-! ## Fields (R71 to R77) and immediates as the encoding holds them (R79) -/

/-- Instruction bits 6:0, the major opcode (R70). -/
def fieldOpcode (w : Word) : BitVec 7 := w.extractLsb' 0 7
/-- Instruction bits 11:7. -/
def fieldRd (w : Word) : RegId := w.extractLsb' 7 5
/-- Instruction bits 19:15; also `zimm[4:0]` (R72). -/
def fieldRs1 (w : Word) : RegId := w.extractLsb' 15 5
/-- Instruction bits 24:20; also `shamt[4:0]` (R77). -/
def fieldRs2 (w : Word) : RegId := w.extractLsb' 20 5
/-- Instruction bits 31:20: `imm[11:0]` of the I format (R72), the CSR address of the CSR instructions. -/
def fieldImmI (w : Word) : BitVec 12 := w.extractLsb' 20 12
/-- `imm[11:0]` of the S format, bits 31:25 then 11:7 (R73). -/
def fieldImmS (w : Word) : BitVec 12 := w.extractLsb' 25 7 ++ w.extractLsb' 7 5
/-- `imm[12:0]` of the B format, bits 31, 7, 30:25, 11:8 and a 0 (R74, R79). -/
def fieldImmB (w : Word) : BitVec 13 :=
  w.extractLsb' 31 1 ++ w.extractLsb' 7 1 ++ w.extractLsb' 25 6 ++ w.extractLsb' 8 4 ++ 0#1
/-- `imm[31:12]` of the U format, bits 31:12 (R75). -/
def fieldImmU (w : Word) : BitVec 20 := w.extractLsb' 12 20
/-- `imm[20:0]` of the J format, bits 31, 19:12, 20, 30:21 and a 0 (R76, R79). -/
def fieldImmJ (w : Word) : BitVec 21 :=
  w.extractLsb' 31 1 ++ w.extractLsb' 12 8 ++ w.extractLsb' 20 1 ++ w.extractLsb' 21 10 ++ 0#1
/-- `pred`, instruction bits 27:24 of `fence` (R79, R170). -/
def fieldPred (w : Word) : BitVec 4 := w.extractLsb' 24 4
/-- `succ`, instruction bits 23:20 of `fence` (R79, R170). -/
def fieldSucc (w : Word) : BitVec 4 := w.extractLsb' 20 4

/-! ## The opcode table -/

/-- One row of spec/opcode_table.json: a word `w` is the row's when `w &&& mask = mtch` (R81); `build` extracts the row's fields. -/
structure Row where
  mnemonic : String
  mask : Word
  mtch : Word
  admitted : Bool
  build : Word → Instr

/-- An admitted row. -/
def rowOf (m : String) (mask mtch : Word) (build : Word → Instr) : Row := ⟨m, mask, mtch, true, build⟩
/-- An R-type row: opcode, funct3 and funct7 are fixed (R71). -/
def rowR (m : String) (mtch : Word) (c : RegId → RegId → RegId → Instr) : Row :=
  rowOf m 0xFE00707F mtch fun w => c (fieldRd w) (fieldRs1 w) (fieldRs2 w)
/-- A shift-immediate row: opcode, funct3 and bits 31:25 are fixed (R77, R83). -/
def rowShift (m : String) (mtch : Word) (c : RegId → RegId → BitVec 5 → Instr) : Row :=
  rowOf m 0xFE00707F mtch fun w => c (fieldRd w) (fieldRs1 w) (fieldRs2 w)
/-- An I-type row: opcode and funct3 are fixed (R72). -/
def rowI (m : String) (mtch : Word) (c : RegId → RegId → BitVec 12 → Instr) : Row :=
  rowOf m 0x0000707F mtch fun w => c (fieldRd w) (fieldRs1 w) (fieldImmI w)
/-- A CSR row: an I-type row whose bits 31:20 are the CSR address and whose bits 19:15 are `rs1` or `zimm` (R72, R174). -/
def rowCsr (m : String) (mtch : Word) (c : RegId → CsrAddr → BitVec 5 → Instr) : Row :=
  rowOf m 0x0000707F mtch fun w => c (fieldRd w) (fieldImmI w) (fieldRs1 w)
/-- An S-type row: opcode and funct3 are fixed (R73). -/
def rowS (m : String) (mtch : Word) (c : RegId → RegId → BitVec 12 → Instr) : Row :=
  rowOf m 0x0000707F mtch fun w => c (fieldRs2 w) (fieldRs1 w) (fieldImmS w)
/-- A B-type row: opcode and funct3 are fixed (R74). -/
def rowB (m : String) (mtch : Word) (c : RegId → RegId → BitVec 13 → Instr) : Row :=
  rowOf m 0x0000707F mtch fun w => c (fieldRs1 w) (fieldRs2 w) (fieldImmB w)
/-- A U-type row: only the opcode is fixed (R75). -/
def rowU (m : String) (mtch : Word) (c : RegId → BitVec 20 → Instr) : Row :=
  rowOf m 0x0000007F mtch fun w => c (fieldRd w) (fieldImmU w)
/-- A J-type row: only the opcode is fixed (R76). -/
def rowJ (m : String) (mtch : Word) (c : RegId → BitVec 21 → Instr) : Row :=
  rowOf m 0x0000007F mtch fun w => c (fieldRd w) (fieldImmJ w)
/-- A row the table flags `"admitted": false`: recorded, and skipped by the decoder (R81). -/
def notAdmitted (r : Row) : Row := { r with admitted := false }

/-- lui, auipc, jal, jalr (R119, R120, R131, R132). -/
def upperAndJumpRows : List Row :=
  [rowU "lui" 0x00000037 .lui,
   rowU "auipc" 0x00000017 .auipc,
   rowJ "jal" 0x0000006F .jal,
   rowI "jalr" 0x00000067 .jalr]

/-- The six branches (R134 to R140). -/
def branchRows : List Row :=
  [rowB "beq" 0x00000063 .beq,
   rowB "bne" 0x00001063 .bne,
   rowB "blt" 0x00004063 .blt,
   rowB "bge" 0x00005063 .bge,
   rowB "bltu" 0x00006063 .bltu,
   rowB "bgeu" 0x00007063 .bgeu]

/-- Loads and stores (R150 to R159). -/
def loadStoreRows : List Row :=
  [rowI "lb" 0x00000003 .lb,
   rowI "lh" 0x00001003 .lh,
   rowI "lw" 0x00002003 .lw,
   rowI "lbu" 0x00004003 .lbu,
   rowI "lhu" 0x00005003 .lhu,
   rowS "sb" 0x00000023 .sb,
   rowS "sh" 0x00001023 .sh,
   rowS "sw" 0x00002023 .sw]

/-- Register-immediate instructions (R101 to R118). -/
def immediateRows : List Row :=
  [rowI "addi" 0x00000013 .addi,
   rowI "slti" 0x00002013 .slti,
   rowI "sltiu" 0x00003013 .sltiu,
   rowI "xori" 0x00004013 .xori,
   rowI "ori" 0x00006013 .ori,
   rowI "andi" 0x00007013 .andi,
   rowShift "slli" 0x00001013 .slli,
   rowShift "srli" 0x00005013 .srli,
   rowShift "srai" 0x40005013 .srai]

/-- Register-register instructions (R100 to R117). -/
def registerRows : List Row :=
  [rowR "add" 0x00000033 .add,
   rowR "sub" 0x40000033 .sub,
   rowR "sll" 0x00001033 .sll,
   rowR "slt" 0x00002033 .slt,
   rowR "sltu" 0x00003033 .sltu,
   rowR "xor" 0x00004033 .xor,
   rowR "srl" 0x00005033 .srl,
   rowR "sra" 0x40005033 .sra,
   rowR "or" 0x00006033 .or,
   rowR "and" 0x00007033 .and]

/-- Fence, environment and CSR instructions (R170 to R180). -/
def systemRows : List Row :=
  [rowOf "fence" 0xF00FFFFF 0x0000000F (fun w => .fence (fieldPred w) (fieldSucc w)),
   rowOf "fence.i" 0xFFFFFFFF 0x0000100F (fun _ => .fenceI),
   rowOf "ecall" 0xFFFFFFFF 0x00000073 (fun _ => .ecall),
   rowOf "ebreak" 0xFFFFFFFF 0x00100073 (fun _ => .ebreak),
   rowCsr "csrrw" 0x00001073 .csrrw,
   rowCsr "csrrs" 0x00002073 .csrrs,
   rowCsr "csrrc" 0x00003073 .csrrc,
   rowCsr "csrrwi" 0x00005073 .csrrwi,
   rowCsr "csrrsi" 0x00006073 .csrrsi,
   rowCsr "csrrci" 0x00007073 .csrrci]

/-- RV32M (R190 to R198). -/
def mulDivRows : List Row :=
  [rowR "mul" 0x02000033 .mul,
   rowR "mulh" 0x02001033 .mulh,
   rowR "mulhsu" 0x02002033 .mulhsu,
   rowR "mulhu" 0x02003033 .mulhu,
   rowR "div" 0x02004033 .div,
   rowR "divu" 0x02005033 .divu,
   rowR "rem" 0x02006033 .rem,
   rowR "remu" 0x02007033 .remu]

/-- The four RV64I rows, recorded and not admitted (R160 to R164). -/
def rv64Rows : List Row :=
  [notAdmitted (rowI "lwu" 0x00006003 .lwu),
   notAdmitted (rowI "ld" 0x00003003 .ld),
   notAdmitted (rowS "sd" 0x00003023 .sd),
   notAdmitted (rowI "addiw" 0x0000001B .addiw)]

/-- The whole opcode table, 59 rows (R80, R81). -/
def opcodeTable : List Row :=
  upperAndJumpRows ++ branchRows ++ loadStoreRows ++ immediateRows ++ registerRows ++ systemRows ++ mulDivRows ++ rv64Rows

/-- The word has the row's fixed bits (R81). -/
def Row.fits (r : Row) (w : Word) : Bool := w &&& r.mask == r.mtch

/-- The seven major opcodes of the source's floating-point table (R201). -/
def floatingPointOpcodes : List (BitVec 7) :=
  [0b0000111, 0b0100111, 0b1000011, 0b1000111, 0b1001011, 0b1001111, 0b1010011]

/-! ## The decoder -/

/-- Why a word is no instruction. -/
inductive Reject where
  /-- The word matches no admitted row and has no floating-point opcode (R82). -/
  | illegalInstruction (w : Word)
  /-- The word has one of the seven floating-point opcodes (R203). -/
  | floatingPointNotSpecified
  deriving DecidableEq, Repr

/-- Why a list of bytes does not begin with an instruction. -/
inductive BytesReject where
  /-- There are fewer than four bytes; a step never meets it, since it fetches four (R45, R70). -/
  | truncated
  /-- The first four bytes are a word that is no instruction. -/
  | rejected (e : Reject)
  deriving DecidableEq, Repr

/-- Decode one word (R81, R82, R203): the admitted row that matches, else the refusal for a floating-point opcode, else illegal. -/
def decode (w : Word) : Except Reject Instr :=
  match opcodeTable.find? (fun r => r.admitted && r.fits w) with
  | some r => .ok (r.build w)
  | none =>
    if floatingPointOpcodes.contains (fieldOpcode w) then .error .floatingPointNotSpecified
    else .error (.illegalInstruction w)

/-- Decode the instruction at the head of a list of bytes, and give the bytes after it (R70: four bytes, R45: lowest address first). -/
def decodeBytes : List Byte → Except BytesReject (Instr × List Byte)
  | b0 :: b1 :: b2 :: b3 :: rest =>
    match decode (BitVec.ofNat 32 (ofBytesLE [b0, b1, b2, b3])) with
    | .ok i => .ok (i, rest)
    | .error e => .error (.rejected e)
  | _ => .error .truncated

/-- The instruction the decoder reads from an instruction whose bits are `w`, the bits at and above `nbits` being 0. -/
def decodeTableWord (nbits w : Nat) : Option Instr :=
  match decodeBytes (toBytesLE 4 (w % 2 ^ nbits)) with
  | .ok (i, _) => some i
  | .error _ => none

/-! ## The encoder -/

/-- R-type (R71) and, with `shamt` for `rs2`, the shift-immediate form (R77). -/
def encR (funct7 : BitVec 7) (rs2 rs1 : BitVec 5) (funct3 : BitVec 3) (rd : BitVec 5) (opcode : BitVec 7) : Word :=
  funct7 ++ rs2 ++ rs1 ++ funct3 ++ rd ++ opcode
/-- I-type (R72). -/
def encI (imm : BitVec 12) (rs1 : BitVec 5) (funct3 : BitVec 3) (rd : BitVec 5) (opcode : BitVec 7) : Word :=
  imm ++ rs1 ++ funct3 ++ rd ++ opcode
/-- S-type (R73). -/
def encS (imm : BitVec 12) (rs2 rs1 : BitVec 5) (funct3 : BitVec 3) (opcode : BitVec 7) : Word :=
  imm.extractLsb' 5 7 ++ rs2 ++ rs1 ++ funct3 ++ imm.extractLsb' 0 5 ++ opcode
/-- B-type (R74). -/
def encB (offset : BitVec 13) (rs2 rs1 : BitVec 5) (funct3 : BitVec 3) (opcode : BitVec 7) : Word :=
  offset.extractLsb' 12 1 ++ offset.extractLsb' 5 6 ++ rs2 ++ rs1 ++ funct3 ++ offset.extractLsb' 1 4 ++
    offset.extractLsb' 11 1 ++ opcode
/-- U-type (R75). -/
def encU (imm : BitVec 20) (rd : BitVec 5) (opcode : BitVec 7) : Word := imm ++ rd ++ opcode
/-- J-type (R76). -/
def encJ (offset : BitVec 21) (rd : BitVec 5) (opcode : BitVec 7) : Word :=
  offset.extractLsb' 20 1 ++ offset.extractLsb' 1 10 ++ offset.extractLsb' 11 1 ++ offset.extractLsb' 12 8 ++ rd ++ opcode

/-- The word of an instruction (R80), the not-admitted rows' words among them. -/
def encode : Instr → Word
  | .lui rd imm => encU imm rd 0b0110111#7
  | .auipc rd imm => encU imm rd 0b0010111#7
  | .jal rd offset => encJ offset rd 0b1101111#7
  | .jalr rd rs1 imm => encI imm rs1 0b000#3 rd 0b1100111#7
  | .beq rs1 rs2 offset => encB offset rs2 rs1 0b000#3 0b1100011#7
  | .bne rs1 rs2 offset => encB offset rs2 rs1 0b001#3 0b1100011#7
  | .blt rs1 rs2 offset => encB offset rs2 rs1 0b100#3 0b1100011#7
  | .bge rs1 rs2 offset => encB offset rs2 rs1 0b101#3 0b1100011#7
  | .bltu rs1 rs2 offset => encB offset rs2 rs1 0b110#3 0b1100011#7
  | .bgeu rs1 rs2 offset => encB offset rs2 rs1 0b111#3 0b1100011#7
  | .lb rd rs1 imm => encI imm rs1 0b000#3 rd 0b0000011#7
  | .lh rd rs1 imm => encI imm rs1 0b001#3 rd 0b0000011#7
  | .lw rd rs1 imm => encI imm rs1 0b010#3 rd 0b0000011#7
  | .lbu rd rs1 imm => encI imm rs1 0b100#3 rd 0b0000011#7
  | .lhu rd rs1 imm => encI imm rs1 0b101#3 rd 0b0000011#7
  | .sb rs2 rs1 imm => encS imm rs2 rs1 0b000#3 0b0100011#7
  | .sh rs2 rs1 imm => encS imm rs2 rs1 0b001#3 0b0100011#7
  | .sw rs2 rs1 imm => encS imm rs2 rs1 0b010#3 0b0100011#7
  | .addi rd rs1 imm => encI imm rs1 0b000#3 rd 0b0010011#7
  | .slti rd rs1 imm => encI imm rs1 0b010#3 rd 0b0010011#7
  | .sltiu rd rs1 imm => encI imm rs1 0b011#3 rd 0b0010011#7
  | .xori rd rs1 imm => encI imm rs1 0b100#3 rd 0b0010011#7
  | .ori rd rs1 imm => encI imm rs1 0b110#3 rd 0b0010011#7
  | .andi rd rs1 imm => encI imm rs1 0b111#3 rd 0b0010011#7
  | .slli rd rs1 shamt => encR 0b0000000#7 shamt rs1 0b001#3 rd 0b0010011#7
  | .srli rd rs1 shamt => encR 0b0000000#7 shamt rs1 0b101#3 rd 0b0010011#7
  | .srai rd rs1 shamt => encR 0b0100000#7 shamt rs1 0b101#3 rd 0b0010011#7
  | .add rd rs1 rs2 => encR 0b0000000#7 rs2 rs1 0b000#3 rd 0b0110011#7
  | .sub rd rs1 rs2 => encR 0b0100000#7 rs2 rs1 0b000#3 rd 0b0110011#7
  | .sll rd rs1 rs2 => encR 0b0000000#7 rs2 rs1 0b001#3 rd 0b0110011#7
  | .slt rd rs1 rs2 => encR 0b0000000#7 rs2 rs1 0b010#3 rd 0b0110011#7
  | .sltu rd rs1 rs2 => encR 0b0000000#7 rs2 rs1 0b011#3 rd 0b0110011#7
  | .xor rd rs1 rs2 => encR 0b0000000#7 rs2 rs1 0b100#3 rd 0b0110011#7
  | .srl rd rs1 rs2 => encR 0b0000000#7 rs2 rs1 0b101#3 rd 0b0110011#7
  | .sra rd rs1 rs2 => encR 0b0100000#7 rs2 rs1 0b101#3 rd 0b0110011#7
  | .or rd rs1 rs2 => encR 0b0000000#7 rs2 rs1 0b110#3 rd 0b0110011#7
  | .and rd rs1 rs2 => encR 0b0000000#7 rs2 rs1 0b111#3 rd 0b0110011#7
  | .fence pred succ => encI (0b0000#4 ++ pred ++ succ) 0 0b000#3 0 0b0001111#7
  | .fenceI => encI 0b000000000000#12 0 0b001#3 0 0b0001111#7
  | .ecall => encI 0b000000000000#12 0 0b000#3 0 0b1110011#7
  | .ebreak => encI 0b000000000001#12 0 0b000#3 0 0b1110011#7
  | .csrrw rd csr rs1 => encI csr rs1 0b001#3 rd 0b1110011#7
  | .csrrs rd csr rs1 => encI csr rs1 0b010#3 rd 0b1110011#7
  | .csrrc rd csr rs1 => encI csr rs1 0b011#3 rd 0b1110011#7
  | .csrrwi rd csr zimm => encI csr zimm 0b101#3 rd 0b1110011#7
  | .csrrsi rd csr zimm => encI csr zimm 0b110#3 rd 0b1110011#7
  | .csrrci rd csr zimm => encI csr zimm 0b111#3 rd 0b1110011#7
  | .mul rd rs1 rs2 => encR 0b0000001#7 rs2 rs1 0b000#3 rd 0b0110011#7
  | .mulh rd rs1 rs2 => encR 0b0000001#7 rs2 rs1 0b001#3 rd 0b0110011#7
  | .mulhsu rd rs1 rs2 => encR 0b0000001#7 rs2 rs1 0b010#3 rd 0b0110011#7
  | .mulhu rd rs1 rs2 => encR 0b0000001#7 rs2 rs1 0b011#3 rd 0b0110011#7
  | .div rd rs1 rs2 => encR 0b0000001#7 rs2 rs1 0b100#3 rd 0b0110011#7
  | .divu rd rs1 rs2 => encR 0b0000001#7 rs2 rs1 0b101#3 rd 0b0110011#7
  | .rem rd rs1 rs2 => encR 0b0000001#7 rs2 rs1 0b110#3 rd 0b0110011#7
  | .remu rd rs1 rs2 => encR 0b0000001#7 rs2 rs1 0b111#3 rd 0b0110011#7
  | .lwu rd rs1 imm => encI imm rs1 0b110#3 rd 0b0000011#7
  | .ld rd rs1 imm => encI imm rs1 0b011#3 rd 0b0000011#7
  | .sd rs2 rs1 imm => encS imm rs2 rs1 0b011#3 0b0100011#7
  | .addiw rd rs1 imm => encI imm rs1 0b000#3 rd 0b0011011#7

end Sys2Proof
end

