-- ==== Sys2Proof/Machine/State.lean ====
section
/-! DEFINITION. The state of the machine as plain data, all that R32 and R33 list (x1..x31, pc, Mem, StaleSet, the CSRFile contents)
with the parameters an access reads (R3), the reasons a step can stop, and the state after reset (R33, R240 to R243). -/

namespace Sys2Proof.Machine

/-! ## Why a step stops -/

/-- The ten exceptions (R210 to R220), each with its 32-bit `info`. A raise ends the run (R221), and the state of the fault is the
state the step was given (R9). Each is the stop the spec itself describes, so each is faithful to spec/; against a real chip it is
safe where spec/ says that hardware may go on (a stop proves no false claim). -/
inductive Fault where
  /-- `info` is the target. Raised by `jal`, `jalr`, a taken branch (R130), and by a step whose `pc` is not a multiple of 4 (R10).
  Safe: nothing is claimed after it. -/
  | instructionAddressMisaligned (info : Word)
  /-- `info` is `pc`. Raised by a fetch that touches an unbacked byte (R212). Safe. -/
  | instructionAccessFault (info : Word)
  /-- `info` is the instruction word. Raised by decode (R82, R83) and by a CSR instruction whose CSR does not exist, or is read-only
  and would be written (R174, R213). Safe. -/
  | illegalInstruction (info : Word)
  /-- `info` is `pc`. Raised by `ebreak`, always (R214). Safe. -/
  | breakpoint (info : Word)
  /-- `info` is the effective address. Raised by `lh`, `lhu`, `lw` (R215). Safe: hardware may perform the access (D5). -/
  | loadAddressMisaligned (info : Word)
  /-- `info` is the effective address. Raised by the five loads (R216). Safe. -/
  | loadAccessFault (info : Word)
  /-- `info` is the effective address. Raised by `sh`, `sw` (R217). Safe: hardware may perform the access (D5). -/
  | storeAddressMisaligned (info : Word)
  /-- `info` is the effective address. Raised by the three stores (R218). Safe. -/
  | storeAccessFault (info : Word)
  /-- `info` is 0. Raised by `ecall`, always: the normal end of a program (R219, R230). Safe. -/
  | environmentCall (info : Word)
  /-- `info` is `pc`. Raised by a fetch of a byte stored to since the last `fence.i` (R220). Safe: hardware may run the old or the new
  bytes (D11). -/
  | staleFetch (info : Word)
  deriving DecidableEq, Repr

/-- Why the machine declines to answer. -/
inductive Refusal where
  /-- The instruction has no meaning in the model yet: used by the arms of `exec` alone. Safe. -/
  | notModelled (mnemonic : String)
  /-- The fetched word has one of the seven floating-point opcodes, which the source shows and does not specify (R203). Raised by a
  step after decode, never by an instruction. Safe: neither a trap nor a result is claimed. -/
  | floatingPointNotSpecified
  deriving DecidableEq, Repr

/-! ## Memory -/

/-- Memory as (address, byte) pairs in one canonical form (`Memory.wf`); what an unlisted address reads as is `unlistedByte`. -/
abbrev Memory := List Host.Cell

/-- What a byte that no pair lists reads as. DESIGN CHOICE, log 3: the spec leaves `InitMem` open (R242), so the canonical form lists
every byte that is not 0. -/
def unlistedByte : Byte := 0

/-- Addresses strictly rise. -/
def rising : List Nat → Bool
  | [] => true
  | [_] => true
  | a :: b :: l => decide (a < b) && rising (b :: l)

/-- The canonical form: addresses strictly rising, none at or above 2^32 (R40), no pair that says what an unlisted address reads as. -/
def Memory.wf (m : Memory) : Bool :=
  rising (m.map Prod.fst) && m.all fun c => decide (c.1 < 2 ^ 32) && c.2 != unlistedByte

/-! ## The state -/

/-- One implemented CSR (R27): its address, whether it is read-only, and the 32 bits it holds. -/
structure Csr where
  addr : CsrAddr
  readOnly : Bool
  value : Word
  deriving DecidableEq, Repr

/-- The whole state (R32), with the parameters of R3 that an access reads. -/
structure State where
  /-- `x1` .. `x31`, at places 0 .. 30 (R20, R32). `x0` has no storage (R21). -/
  regs : Vector Word 31
  /-- The address of the instruction being executed (R24). -/
  pc : Word
  /-- `Mem` (R29). -/
  mem : Memory
  /-- `StaleSet`, strictly rising byte addresses (R30). -/
  stale : List Nat
  /-- The `CSRFile` contents, addresses strictly rising (R27). -/
  csrs : List Csr
  /-- `MemMap` and `IFETCH_COHERENT` (R3): no step changes it. -/
  config : Config
  deriving DecidableEq, Repr

/-! ## Reset -/

/-- The parameters of R3 that a reset takes (OPEN by D7 and D20, overridable by D11 and D18). -/
structure ResetParams where
  resetPc : Word
  initRegs : Vector Word 31
  initMem : Memory
  csrFile : List Csr
  config : Config
  deriving DecidableEq, Repr

/-- The state after reset, for any parameters (R33, R240 to R243): `StaleSet` is empty, everything else is a parameter. -/
def State.resetFrom (p : ResetParams) : State where
  regs := p.initRegs
  pc := p.resetPc
  mem := p.initMem
  stale := []
  csrs := p.csrFile
  config := p.config

/-- The parameters `State.reset` takes. DESIGN CHOICE: registers 0 (log 1), `RESET_PC` 0 (log 2), no byte listed (log 3), every address
backed (log 4). Decided by the spec: `CSRFile` empty (D18), `IFETCH_COHERENT` false (D11). -/
def ResetParams.default : ResetParams where
  resetPc := 0
  initRegs := Vector.replicate 31 0
  initMem := []
  csrFile := []
  config := { memMap := [{ base := 0, size := 2 ^ 32 }], ifetchCoherent := false }

/-- The machine right after reset (R33), at the parameters the log names. -/
def State.reset : State := State.resetFrom ResetParams.default

end Sys2Proof.Machine
end

