-- ==== Sys2Proof/Machine/Ops.lean ====
section
/-! DEFINITION. The shared operations: registers (R20, R21), the pc (R24, R25), raising an exception (R9, R221), memory (R43, R44), the
fetch (R10, R45), control transfer (R130), the CSR access (R174), and placing one instruction word for the host's question. -/

namespace Sys2Proof.Machine

/-! ## Registers and pc -/

/-- `x[r]`: `x0` reads 0 (R7, R21). -/
def State.readReg (s : State) (r : RegId) : Word :=
  if r = 0 then 0 else s.regs[r.toNat - 1]'(by have := r.isLt; omega)

/-- `x[r] <- v`: a write to `x0` is discarded (R7, R21). -/
def State.writeReg (s : State) (r : RegId) (v : Word) : State :=
  if r = 0 then s else { s with regs := s.regs.set (r.toNat - 1) v (by have := r.isLt; omega) }

/-- `pc <- t` (R7). -/
def State.setPc (s : State) (t : Word) : State := { s with pc := t }

/-- The address of the next instruction, modulo 2^32 (R25). -/
def State.nextPc (s : State) : Word := s.pc + 4

/-- `pc <- pc + 4`, the end of an instruction that does not assign `pc` (R7, R25). -/
def State.advance (s : State) : State := s.setPc s.nextPc

/-- Taking an exception: `raise E(info)` ends the run and changes nothing, so the state of the fault is the state the instruction was
given (R9, R221). There is no return from one to model (R226). -/
def raise (f : Fault) : Host.Outcome State Fault Refusal := .fault f

/-- Write `x[rd]` and go on to the next instruction: how every computational instruction ends (R7, R25). -/
def writeResult (s : State) (rd : RegId) (v : Word) : Host.Outcome State Fault Refusal :=
  .next (s.writeReg rd v).advance

/-! ## Bytes of memory -/

/-- The byte at an address. -/
def Memory.get : Memory → Nat → Byte
  | [], _ => unlistedByte
  | c :: m, a => if c.1 = a then c.2 else Memory.get m a

/-- The pairs without the address. -/
def Memory.erase (m : Memory) (a : Nat) : Memory := m.filter fun c => c.1 != a

/-- Put a pair at its place in the rising order. -/
def Memory.insert : Memory → Nat → Byte → Memory
  | [], a, v => [(a, v)]
  | c :: m, a, v => if a < c.1 then (a, v) :: c :: m else c :: Memory.insert m a v

/-- Write one byte, keeping the canonical form. -/
def Memory.set (m : Memory) (a : Nat) (v : Byte) : Memory :=
  if v = unlistedByte then m.erase a else (m.erase a).insert a v

/-- The `n` bytes from an address on, lowest address first. -/
def Memory.getBytes (m : Memory) (a : Nat) : Nat → List Byte
  | 0 => []
  | n + 1 => m.get a :: Memory.getBytes m (a + 1) n

/-- Write bytes from an address on, the first at the lowest address. -/
def Memory.setBytes (m : Memory) (a : Nat) : List Byte → Memory
  | [] => m
  | b :: bs => Memory.setBytes (m.set a b) (a + 1) bs

/-! ## StaleSet -/

/-- Add an address to a strictly rising list. -/
def addStale : List Nat → Nat → List Nat
  | [], a => [a]
  | b :: l, a => if a < b then a :: b :: l else if a = b then b :: l else b :: addStale l a

/-- Add the `n` addresses from `a` on. -/
def addStaleRange (l : List Nat) (a : Nat) : Nat → List Nat
  | 0 => l
  | n + 1 => addStaleRange (addStale l a) (a + 1) n

/-! ## Memory access (R43, R44) -/

/-- `Backed(a)` (R50). -/
def backed (c : Config) (a : Nat) : Bool :=
  c.memMap.any fun r => decide (r.base ≤ a) && decide (a < r.base + r.size)

/-- Every one of the `n` bytes from `a` on is backed. -/
def backedRange (c : Config) (a : Nat) : Nat → Bool
  | 0 => true
  | n + 1 => backed c a && backedRange c (a + 1) n

/-- Some one of the `n` bytes from `a` on is in `StaleSet`. -/
def State.staleRange (s : State) (a : Nat) : Nat → Bool
  | 0 => false
  | n + 1 => s.stale.contains a || State.staleRange s (a + 1) n

/-- The two checks of a data access, alignment before backing (R46, R56): the fault it raises, if any. -/
def accessFault (s : State) (addr : Word) (n : Nat) (misaligned access : Word → Fault) : Option Fault :=
  if addr.toNat % n ≠ 0 then some (misaligned addr)
  else if backedRange s.config addr.toNat n then none
  else some (access addr)

/-- `MemRead(addr, n)` (R43). -/
def memRead (s : State) (addr : Word) (n : Nat) : Except Fault (BitVec (8 * n)) :=
  match accessFault s addr n .loadAddressMisaligned .loadAccessFault with
  | some f => .error f
  | none => .ok (BitVec.ofNat (8 * n) (ofBytesLE (s.mem.getBytes addr.toNat n)))

/-- `StaleSet` after a store to the `n` bytes from `a` on (R44 step 4; with `IFETCH_COHERENT` the step is dropped, R54). -/
def State.staleAfterStore (s : State) (a n : Nat) : List Nat :=
  if s.config.ifetchCoherent then s.stale else addStaleRange s.stale a n

/-- `MemWrite(addr, n, v)` (R44): the checks come before any byte is written. -/
def memWrite (s : State) (addr : Word) (n : Nat) (v : BitVec (8 * n)) : Except Fault State :=
  match accessFault s addr n .storeAddressMisaligned .storeAccessFault with
  | some f => .error f
  | none =>
    .ok { s with
      mem := s.mem.setBytes addr.toNat (toBytesLE n v.toNat)
      stale := s.staleAfterStore addr.toNat n }

/-- What the loads share (R150): read `n` bytes, extend them, write `x[rd]`. -/
def load (s : State) (rd : RegId) (addr : Word) (n : Nat) (extend : BitVec (8 * n) → Word) :
    Host.Outcome State Fault Refusal :=
  match memRead s addr n with
  | .error f => raise f
  | .ok v => writeResult s rd (extend v)

/-- What the stores share (R156): write the low `n` bytes of `v`. -/
def store (s : State) (addr : Word) (n : Nat) (v : Word) : Host.Outcome State Fault Refusal :=
  match memWrite s addr n (v.extractLsb' 0 (8 * n)) with
  | .error f => raise f
  | .ok t => .next t.advance

/-! ## Control transfer (R130) -/

/-- A jump or taken branch to `t`: a target that is not a multiple of 4 raises and changes nothing, else `x[rd] <- link`, if a link is
kept, and `pc <- t` (R130 to R132). -/
def transfer (s : State) (t : Word) (link : Option (RegId × Word)) : Host.Outcome State Fault Refusal :=
  if t.toNat % 4 ≠ 0 then raise (.instructionAddressMisaligned t)
  else
    match link with
    | some (rd, v) => .next ((s.writeReg rd v).setPc t)
    | none => .next (s.setPc t)

/-- What the six branches share (R134): to `t` when taken, with R130's check, else on. -/
def branch (s : State) (taken : Bool) (t : Word) : Host.Outcome State Fault Refusal :=
  if taken then transfer s t none else .next s.advance

/-! ## CSRs (R174) -/

/-- The CSR at an address, if it is implemented (R27). -/
def State.findCsr (s : State) (a : CsrAddr) : Option Csr := s.csrs.find? fun c => c.addr == a

/-- The CSR at an address holds `v`. -/
def State.setCsr (s : State) (a : CsrAddr) (v : Word) : State :=
  { s with csrs := s.csrs.map fun c => if c.addr = a then { c with value := v } else c }

/-- What the six CSR instructions share (R174). `word` is the instruction's own word, the `info` of the exception; `reads` says whether
the CSR is read; `update`, where it writes, is the value written as a function of the value read. One that does not exist, or that is
read-only and would be written, raises before anything else; else the CSR is read, then written, then `x[rd]` gets the value read. -/
def csrAccess (s : State) (word : Word) (rd : RegId) (a : CsrAddr) (reads : Bool) (update : Option (Word → Word)) :
    Host.Outcome State Fault Refusal :=
  match s.findCsr a with
  | none => raise (.illegalInstruction word)
  | some c =>
    if update.isSome && c.readOnly then raise (.illegalInstruction word)
    else
      let t := if reads then Config.csrRead a c.value else 0
      let held := if reads then Config.csrAfterRead a c.value else c.value
      match update with
      | none => writeResult (s.setCsr a held) rd t
      | some f => writeResult (s.setCsr a (Config.csrWrite a held (f t))) rd t

/-! ## The fetch (R10 steps 1 and 2, R45) -/

/-- Check the pc, then `IFetch(pc)`: access fault before stale fetch (R224). -/
def fetch (s : State) : Except Fault Word :=
  if s.pc.toNat % 4 ≠ 0 then .error (.instructionAddressMisaligned s.pc)
  else if !backedRange s.config s.pc.toNat 4 then .error (.instructionAccessFault s.pc)
  else if s.staleRange s.pc.toNat 4 then .error (.staleFetch s.pc)
  else .ok (BitVec.ofNat 32 (ofBytesLE (s.mem.getBytes s.pc.toNat 4)))

/-- What a step answers for a word that is no instruction (R82, R203). -/
def rejectOutcome : Reject → Host.Outcome State Fault Refusal
  | .illegalInstruction w => raise (.illegalInstruction w)
  | .floatingPointNotSpecified => .refused .floatingPointNotSpecified

/-! ## Placing one instruction word (log 7) -/

/-- `s` with the 32-bit word `w` where the next fetch finds it: the pc rounded down to a multiple of 4, the four bytes there written,
backed and not stale. A state whose pc is aligned and whose four bytes are backed and not stale changes in those four bytes alone. -/
def State.placeWord (s : State) (w : Nat) : State :=
  let a := 4 * (s.pc.toNat / 4)
  { s with
    pc := BitVec.ofNat 32 a
    mem := s.mem.setBytes a (toBytesLE 4 w)
    stale := s.stale.filter fun b => decide (b < a) || decide (a + 4 ≤ b)
    config :=
      if backedRange s.config a 4 then s.config
      else { s.config with memMap := { base := a, size := 4 } :: s.config.memMap } }

end Sys2Proof.Machine
end

