-- ==== Sys2Proof/Machine/Operands.lean ====
section
/-! DEFINITION. Every operand form the spec gives: the immediates assembled to 32 bits (R79), the register shift count (R113), the
effective address of a load or store (R41), the targets of the control transfers (R131, R132, R134). -/

namespace Sys2Proof.Machine

/-- `immI = sext_32(i[31:20])` (R79). -/
def immI (imm : BitVec 12) : Word := imm.signExtend 32

/-- `immS = sext_32({i[31:25], i[11:7]})` (R79). -/
def immS (imm : BitVec 12) : Word := imm.signExtend 32

/-- `immB`, the byte offset sign-extended (R79). -/
def immB (offset : BitVec 13) : Word := offset.signExtend 32

/-- `immU = {i[31:12], 000000000000}` (R79). -/
def immU (imm : BitVec 20) : Word := imm ++ 0#12

/-- `immJ`, the byte offset sign-extended (R79). -/
def immJ (offset : BitVec 21) : Word := offset.signExtend 32

/-- `shamt`, unsigned, not extended (R79). -/
def shiftImm (shamt : BitVec 5) : Nat := shamt.toNat

/-- `x[rs2][4:0]`, the count of a register shift (R113). -/
def shiftCount (v : Word) : Nat := (v.extractLsb' 0 5).toNat

/-- `zext_32(zimm)` (R79). -/
def immZ (zimm : BitVec 5) : Word := zimm.zeroExtend 32

/-- The effective address of a load, `(x[rs1] + immI) mod 2^32` (R41, R150). -/
def loadAddress (s : State) (rs1 : RegId) (imm : BitVec 12) : Word := s.readReg rs1 + immI imm

/-- The effective address of a store, `(x[rs1] + immS) mod 2^32` (R41, R156). -/
def storeAddress (s : State) (rs1 : RegId) (imm : BitVec 12) : Word := s.readReg rs1 + immS imm

/-- The target of `jal`, `(pc + immJ) mod 2^32` (R131). -/
def jalTarget (s : State) (offset : BitVec 21) : Word := s.pc + immJ offset

/-- The target of `jalr`, `(x[rs1] + immI)` with bit 0 cleared (R132). -/
def jalrTarget (s : State) (rs1 : RegId) (imm : BitVec 12) : Word := (s.readReg rs1 + immI imm) &&& 0xFFFFFFFE

/-- The target of a branch, `(pc + immB) mod 2^32` (R134). -/
def branchTarget (s : State) (offset : BitVec 13) : Word := s.pc + immB offset

end Sys2Proof.Machine
end

