-- ==== Sys2Proof/Machine/Flags.lean ====
section
/-! DEFINITION. There are no flags (R26): comparisons write 0 or 1 to a register or decide a branch. This file holds the comparisons,
which is all the condition computation the machine has (R109 to R112, R134 to R140). -/

namespace Sys2Proof.Machine

/-- `a <s b`: signed (R5). -/
def lessSigned (a b : Word) : Bool := decide (a.toInt < b.toInt)

/-- `a <u b`: unsigned (R5). -/
def lessUnsigned (a b : Word) : Bool := decide (a.toNat < b.toNat)

/-- The 32-bit values `0x00000001` and `0x00000000` a comparison writes (R109). -/
def boolWord (b : Bool) : Word := if b then 1 else 0

end Sys2Proof.Machine
end

