-- ==== Sys2Proof/Machine/Control.lean ====
section
/-! DEFINITION. The eight control transfer instructions (41_control_transfer.md, R130 to R140). No delay slot (R245); the return-address
stack of R133 has no architectural effect and is not modelled (R31). -/

namespace Sys2Proof.Machine

/-- `jal` (R131): the link is written only when the target is a multiple of 4 (R130). -/
def execJal (rd : RegId) (offset : BitVec 21) (s : State) : Host.Outcome State Fault Refusal :=
  transfer s (jalTarget s offset) (some (rd, s.nextPc))

/-- `jalr` (R132): the target is computed from the old `x[rs1]`, bit 0 cleared first. -/
def execJalr (rd rs1 : RegId) (imm : BitVec 12) (s : State) : Host.Outcome State Fault Refusal :=
  transfer s (jalrTarget s rs1 imm) (some (rd, s.nextPc))

/-- `beq` (R135). -/
def execBeq (rs1 rs2 : RegId) (offset : BitVec 13) (s : State) : Host.Outcome State Fault Refusal :=
  branch s (s.readReg rs1 == s.readReg rs2) (branchTarget s offset)

/-- `bne` (R136). -/
def execBne (rs1 rs2 : RegId) (offset : BitVec 13) (s : State) : Host.Outcome State Fault Refusal :=
  branch s (s.readReg rs1 != s.readReg rs2) (branchTarget s offset)

/-- `blt` (R137): signed. -/
def execBlt (rs1 rs2 : RegId) (offset : BitVec 13) (s : State) : Host.Outcome State Fault Refusal :=
  branch s (lessSigned (s.readReg rs1) (s.readReg rs2)) (branchTarget s offset)

/-- `bge` (R138): signed. -/
def execBge (rs1 rs2 : RegId) (offset : BitVec 13) (s : State) : Host.Outcome State Fault Refusal :=
  branch s (!lessSigned (s.readReg rs1) (s.readReg rs2)) (branchTarget s offset)

/-- `bltu` (R139): unsigned. -/
def execBltu (rs1 rs2 : RegId) (offset : BitVec 13) (s : State) : Host.Outcome State Fault Refusal :=
  branch s (lessUnsigned (s.readReg rs1) (s.readReg rs2)) (branchTarget s offset)

/-- `bgeu` (R140): unsigned. -/
def execBgeu (rs1 rs2 : RegId) (offset : BitVec 13) (s : State) : Host.Outcome State Fault Refusal :=
  branch s (!lessUnsigned (s.readReg rs1) (s.readReg rs2)) (branchTarget s offset)

end Sys2Proof.Machine
end

