-- ==== Sys2Proof/Machine/Integer.lean ====
section
/-! DEFINITION. The 21 integer computational instructions (40_integer_computational.md, R100 to R121): each writes one register and goes
on; none touches memory or raises. -/

namespace Sys2Proof.Machine

/-- `add` (R100): the sum modulo 2^32. -/
def execAdd (rd rs1 rs2 : RegId) (s : State) : Host.Outcome State Fault Refusal :=
  writeResult s rd (s.readReg rs1 + s.readReg rs2)

/-- `addi` (R101). -/
def execAddi (rd rs1 : RegId) (imm : BitVec 12) (s : State) : Host.Outcome State Fault Refusal :=
  writeResult s rd (s.readReg rs1 + immI imm)

/-- `sub` (R102): the difference modulo 2^32. -/
def execSub (rd rs1 rs2 : RegId) (s : State) : Host.Outcome State Fault Refusal :=
  writeResult s rd (s.readReg rs1 - s.readReg rs2)

/-- `and` (R103). -/
def execAnd (rd rs1 rs2 : RegId) (s : State) : Host.Outcome State Fault Refusal :=
  writeResult s rd (s.readReg rs1 &&& s.readReg rs2)

/-- `andi` (R104). -/
def execAndi (rd rs1 : RegId) (imm : BitVec 12) (s : State) : Host.Outcome State Fault Refusal :=
  writeResult s rd (s.readReg rs1 &&& immI imm)

/-- `or` (R105). -/
def execOr (rd rs1 rs2 : RegId) (s : State) : Host.Outcome State Fault Refusal :=
  writeResult s rd (s.readReg rs1 ||| s.readReg rs2)

/-- `ori` (R106). -/
def execOri (rd rs1 : RegId) (imm : BitVec 12) (s : State) : Host.Outcome State Fault Refusal :=
  writeResult s rd (s.readReg rs1 ||| immI imm)

/-- `xor` (R107). -/
def execXor (rd rs1 rs2 : RegId) (s : State) : Host.Outcome State Fault Refusal :=
  writeResult s rd (s.readReg rs1 ^^^ s.readReg rs2)

/-- `xori` (R108). -/
def execXori (rd rs1 : RegId) (imm : BitVec 12) (s : State) : Host.Outcome State Fault Refusal :=
  writeResult s rd (s.readReg rs1 ^^^ immI imm)

/-- `slt` (R109): signed. -/
def execSlt (rd rs1 rs2 : RegId) (s : State) : Host.Outcome State Fault Refusal :=
  writeResult s rd (boolWord (lessSigned (s.readReg rs1) (s.readReg rs2)))

/-- `sltu` (R110): unsigned. -/
def execSltu (rd rs1 rs2 : RegId) (s : State) : Host.Outcome State Fault Refusal :=
  writeResult s rd (boolWord (lessUnsigned (s.readReg rs1) (s.readReg rs2)))

/-- `slti` (R111): signed. -/
def execSlti (rd rs1 : RegId) (imm : BitVec 12) (s : State) : Host.Outcome State Fault Refusal :=
  writeResult s rd (boolWord (lessSigned (s.readReg rs1) (immI imm)))

/-- `sltiu` (R112): the immediate is sign-extended, then both are compared as unsigned. -/
def execSltiu (rd rs1 : RegId) (imm : BitVec 12) (s : State) : Host.Outcome State Fault Refusal :=
  writeResult s rd (boolWord (lessUnsigned (s.readReg rs1) (immI imm)))

/-- `sll` (R113): the count is `x[rs2][4:0]`. -/
def execSll (rd rs1 rs2 : RegId) (s : State) : Host.Outcome State Fault Refusal :=
  writeResult s rd (s.readReg rs1 <<< shiftCount (s.readReg rs2))

/-- `slli` (R114). -/
def execSlli (rd rs1 : RegId) (shamt : BitVec 5) (s : State) : Host.Outcome State Fault Refusal :=
  writeResult s rd (s.readReg rs1 <<< shiftImm shamt)

/-- `srl` (R115): zeros enter. -/
def execSrl (rd rs1 rs2 : RegId) (s : State) : Host.Outcome State Fault Refusal :=
  writeResult s rd (s.readReg rs1 >>> shiftCount (s.readReg rs2))

/-- `srli` (R116). -/
def execSrli (rd rs1 : RegId) (shamt : BitVec 5) (s : State) : Host.Outcome State Fault Refusal :=
  writeResult s rd (s.readReg rs1 >>> shiftImm shamt)

/-- `sra` (R117): copies of bit 31 enter. -/
def execSra (rd rs1 rs2 : RegId) (s : State) : Host.Outcome State Fault Refusal :=
  writeResult s rd ((s.readReg rs1).sshiftRight (shiftCount (s.readReg rs2)))

/-- `srai` (R118). -/
def execSrai (rd rs1 : RegId) (shamt : BitVec 5) (s : State) : Host.Outcome State Fault Refusal :=
  writeResult s rd ((s.readReg rs1).sshiftRight (shiftImm shamt))

/-- `lui` (R119). -/
def execLui (rd : RegId) (imm : BitVec 20) (s : State) : Host.Outcome State Fault Refusal :=
  writeResult s rd (immU imm)

/-- `auipc` (R120): `pc` is the address of the `auipc` itself (R24). -/
def execAuipc (rd : RegId) (imm : BitVec 20) (s : State) : Host.Outcome State Fault Refusal :=
  writeResult s rd (s.pc + immU imm)

end Sys2Proof.Machine
end

