-- ==== Sys2Proof/Machine/LoadStore.lean ====
section
/-! DEFINITION. The eight loads and stores (42_load_store.md, R150 to R159). -/

namespace Sys2Proof.Machine

/-- `lb` (R151): one byte, sign-extended. -/
def execLb (rd rs1 : RegId) (imm : BitVec 12) (s : State) : Host.Outcome State Fault Refusal :=
  load s rd (loadAddress s rs1 imm) 1 fun v => v.signExtend 32

/-- `lbu` (R152): one byte, zero-extended. -/
def execLbu (rd rs1 : RegId) (imm : BitVec 12) (s : State) : Host.Outcome State Fault Refusal :=
  load s rd (loadAddress s rs1 imm) 1 fun v => v.zeroExtend 32

/-- `lh` (R153): two bytes, sign-extended. -/
def execLh (rd rs1 : RegId) (imm : BitVec 12) (s : State) : Host.Outcome State Fault Refusal :=
  load s rd (loadAddress s rs1 imm) 2 fun v => v.signExtend 32

/-- `lhu` (R154): two bytes, zero-extended. -/
def execLhu (rd rs1 : RegId) (imm : BitVec 12) (s : State) : Host.Outcome State Fault Refusal :=
  load s rd (loadAddress s rs1 imm) 2 fun v => v.zeroExtend 32

/-- `lw` (R155): four bytes, nothing to extend. -/
def execLw (rd rs1 : RegId) (imm : BitVec 12) (s : State) : Host.Outcome State Fault Refusal :=
  load s rd (loadAddress s rs1 imm) 4 fun v => v

/-- `sb` (R157): `x[rs2][7:0]`. -/
def execSb (rs2 rs1 : RegId) (imm : BitVec 12) (s : State) : Host.Outcome State Fault Refusal :=
  store s (storeAddress s rs1 imm) 1 (s.readReg rs2)

/-- `sh` (R158): `x[rs2][15:0]`. -/
def execSh (rs2 rs1 : RegId) (imm : BitVec 12) (s : State) : Host.Outcome State Fault Refusal :=
  store s (storeAddress s rs1 imm) 2 (s.readReg rs2)

/-- `sw` (R159): all four bytes of `x[rs2]`. -/
def execSw (rs2 rs1 : RegId) (imm : BitVec 12) (s : State) : Host.Outcome State Fault Refusal :=
  store s (storeAddress s rs1 imm) 4 (s.readReg rs2)

end Sys2Proof.Machine
end

