-- ==== Sys2Proof/Machine/MulDiv.lean ====
section
/-! DEFINITION. The eight RV32M instructions (44_rv32m.md, R190 to R198): products are formed exactly as integers and then narrowed;
division rounds toward zero and never traps. -/

namespace Sys2Proof.Machine

/-- Bits 63:32 of an exact product, as 32 bits: `(p >>s 32) mod 2^32`, the shift written as the division that rounds toward minus
infinity (R192, R194). -/
def highWord (p : Int) : Word := BitVec.ofInt 32 (p / 2 ^ 32)

/-- The signed quotient (R195): divisor 0 first, then the one overflow, then `tdiv`. -/
def quotientSigned (a b : Word) : Word :=
  if b = 0 then 0xFFFFFFFF
  else if a = 0x80000000 ∧ b = 0xFFFFFFFF then 0x80000000
  else BitVec.ofInt 32 (a.toInt.tdiv b.toInt)

/-- The unsigned quotient (R196). -/
def quotientUnsigned (a b : Word) : Word :=
  if b = 0 then 0xFFFFFFFF else BitVec.ofNat 32 (a.toNat / b.toNat)

/-- The signed remainder (R197): the dividend for divisor 0, 0 in the overflow case, else `trem`. -/
def remainderSigned (a b : Word) : Word :=
  if b = 0 then a
  else if a = 0x80000000 ∧ b = 0xFFFFFFFF then 0
  else BitVec.ofInt 32 (a.toInt - b.toInt * a.toInt.tdiv b.toInt)

/-- The unsigned remainder (R198). -/
def remainderUnsigned (a b : Word) : Word :=
  if b = 0 then a else BitVec.ofNat 32 (a.toNat % b.toNat)

/-- `mul` (R191): the low 32 bits. -/
def execMul (rd rs1 rs2 : RegId) (s : State) : Host.Outcome State Fault Refusal :=
  writeResult s rd (s.readReg rs1 * s.readReg rs2)

/-- `mulh` (R192): both signed. -/
def execMulh (rd rs1 rs2 : RegId) (s : State) : Host.Outcome State Fault Refusal :=
  writeResult s rd (highWord ((s.readReg rs1).toInt * (s.readReg rs2).toInt))

/-- `mulhsu` (R194): `x[rs1]` signed, `x[rs2]` unsigned. -/
def execMulhsu (rd rs1 rs2 : RegId) (s : State) : Host.Outcome State Fault Refusal :=
  writeResult s rd (highWord ((s.readReg rs1).toInt * ((s.readReg rs2).toNat : Int)))

/-- `mulhu` (R193): both unsigned. -/
def execMulhu (rd rs1 rs2 : RegId) (s : State) : Host.Outcome State Fault Refusal :=
  writeResult s rd (BitVec.ofNat 32 (((s.readReg rs1).toNat * (s.readReg rs2).toNat) >>> 32))

/-- `div` (R195). -/
def execDiv (rd rs1 rs2 : RegId) (s : State) : Host.Outcome State Fault Refusal :=
  writeResult s rd (quotientSigned (s.readReg rs1) (s.readReg rs2))

/-- `divu` (R196). -/
def execDivu (rd rs1 rs2 : RegId) (s : State) : Host.Outcome State Fault Refusal :=
  writeResult s rd (quotientUnsigned (s.readReg rs1) (s.readReg rs2))

/-- `rem` (R197). -/
def execRem (rd rs1 rs2 : RegId) (s : State) : Host.Outcome State Fault Refusal :=
  writeResult s rd (remainderSigned (s.readReg rs1) (s.readReg rs2))

/-- `remu` (R198). -/
def execRemu (rd rs1 rs2 : RegId) (s : State) : Host.Outcome State Fault Refusal :=
  writeResult s rd (remainderUnsigned (s.readReg rs1) (s.readReg rs2))

end Sys2Proof.Machine
end

