-- ==== Sys2Proof/Machine/Rv64.lean ====
section
/-! DEFINITION. The four RV64I rows the spec records and does not admit (R160 to R164): on this machine each raises
`IllegalInstruction` with its own word. The decoder skips their rows (R81), so a step raises the same exception at decode. -/

namespace Sys2Proof.Machine

/-- `lwu` (R161): 'On this machine: `IllegalInstruction`.' -/
def execLwu (rd rs1 : RegId) (imm : BitVec 12) (_s : State) : Host.Outcome State Fault Refusal :=
  raise (.illegalInstruction (encode (.lwu rd rs1 imm)))

/-- `ld` (R162): 'On this machine: `IllegalInstruction`.' -/
def execLd (rd rs1 : RegId) (imm : BitVec 12) (_s : State) : Host.Outcome State Fault Refusal :=
  raise (.illegalInstruction (encode (.ld rd rs1 imm)))

/-- `sd` (R163): 'On this machine: `IllegalInstruction`.' -/
def execSd (rs2 rs1 : RegId) (imm : BitVec 12) (_s : State) : Host.Outcome State Fault Refusal :=
  raise (.illegalInstruction (encode (.sd rs2 rs1 imm)))

/-- `addiw` (R164): 'On this machine: `IllegalInstruction`.' -/
def execAddiw (rd rs1 : RegId) (imm : BitVec 12) (_s : State) : Host.Outcome State Fault Refusal :=
  raise (.illegalInstruction (encode (.addiw rd rs1 imm)))

end Sys2Proof.Machine
end

