-- ==== Sys2Proof/Machine/System.lean ====
section
/-! DEFINITION. The fences, `ecall`, `ebreak` and the six CSR instructions (43_system.md, R170 to R180). The `info` of a CSR
instruction's exception is its own word, which `encode` gives (log 9). -/

namespace Sys2Proof.Machine

/-- `fence` (R170): no state change but `pc`, whatever `pred` and `succ` are; `StaleSet` stays. -/
def execFence (_pred _succ : BitVec 4) (s : State) : Host.Outcome State Fault Refusal :=
  .next s.advance

/-- `fence.i` (R171): `StaleSet` becomes empty. -/
def execFenceI (s : State) : Host.Outcome State Fault Refusal :=
  .next ({ s with stale := [] } : State).advance

/-- `ecall` (R172): raises `EnvironmentCall(0)`, always. -/
def execEcall (_s : State) : Host.Outcome State Fault Refusal :=
  raise (.environmentCall 0)

/-- `ebreak` (R173): raises `Breakpoint(pc)`, always. -/
def execEbreak (s : State) : Host.Outcome State Fault Refusal :=
  raise (.breakpoint s.pc)

/-- `csrrw` (R175): reads only if `rd` is not `x0`; always writes. -/
def execCsrrw (rd : RegId) (csr : CsrAddr) (rs1 : RegId) (s : State) : Host.Outcome State Fault Refusal :=
  csrAccess s (encode (.csrrw rd csr rs1)) rd csr (rd != 0) (some fun _ => s.readReg rs1)

/-- `csrrs` (R176): writes only if the register number `rs1` is not 0. -/
def execCsrrs (rd : RegId) (csr : CsrAddr) (rs1 : RegId) (s : State) : Host.Outcome State Fault Refusal :=
  csrAccess s (encode (.csrrs rd csr rs1)) rd csr true
    (if rs1 = 0 then none else some fun t => t ||| s.readReg rs1)

/-- `csrrc` (R177): writes only if the register number `rs1` is not 0. -/
def execCsrrc (rd : RegId) (csr : CsrAddr) (rs1 : RegId) (s : State) : Host.Outcome State Fault Refusal :=
  csrAccess s (encode (.csrrc rd csr rs1)) rd csr true
    (if rs1 = 0 then none else some fun t => t &&& ~~~s.readReg rs1)

/-- `csrrwi` (R178): as `csrrw` with `zext_32(zimm)`. -/
def execCsrrwi (rd : RegId) (csr : CsrAddr) (zimm : BitVec 5) (s : State) : Host.Outcome State Fault Refusal :=
  csrAccess s (encode (.csrrwi rd csr zimm)) rd csr (rd != 0) (some fun _ => immZ zimm)

/-- `csrrsi` (R179): writes only if `zimm` is not 0. -/
def execCsrrsi (rd : RegId) (csr : CsrAddr) (zimm : BitVec 5) (s : State) : Host.Outcome State Fault Refusal :=
  csrAccess s (encode (.csrrsi rd csr zimm)) rd csr true
    (if zimm = 0 then none else some fun t => t ||| immZ zimm)

/-- `csrrci` (R180): writes only if `zimm` is not 0. -/
def execCsrrci (rd : RegId) (csr : CsrAddr) (zimm : BitVec 5) (s : State) : Host.Outcome State Fault Refusal :=
  csrAccess s (encode (.csrrci rd csr zimm)) rd csr true
    (if zimm = 0 then none else some fun t => t &&& ~~~immZ zimm)

end Sys2Proof.Machine
end

