-- ==== Sys2Proof/Machine/Step.lean ====
section
/-! DEFINITION. One step of the machine (R10): fetch with its checks, decode, perform the instruction. -/

namespace Sys2Proof.Machine

/-- One step (R10): (1) the pc's alignment and (2) the fetch are `fetch`, (3) decode, (4) the meaning. -/
def step (s : State) : Host.Outcome State Fault Refusal :=
  match fetch s with
  | .error f => raise f
  | .ok w =>
    match decode w with
    | .error e => rejectOutcome e
    | .ok i => exec i s

/-- `s` with the instruction whose bits are `w` (the bits at and above `nbits` being 0) where `step` fetches next (log 7). -/
def State.withFetchWord (s : State) (nbits w : Nat) : State := s.placeWord (w % 2 ^ nbits)

end Sys2Proof.Machine
end

