-- ==== Sys2Proof/Safety.lean ====
section
/-! DEFINITION. The terms the statements use: the invariant of the machine's states, the shapes of effect an instruction can have with
their frames, the classes of instructions that may touch each piece of state, and the cause codes of the exceptions. -/

namespace Sys2Proof.Machine

/-! ## The invariant -/

/-- The spec's conjuncts: memory lists backed bytes only (unbacked bytes have no value, R242); `StaleSet` holds backed bytes only (R44)
and is empty when fetches are coherent (R54); `pc` is a multiple of 4 (R25). The model's own (DESIGN CHOICE), which make equal contents
equal data: memory is in canonical form (log 3), `StaleSet` is a strictly rising list (log 11), CSR addresses strictly rise (log 17). -/
abbrev State.Inv (s : State) : Prop :=
  s.mem.wf = true ∧ (s.mem.all fun c => backed s.config c.1) = true ∧
  rising s.stale = true ∧ (s.stale.all fun a => backed s.config a) = true ∧
  (s.config.ifetchCoherent = true → s.stale = []) ∧
  s.pc.toNat % 4 = 0 ∧ rising (s.csrs.map fun c => c.addr.toNat) = true

/-- What the environment owes a reset: `RESET_PC` is a multiple of 4 (R240, R244), and `InitMem` gives values to backed bytes (R242).
The model's own (DESIGN CHOICE): `InitMem` in canonical form (log 3), CSR addresses that strictly rise (log 17). -/
abbrev ResetParams.Valid (p : ResetParams) : Prop :=
  p.resetPc.toNat % 4 = 0 ∧ p.initMem.wf = true ∧ (p.initMem.all fun c => backed p.config c.1) = true ∧
  rising (p.csrFile.map fun c => c.addr.toNat) = true

/-- The normal end of a run (R230): `ecall`'s fault. Any other fault is an abnormal end. -/
def normalEnd : Host.Outcome State Fault Refusal → Bool
  | .fault (.environmentCall _) => true
  | _ => false

/-! ## Shapes of effect, each with its frame -/

/-- Every register reads as before. -/
def SameRegs (s t : State) : Prop := ∀ r, t.readReg r = s.readReg r

/-- `x[rd]` reads `v`, unless `rd` is `x0`, which reads 0; every other register reads as before. -/
def RegsAfter (s t : State) (rd : RegId) (v : Word) : Prop :=
  ∀ r, t.readReg r = if r = 0 then 0 else if r = rd then v else s.readReg r

/-- Every byte of memory reads as before, and `StaleSet`, the CSRs and the parameters are as before. -/
def SameRest (s t : State) : Prop :=
  (∀ a, t.mem.get a = s.mem.get a) ∧ t.stale = s.stale ∧ t.csrs = s.csrs ∧ t.config = s.config

/-- The instruction completes: `x[rd]` gets `v`, `pc` goes to the next instruction, nothing else changes. -/
def Computes (i : Instr) (s : State) (rd : RegId) (v : Word) : Prop :=
  ∃ t, exec i s = .next t ∧ RegsAfter s t rd v ∧ t.pc = s.pc + 4 ∧ SameRest s t

/-- The instruction completes: only `pc` changes, to `p`. -/
def OnlyPc (i : Instr) (s : State) (p : Word) : Prop :=
  ∃ t, exec i s = .next t ∧ SameRegs s t ∧ t.pc = p ∧ SameRest s t

/-- A jump to `t` that links `pc + 4` in `x[rd]` (R130): it completes when `t` is a multiple of 4, and raises otherwise. -/
def Jumps (i : Instr) (s : State) (rd : RegId) (t : Word) : Prop :=
  (t.toNat % 4 = 0 → ∃ u, exec i s = .next u ∧ RegsAfter s u rd (s.pc + 4) ∧ u.pc = t ∧ SameRest s u) ∧
  (t.toNat % 4 ≠ 0 → exec i s = .fault (.instructionAddressMisaligned t))

/-- A branch to `t` on a condition (R134): not taken it goes on, taken it goes to `t` when that is a multiple of 4 and raises otherwise. -/
def Branches (i : Instr) (s : State) (cond : Prop) (t : Word) : Prop :=
  (¬cond → OnlyPc i s (s.pc + 4)) ∧
  (cond → t.toNat % 4 = 0 → OnlyPc i s t) ∧
  (cond → t.toNat % 4 ≠ 0 → exec i s = .fault (.instructionAddressMisaligned t))

/-- Every one of the `n` bytes from `a` on is backed (R50). -/
def AllBacked (s : State) (a n : Nat) : Prop := ∀ k, k < n → backed s.config (a + k) = true

/-- A load of `n` bytes at `addr` that writes `v` (R150): alignment first, then backing, then the register. -/
def Loads (i : Instr) (s : State) (rd : RegId) (addr : Word) (n : Nat) (v : Word) : Prop :=
  (addr.toNat % n = 0 → AllBacked s addr.toNat n → Computes i s rd v) ∧
  (addr.toNat % n ≠ 0 → exec i s = .fault (.loadAddressMisaligned addr)) ∧
  (addr.toNat % n = 0 → ¬AllBacked s addr.toNat n → exec i s = .fault (.loadAccessFault addr))

/-- A store of the low `n` bytes of `v` at `addr` (R156): byte `k` goes to `addr + k`, every other byte reads as before, and the bytes
written join `StaleSet` unless fetches are coherent (R44, R54). -/
def Stores (i : Instr) (s : State) (addr : Word) (n : Nat) (v : Word) : Prop :=
  (addr.toNat % n = 0 → AllBacked s addr.toNat n →
    ∃ t, exec i s = .next t ∧ SameRegs s t ∧ t.pc = s.pc + 4 ∧ t.csrs = s.csrs ∧ t.config = s.config ∧
      (∀ k, k < n → t.mem.get (addr.toNat + k) = v.extractLsb' (8 * k) 8) ∧
      (∀ a, a < addr.toNat ∨ addr.toNat + n ≤ a → t.mem.get a = s.mem.get a) ∧
      (s.config.ifetchCoherent = true → t.stale = s.stale) ∧
      (s.config.ifetchCoherent = false →
        ∀ a, a ∈ t.stale ↔ a ∈ s.stale ∨ (addr.toNat ≤ a ∧ a < addr.toNat + n))) ∧
  (addr.toNat % n ≠ 0 → exec i s = .fault (.storeAddressMisaligned addr)) ∧
  (addr.toNat % n = 0 → ¬AllBacked s addr.toNat n → exec i s = .fault (.storeAccessFault addr))

/-- A CSR instruction on the implemented CSR `c` at `a` completes: `x[rd]` gets `v`, the CSR holds `held`, every other CSR is as before,
and nothing else changes but `pc`. -/
def AccessesCsr (i : Instr) (s : State) (rd : RegId) (a : CsrAddr) (c : Csr) (v held : Word) : Prop :=
  ∃ t, exec i s = .next t ∧ RegsAfter s t rd v ∧ t.pc = s.pc + 4 ∧
    t.findCsr a = some { c with value := held } ∧ (∀ b, b ≠ a → t.findCsr b = s.findCsr b) ∧
    (∀ b, t.mem.get b = s.mem.get b) ∧ t.stale = s.stale ∧ t.config = s.config

/-! ## Which instructions may touch what -/

/-- The stores, the only instructions that write memory (R40, R156). -/
def isStore : Instr → Bool
  | .sb .. | .sh .. | .sw .. => true
  | _ => false

/-- Instruction `i` at `s`, if it completes, stores to the byte at `a` (R156 to R159). -/
def storesTo (i : Instr) (s : State) (a : Nat) : Prop :=
  match i with
  | .sb _ rs1 imm => (storeAddress s rs1 imm).toNat ≤ a ∧ a < (storeAddress s rs1 imm).toNat + 1
  | .sh _ rs1 imm => (storeAddress s rs1 imm).toNat ≤ a ∧ a < (storeAddress s rs1 imm).toNat + 2
  | .sw _ rs1 imm => (storeAddress s rs1 imm).toNat ≤ a ∧ a < (storeAddress s rs1 imm).toNat + 4
  | _ => False

/-- The control transfers, the only instructions that assign `pc` (R24). -/
def isTransfer : Instr → Bool
  | .jal .. | .jalr .. | .beq .. | .bne .. | .blt .. | .bge .. | .bltu .. | .bgeu .. => true
  | _ => false

/-- The CSR instructions (R174). -/
def isCsr : Instr → Bool
  | .csrrw .. | .csrrs .. | .csrrc .. | .csrrwi .. | .csrrsi .. | .csrrci .. => true
  | _ => false

/-- The register an instruction writes (R71 to R77): its `rd` field, where its format has one. The rows the machine does not admit
write none (R160). -/
def destination : Instr → Option RegId
  | .lui rd _ | .auipc rd _ | .jal rd _ | .jalr rd _ _ => some rd
  | .lb rd _ _ | .lh rd _ _ | .lw rd _ _ | .lbu rd _ _ | .lhu rd _ _ => some rd
  | .addi rd _ _ | .slti rd _ _ | .sltiu rd _ _ | .xori rd _ _ | .ori rd _ _ | .andi rd _ _ => some rd
  | .slli rd _ _ | .srli rd _ _ | .srai rd _ _ => some rd
  | .add rd _ _ | .sub rd _ _ | .sll rd _ _ | .slt rd _ _ | .sltu rd _ _ => some rd
  | .xor rd _ _ | .srl rd _ _ | .sra rd _ _ | .or rd _ _ | .and rd _ _ => some rd
  | .csrrw rd _ _ | .csrrs rd _ _ | .csrrc rd _ _ | .csrrwi rd _ _ | .csrrsi rd _ _ | .csrrci rd _ _ => some rd
  | .mul rd _ _ | .mulh rd _ _ | .mulhsu rd _ _ | .mulhu rd _ _ => some rd
  | .div rd _ _ | .divu rd _ _ | .rem rd _ _ | .remu rd _ _ => some rd
  | .beq .. | .bne .. | .blt .. | .bge .. | .bltu .. | .bgeu .. => none
  | .sb .. | .sh .. | .sw .. | .fence .. | .fenceI | .ecall | .ebreak => none
  | .lwu .. | .ld .. | .sd .. | .addiw .. => none

/-- The same instruction with `r` in its `rd` field; an instruction that writes no register stays as it is. -/
def withDestination (i : Instr) (r : RegId) : Instr :=
  match i with
  | .lui _ imm => .lui r imm
  | .auipc _ imm => .auipc r imm
  | .jal _ offset => .jal r offset
  | .jalr _ rs1 imm => .jalr r rs1 imm
  | .lb _ rs1 imm => .lb r rs1 imm
  | .lh _ rs1 imm => .lh r rs1 imm
  | .lw _ rs1 imm => .lw r rs1 imm
  | .lbu _ rs1 imm => .lbu r rs1 imm
  | .lhu _ rs1 imm => .lhu r rs1 imm
  | .addi _ rs1 imm => .addi r rs1 imm
  | .slti _ rs1 imm => .slti r rs1 imm
  | .sltiu _ rs1 imm => .sltiu r rs1 imm
  | .xori _ rs1 imm => .xori r rs1 imm
  | .ori _ rs1 imm => .ori r rs1 imm
  | .andi _ rs1 imm => .andi r rs1 imm
  | .slli _ rs1 shamt => .slli r rs1 shamt
  | .srli _ rs1 shamt => .srli r rs1 shamt
  | .srai _ rs1 shamt => .srai r rs1 shamt
  | .add _ rs1 rs2 => .add r rs1 rs2
  | .sub _ rs1 rs2 => .sub r rs1 rs2
  | .sll _ rs1 rs2 => .sll r rs1 rs2
  | .slt _ rs1 rs2 => .slt r rs1 rs2
  | .sltu _ rs1 rs2 => .sltu r rs1 rs2
  | .xor _ rs1 rs2 => .xor r rs1 rs2
  | .srl _ rs1 rs2 => .srl r rs1 rs2
  | .sra _ rs1 rs2 => .sra r rs1 rs2
  | .or _ rs1 rs2 => .or r rs1 rs2
  | .and _ rs1 rs2 => .and r rs1 rs2
  | .csrrw _ csr rs1 => .csrrw r csr rs1
  | .csrrs _ csr rs1 => .csrrs r csr rs1
  | .csrrc _ csr rs1 => .csrrc r csr rs1
  | .csrrwi _ csr zimm => .csrrwi r csr zimm
  | .csrrsi _ csr zimm => .csrrsi r csr zimm
  | .csrrci _ csr zimm => .csrrci r csr zimm
  | .mul _ rs1 rs2 => .mul r rs1 rs2
  | .mulh _ rs1 rs2 => .mulh r rs1 rs2
  | .mulhsu _ rs1 rs2 => .mulhsu r rs1 rs2
  | .mulhu _ rs1 rs2 => .mulhu r rs1 rs2
  | .div _ rs1 rs2 => .div r rs1 rs2
  | .divu _ rs1 rs2 => .divu r rs1 rs2
  | .rem _ rs1 rs2 => .rem r rs1 rs2
  | .remu _ rs1 rs2 => .remu r rs1 rs2
  | .beq .. | .bne .. | .blt .. | .bge .. | .bltu .. | .bgeu .. => i
  | .sb .. | .sh .. | .sw .. | .fence .. | .fenceI | .ecall | .ebreak => i
  | .lwu .. | .ld .. | .sd .. | .addiw .. => i

/-- The step at `s` fetches and decodes to `i`, and so performs it (R10). -/
def Performs (s : State) (i : Instr) : Prop := ∃ w, fetch s = .ok w ∧ decode w = .ok i

/-- One of the first `n` steps from the reset at `p` performed an instruction that stores to the byte at `a`. -/
def StoredWithin (p : ResetParams) (n a : Nat) : Prop :=
  ∃ (k : Nat) (s : State) (i : Instr),
    k < n ∧ Sys2Proof.core.run k (State.resetFrom p) = .next s ∧ Performs s i ∧ storesTo i s a

/-! ## Exceptions by code and raiser (R222) -/

/-- The cause code of an exception (R222): a label, since no program can read it. -/
def Fault.code : Fault → Option Nat
  | .instructionAddressMisaligned _ => some 0
  | .instructionAccessFault _ => some 1
  | .illegalInstruction _ => some 2
  | .breakpoint _ => some 3
  | .loadAddressMisaligned _ => some 4
  | .loadAccessFault _ => some 5
  | .storeAddressMisaligned _ => some 6
  | .storeAccessFault _ => some 7
  | .environmentCall _ => some 11
  | .staleFetch _ => none

/-- The `info` of an exception (R210). -/
def Fault.info : Fault → Word
  | .instructionAddressMisaligned w | .instructionAccessFault w | .illegalInstruction w | .breakpoint w
  | .loadAddressMisaligned w | .loadAccessFault w | .storeAddressMisaligned w | .storeAccessFault w
  | .environmentCall w | .staleFetch w => w

/-- The codes an instruction may raise when it is performed, by the 'Raised by' column of R222; the rows the machine does not admit
raise code 2 (R160). -/
def raisableCodes : Instr → List Nat
  | .jal .. | .jalr .. | .beq .. | .bne .. | .blt .. | .bge .. | .bltu .. | .bgeu .. => [0]
  | .csrrw .. | .csrrs .. | .csrrc .. | .csrrwi .. | .csrrsi .. | .csrrci .. => [2]
  | .lwu .. | .ld .. | .sd .. | .addiw .. => [2]
  | .ebreak => [3]
  | .lb .. | .lbu .. => [5]
  | .lh .. | .lhu .. | .lw .. => [4, 5]
  | .sb .. => [7]
  | .sh .. | .sw .. => [6, 7]
  | .ecall => [11]
  | _ => []

end Sys2Proof.Machine
end

