-- ==== Sys2Proof/Certificates/Slice0/Obligations.lean ====
section
/-! DEFINITION. The statements for the provers, one definition each, from the numbered rules of spec/ (OBLIGATIONS.json cites them). -/

open Sys2Proof Sys2Proof.Machine

/-- When pc is a multiple of 4, the four bytes at pc are backed and not stale, and the little-endian word they make decodes to i, step
s is exec i s; nothing else is added around exec on this machine. (00_scope.md section 4, R10, 20_memory.md R45.) -/
def Obligations.StepRunsTheDecodedInstruction : Prop :=
  ∀ (s : State) (i : Instr), s.pc.toNat % 4 = 0 → AllBacked s s.pc.toNat 4 →
    (∀ k, k < 4 → s.pc.toNat + k ∉ s.stale) →
    decode (s.mem.get (s.pc.toNat + 3) ++ s.mem.get (s.pc.toNat + 2) ++ s.mem.get (s.pc.toNat + 1) ++ s.mem.get s.pc.toNat) = .ok i →
    step s = exec i s

/-- A step whose pc is not a multiple of 4 raises InstructionAddressMisaligned(pc); else one that fetches an unbacked byte raises
InstructionAccessFault(pc); else one that fetches a byte in StaleSet raises StaleFetch(pc); else the fetched word is the four
bytes, the byte at the highest address most significant. (R45.) -/
def Obligations.FetchChecksComeInOrder : Prop :=
  ∀ s : State,
    (s.pc.toNat % 4 ≠ 0 → step s = .fault (.instructionAddressMisaligned s.pc)) ∧
    (s.pc.toNat % 4 = 0 → ¬AllBacked s s.pc.toNat 4 → step s = .fault (.instructionAccessFault s.pc)) ∧
    (s.pc.toNat % 4 = 0 → AllBacked s s.pc.toNat 4 → (∃ k, k < 4 ∧ s.pc.toNat + k ∈ s.stale) →
      step s = .fault (.staleFetch s.pc)) ∧
    (s.pc.toNat % 4 = 0 → AllBacked s s.pc.toNat 4 → (∀ k, k < 4 → s.pc.toNat + k ∉ s.stale) →
      fetch s = .ok (s.mem.get (s.pc.toNat + 3) ++ s.mem.get (s.pc.toNat + 2) ++ s.mem.get (s.pc.toNat + 1) ++ s.mem.get s.pc.toNat))

/-- A step raises InstructionAccessFault exactly when pc is a multiple of 4 and some byte of pc .. pc + 3 is not backed, with info pc;
it raises StaleFetch exactly when pc is a multiple of 4, the four bytes are backed and one of them is in StaleSet, with info pc. A
jump or taken branch to an unbacked target that is a multiple of 4 completes: jal and jalr write pc + 4 to the link register (x0
stays 0), a branch writes none, pc becomes the target, nothing else changes, and the next step raises. StaleSet holds exactly what
was stored to since the last fence.i or since reset: it is empty after reset and after fence.i, and an instruction that completes
adds to it the bytes it stores to, no others. With fetches coherent no state that meets the invariant (every reachable state does)
raises StaleFetch. (R212, R220.) -/
def Obligations.FetchExceptionsExactly : Prop :=
  ∀ (s : State) (w : Word),
    let lands := fun (i : Instr) (target : Word) (regs : State → Prop) =>
      target.toNat % 4 = 0 → ¬AllBacked s target.toNat 4 →
        ∃ t, exec i s = .next t ∧ regs t ∧ t.pc = target ∧ SameRest s t ∧ step t = .fault (.instructionAccessFault target)
    (step s = .fault (.instructionAccessFault w) ↔ s.pc.toNat % 4 = 0 ∧ ¬AllBacked s s.pc.toNat 4 ∧ w = s.pc) ∧
    (step s = .fault (.staleFetch w) ↔
      s.pc.toNat % 4 = 0 ∧ AllBacked s s.pc.toNat 4 ∧ (∃ k, k < 4 ∧ s.pc.toNat + k ∈ s.stale) ∧ w = s.pc) ∧
    (∀ rd offset, lands (.jal rd offset) (jalTarget s offset) fun t => RegsAfter s t rd (s.pc + 4)) ∧
    (∀ rd rs1 imm, lands (.jalr rd rs1 imm) (jalrTarget s rs1 imm) fun t => RegsAfter s t rd (s.pc + 4)) ∧
    (∀ rs1 rs2 offset,
      let taken := fun (i : Instr) (cond : Prop) => cond → lands i (branchTarget s offset) (SameRegs s)
      taken (.beq rs1 rs2 offset) (s.readReg rs1 = s.readReg rs2) ∧
      taken (.bne rs1 rs2 offset) (s.readReg rs1 ≠ s.readReg rs2) ∧
      taken (.blt rs1 rs2 offset) ((s.readReg rs1).toInt < (s.readReg rs2).toInt) ∧
      taken (.bge rs1 rs2 offset) ((s.readReg rs1).toInt ≥ (s.readReg rs2).toInt) ∧
      taken (.bltu rs1 rs2 offset) ((s.readReg rs1).toNat < (s.readReg rs2).toNat) ∧
      taken (.bgeu rs1 rs2 offset) ((s.readReg rs1).toNat ≥ (s.readReg rs2).toNat)) ∧
    (∀ i t, isTransfer i = true → s.pc.toNat % 4 = 0 → exec i s = .next t → ¬AllBacked s t.pc.toNat 4 →
      step t = .fault (.instructionAccessFault t.pc)) ∧
    (∀ p, (State.resetFrom p).stale = []) ∧
    (∀ i t a, exec i s = .next t →
      (a ∈ t.stale ↔ i ≠ .fenceI ∧ (a ∈ s.stale ∨ (s.config.ifetchCoherent = false ∧ storesTo i s a)))) ∧
    (s.config.ifetchCoherent = true → s.Inv → step s ≠ .fault (.staleFetch w))

/-- A step that fetches a word which fits no admitted row of the opcode table raises IllegalInstruction with that word, unless bits
6:0 are one of the seven floating-point opcodes, when it refuses FloatingPointNotSpecified; and a step that fetches a word with
one of those opcodes always refuses. (R82, R203.) -/
def Obligations.UnmatchedWordsAreIllegalOrRefused : Prop :=
  ∀ (s : State) (w : Word), fetch s = .ok w →
    let floating := w.extractLsb' 0 7 ∈
      [0b0000111#7, 0b0100111#7, 0b1000011#7, 0b1000111#7, 0b1001011#7, 0b1001111#7, 0b1010011#7]
    (floating → step s = .refused .floatingPointNotSpecified) ∧
    (¬floating → (∀ r ∈ opcodeTable, r.admitted = true → w &&& r.mask ≠ r.mtch) → step s = .fault (.illegalInstruction w))

/-- The words of lwu, ld, sd and addiw, whatever their fields, decode to nothing and are illegal with the word itself; and the meaning
of each of the four constructors is that same stop: IllegalInstruction with the instruction's own word. (R160.) -/
def Obligations.Rv64WordsAreIllegal : Prop :=
  ∀ (s : State) (rd rs1 rs2 : RegId) (imm : BitVec 12),
    let lwu := imm ++ rs1 ++ 0b110#3 ++ rd ++ 0b0000011#7
    let ld := imm ++ rs1 ++ 0b011#3 ++ rd ++ 0b0000011#7
    let sd := imm.extractLsb' 5 7 ++ rs2 ++ rs1 ++ 0b011#3 ++ imm.extractLsb' 0 5 ++ 0b0100011#7
    let addiw := imm ++ rs1 ++ 0b000#3 ++ rd ++ 0b0011011#7
    (decode lwu = .error (.illegalInstruction lwu) ∧ exec (.lwu rd rs1 imm) s = .fault (.illegalInstruction lwu)) ∧
    (decode ld = .error (.illegalInstruction ld) ∧ exec (.ld rd rs1 imm) s = .fault (.illegalInstruction ld)) ∧
    (decode sd = .error (.illegalInstruction sd) ∧ exec (.sd rs2 rs1 imm) s = .fault (.illegalInstruction sd)) ∧
    (decode addiw = .error (.illegalInstruction addiw) ∧ exec (.addiw rd rs1 imm) s = .fault (.illegalInstruction addiw))

/-- For every well-formed instruction i of the whole table, every operand at every value its encoding admits, decode (encode i) is i.
(30_encoding.md sections 1 to 4, R70 to R81.) -/
def Obligations.DecodeAfterEncodeGivesTheInstruction : Prop :=
  ∀ i : Instr, i.wellFormed = true → decode (encode i) = .ok i

/-- If a word decodes to i then i is well-formed and encode i is that word: decoding drops no bit, so no two words decode to one
instruction, and the word a CSR instruction's exception carries is the word that was fetched (log 9). (30_encoding.md sections 1
to 4, R70 to R83.) -/
def Obligations.EncodeAfterDecodeGivesTheWord : Prop :=
  ∀ (w : Word) (i : Instr), decode w = .ok i → i.wellFormed = true ∧ encode i = w

/-- Two rows of the opcode table that a word fits are one row. The spec's sentence, marked as derived there: 'The masks and matches of
the admitted rows are pairwise disjoint, so at most one row matches and no priority is needed.' Stated here of all 59 rows.
(30_encoding.md section 4, R81.) -/
def Obligations.AtMostOneRowFits : Prop :=
  ∀ (w : Word) (r1 r2 : Row), r1 ∈ opcodeTable → r2 ∈ opcodeTable →
    w &&& r1.mask = r1.mtch → w &&& r2.mask = r2.mtch → r1 = r2

/-- A word decodes to i exactly when some admitted row of the opcode table has (w & mask) = match and its field extraction gives i.
(30_encoding.md section 4, R81, 30_encoding.md R82.) -/
def Obligations.DecodeFollowsTheOpcodeTable : Prop :=
  ∀ (w : Word) (i : Instr),
    decode w = .ok i ↔ ∃ r ∈ opcodeTable, r.admitted = true ∧ w &&& r.mask = r.mtch ∧ r.build w = i

/-- Eight words of the spec's own examples, one or more of each format, decode to the instruction the spec gives beside them.
(95_test_vectors.md part 3, 30_encoding.md R80.) -/
def Obligations.WrittenOutWordsDecode : Prop :=
  decode 0x002081B3 = .ok (.add 3 1 2) ∧ decode 0xFFF30293 = .ok (.addi 5 6 (-1)) ∧
  decode 0x4040D193 = .ok (.srai 3 1 4) ∧ decode 0xFE62AE23 = .ok (.sw 6 5 (-4)) ∧
  decode 0xFE209CE3 = .ok (.bne 1 2 (-8)) ∧ decode 0xDEADC2B7 = .ok (.lui 5 0xDEADC) ∧
  decode 0xFF1FF0EF = .ok (.jal 1 (-16)) ∧ decode 0x3408D2F3 = .ok (.csrrwi 5 0x340 17)

/-- The words of add and sub decode to them; each completes at every state: x[rd] gets the sum, or the difference, of the unsigned
values modulo 2^32 (x0 stays 0), pc goes to pc + 4, and no other register, no byte of memory and nothing else changes. (R100,
R102.) -/
def Obligations.AddAndSubtractModulo : Prop :=
  ∀ (s : State) (rd rs1 rs2 : RegId),
    (decode (0b0000000#7 ++ rs2 ++ rs1 ++ 0b000#3 ++ rd ++ 0b0110011#7) = .ok (.add rd rs1 rs2) ∧
      Computes (.add rd rs1 rs2) s rd (BitVec.ofNat 32 ((s.readReg rs1).toNat + (s.readReg rs2).toNat))) ∧
    (decode (0b0100000#7 ++ rs2 ++ rs1 ++ 0b000#3 ++ rd ++ 0b0110011#7) = .ok (.sub rd rs1 rs2) ∧
      Computes (.sub rd rs1 rs2) s rd (BitVec.ofInt 32 (((s.readReg rs1).toNat : Int) - (s.readReg rs2).toNat)))

/-- The words of and, or, xor decode to them; each completes at every state and x[rd] gets the bitwise operation of x[rs1] and x[rs2],
with the frame of Computes. (R103, R105, R107.) -/
def Obligations.BitwiseLogic : Prop :=
  ∀ (s : State) (rd rs1 rs2 : RegId),
    (decode (0b0000000#7 ++ rs2 ++ rs1 ++ 0b111#3 ++ rd ++ 0b0110011#7) = .ok (.and rd rs1 rs2) ∧
      Computes (.and rd rs1 rs2) s rd (s.readReg rs1 &&& s.readReg rs2)) ∧
    (decode (0b0000000#7 ++ rs2 ++ rs1 ++ 0b110#3 ++ rd ++ 0b0110011#7) = .ok (.or rd rs1 rs2) ∧
      Computes (.or rd rs1 rs2) s rd (s.readReg rs1 ||| s.readReg rs2)) ∧
    (decode (0b0000000#7 ++ rs2 ++ rs1 ++ 0b100#3 ++ rd ++ 0b0110011#7) = .ok (.xor rd rs1 rs2) ∧
      Computes (.xor rd rs1 rs2) s rd (s.readReg rs1 ^^^ s.readReg rs2))

/-- The words of slt and sltu decode to them; each completes at every state and x[rd] gets 1 if x[rs1] is less than x[rs2], as signed
values for slt and unsigned for sltu, else 0, with the frame of Computes. (R109, R110.) -/
def Obligations.SetLessThan : Prop :=
  ∀ (s : State) (rd rs1 rs2 : RegId),
    (decode (0b0000000#7 ++ rs2 ++ rs1 ++ 0b010#3 ++ rd ++ 0b0110011#7) = .ok (.slt rd rs1 rs2) ∧
      Computes (.slt rd rs1 rs2) s rd (if (s.readReg rs1).slt (s.readReg rs2) then 0x00000001#32 else 0x00000000#32)) ∧
    (decode (0b0000000#7 ++ rs2 ++ rs1 ++ 0b011#3 ++ rd ++ 0b0110011#7) = .ok (.sltu rd rs1 rs2) ∧
      Computes (.sltu rd rs1 rs2) s rd (if (s.readReg rs1).ult (s.readReg rs2) then 0x00000001#32 else 0x00000000#32))

/-- The words of sll, srl, sra decode to them; each completes at every state. With n the low five bits of x[rs2] (x[rs2] modulo 32),
x[rd] gets x[rs1] times 2^n modulo 2^32, the unsigned x[rs1] divided by 2^n, or the signed x[rs1] divided by 2^n rounding toward
minus infinity, with the frame of Computes. (R113, R115, R117.) -/
def Obligations.RegisterShifts : Prop :=
  ∀ (s : State) (rd rs1 rs2 : RegId),
    (decode (0b0000000#7 ++ rs2 ++ rs1 ++ 0b001#3 ++ rd ++ 0b0110011#7) = .ok (.sll rd rs1 rs2) ∧
      Computes (.sll rd rs1 rs2) s rd (BitVec.ofNat 32 ((s.readReg rs1).toNat * 2 ^ ((s.readReg rs2).toNat % 32)))) ∧
    (decode (0b0000000#7 ++ rs2 ++ rs1 ++ 0b101#3 ++ rd ++ 0b0110011#7) = .ok (.srl rd rs1 rs2) ∧
      Computes (.srl rd rs1 rs2) s rd (BitVec.ofNat 32 ((s.readReg rs1).toNat / 2 ^ ((s.readReg rs2).toNat % 32)))) ∧
    (decode (0b0100000#7 ++ rs2 ++ rs1 ++ 0b101#3 ++ rd ++ 0b0110011#7) = .ok (.sra rd rs1 rs2) ∧
      Computes (.sra rd rs1 rs2) s rd (BitVec.ofInt 32 ((s.readReg rs1).toInt / 2 ^ ((s.readReg rs2).toNat % 32))))

/-- The word of addi decodes to it; it completes at every state and x[rd] gets x[rs1] plus the sign-extended immediate (-2048 .. 2047)
modulo 2^32, with the frame of Computes. (R101.) -/
def Obligations.AddImmediate : Prop :=
  ∀ (s : State) (rd rs1 : RegId) (imm : BitVec 12),
    (decode (imm ++ rs1 ++ 0b000#3 ++ rd ++ 0b0010011#7) = .ok (.addi rd rs1 imm) ∧
      Computes (.addi rd rs1 imm) s rd (BitVec.ofInt 32 ((s.readReg rs1).toInt + imm.toInt)))

/-- The words of andi, ori, xori decode to them; each completes at every state and x[rd] gets the bitwise operation of x[rs1] and the
immediate, the immediate's bit 11 standing in bits 31:11, with the frame of Computes. (R104, R106, R108.) -/
def Obligations.LogicImmediate : Prop :=
  ∀ (s : State) (rd rs1 : RegId) (imm : BitVec 12),
    (decode (imm ++ rs1 ++ 0b111#3 ++ rd ++ 0b0010011#7) = .ok (.andi rd rs1 imm) ∧
      Computes (.andi rd rs1 imm) s rd (s.readReg rs1 &&& BitVec.ofInt 32 imm.toInt)) ∧
    (decode (imm ++ rs1 ++ 0b110#3 ++ rd ++ 0b0010011#7) = .ok (.ori rd rs1 imm) ∧
      Computes (.ori rd rs1 imm) s rd (s.readReg rs1 ||| BitVec.ofInt 32 imm.toInt)) ∧
    (decode (imm ++ rs1 ++ 0b100#3 ++ rd ++ 0b0010011#7) = .ok (.xori rd rs1 imm) ∧
      Computes (.xori rd rs1 imm) s rd (s.readReg rs1 ^^^ BitVec.ofInt 32 imm.toInt))

/-- The words of slti and sltiu decode to them; each completes at every state and x[rd] gets 1 if x[rs1] is less than the sign-
extended immediate, as signed values for slti, and as unsigned 32-bit values for sltiu (a negative immediate -k counting as 2^32 -
k), else 0, with the frame of Computes. (R111, R112.) -/
def Obligations.SetLessThanImmediate : Prop :=
  ∀ (s : State) (rd rs1 : RegId) (imm : BitVec 12),
    (decode (imm ++ rs1 ++ 0b010#3 ++ rd ++ 0b0010011#7) = .ok (.slti rd rs1 imm) ∧
      Computes (.slti rd rs1 imm) s rd (if (s.readReg rs1).toInt < imm.toInt then 1 else 0)) ∧
    (decode (imm ++ rs1 ++ 0b011#3 ++ rd ++ 0b0010011#7) = .ok (.sltiu rd rs1 imm) ∧
      Computes (.sltiu rd rs1 imm) s rd (if ((s.readReg rs1).toNat : Int) < imm.toInt % 2 ^ 32 then 1 else 0))

/-- The words of slli, srli, srai decode to them; each completes at every state and x[rd] gets x[rs1] times 2^shamt modulo 2^32, the
unsigned x[rs1] divided by 2^shamt, or the signed x[rs1] divided by 2^shamt rounding toward minus infinity, with the frame of
Computes. A step that fetches a word of the shift-immediate slots (opcode 0010011, funct3 001 or 101) with instruction bit 25 set
raises IllegalInstruction with that word. (R83, R114, R116, R118.) -/
def Obligations.ShiftImmediates : Prop :=
  ∀ (s : State) (rd rs1 : RegId) (shamt : BitVec 5),
    (decode (0b0000000#7 ++ shamt ++ rs1 ++ 0b001#3 ++ rd ++ 0b0010011#7) = .ok (.slli rd rs1 shamt) ∧
      Computes (.slli rd rs1 shamt) s rd (BitVec.ofNat 32 ((s.readReg rs1).toNat * 2 ^ shamt.toNat))) ∧
    (decode (0b0000000#7 ++ shamt ++ rs1 ++ 0b101#3 ++ rd ++ 0b0010011#7) = .ok (.srli rd rs1 shamt) ∧
      Computes (.srli rd rs1 shamt) s rd (BitVec.ofNat 32 ((s.readReg rs1).toNat / 2 ^ shamt.toNat))) ∧
    (decode (0b0100000#7 ++ shamt ++ rs1 ++ 0b101#3 ++ rd ++ 0b0010011#7) = .ok (.srai rd rs1 shamt) ∧
      Computes (.srai rd rs1 shamt) s rd (BitVec.ofInt 32 ((s.readReg rs1).toInt / 2 ^ shamt.toNat))) ∧
    (∀ w : Word, fetch s = .ok w → w.extractLsb' 0 7 = 0b0010011#7 → (w.extractLsb' 12 3 = 0b001#3 ∨ w.extractLsb' 12 3 = 0b101#3) →
      w.getLsbD 25 = true → step s = .fault (.illegalInstruction w))

/-- The words of lui and auipc decode to them; each completes at every state: x[rd] gets the 20-bit immediate times 4096 for lui, and
pc plus that modulo 2^32 for auipc, pc being the address of the auipc itself, with the frame of Computes. (R119, R120.) -/
def Obligations.UpperImmediates : Prop :=
  ∀ (s : State) (rd : RegId) (imm : BitVec 20),
    (decode (imm ++ rd ++ 0b0110111#7) = .ok (.lui rd imm) ∧
      Computes (.lui rd imm) s rd (BitVec.ofNat 32 (imm.toNat * 4096))) ∧
    (decode (imm ++ rd ++ 0b0010111#7) = .ok (.auipc rd imm) ∧
      Computes (.auipc rd imm) s rd (BitVec.ofNat 32 (s.pc.toNat + imm.toNat * 4096)))

/-- For every signed 21-bit even byte offset, the word of jal (offset bits 20, 10:1, 11, 19:12 from bit 31 down) decodes to it. With t
the sum of pc and the offset modulo 2^32: if t is a multiple of 4 it completes, x[rd] gets pc + 4 (x0 stays 0), pc becomes t and
nothing else changes; else it raises InstructionAddressMisaligned(t). (R131.) -/
def Obligations.JumpAndLink : Prop :=
  ∀ (s : State) (rd : RegId) (offset : BitVec 21),
    (offset.getLsbD 0 = false →
      decode (offset.extractLsb' 20 1 ++ offset.extractLsb' 1 10 ++ offset.extractLsb' 11 1 ++ offset.extractLsb' 12 8 ++ rd ++
        0b1101111#7) = .ok (.jal rd offset)) ∧
    Jumps (.jal rd offset) s rd (BitVec.ofInt 32 (s.pc.toNat + offset.toInt))

/-- The word of jalr decodes to it. With t the sum of the old x[rs1] and the sign-extended immediate modulo 2^32, bit 0 then cleared
(the even number at or just below the sum): if t is a multiple of 4 it completes, x[rd] gets pc + 4, pc becomes t and nothing else
changes, rd = rs1 included; else it raises InstructionAddressMisaligned(t). (R132.) -/
def Obligations.JumpAndLinkRegister : Prop :=
  ∀ (s : State) (rd rs1 : RegId) (imm : BitVec 12),
    decode (imm ++ rs1 ++ 0b000#3 ++ rd ++ 0b1100111#7) = .ok (.jalr rd rs1 imm) ∧
    Jumps (.jalr rd rs1 imm) s rd (BitVec.ofNat 32 ((BitVec.ofInt 32 ((s.readReg rs1).toInt + imm.toInt)).toNat / 2 * 2))

/-- beq branches when x[rs1] = x[rs2], bne when they differ. For every signed 13-bit even byte offset the words decode to the branches
(offset bits 12, 10:5, then 4:1, 11). Not taken, only pc changes, to pc + 4, whatever the offset; taken with a target that is a
multiple of 4, only pc changes, to pc plus the offset modulo 2^32; taken with another target, it raises
InstructionAddressMisaligned(target). (R135, R136.) -/
def Obligations.BranchOnEqual : Prop :=
  ∀ (s : State) (rs1 rs2 : RegId) (offset : BitVec 13),
    let t := BitVec.ofInt 32 (s.pc.toNat + offset.toInt)
    let word := fun funct3 : BitVec 3 => offset.extractLsb' 12 1 ++ offset.extractLsb' 5 6 ++ rs2 ++ rs1 ++ funct3 ++
      offset.extractLsb' 1 4 ++ offset.extractLsb' 11 1 ++ 0b1100011#7
    ((offset.getLsbD 0 = false → decode (word 0b000) = .ok (.beq rs1 rs2 offset)) ∧
      Branches (.beq rs1 rs2 offset) s (s.readReg rs1 = s.readReg rs2) t) ∧
    ((offset.getLsbD 0 = false → decode (word 0b001) = .ok (.bne rs1 rs2 offset)) ∧
      Branches (.bne rs1 rs2 offset) s (s.readReg rs1 ≠ s.readReg rs2) t)

/-- blt branches when x[rs1] < x[rs2] as signed values, bge when x[rs1] >= x[rs2] as signed values. For every signed 13-bit even byte
offset the words decode to the branches (offset bits 12, 10:5, then 4:1, 11). Not taken, only pc changes, to pc + 4, whatever the
offset; taken with a target that is a multiple of 4, only pc changes, to pc plus the offset modulo 2^32; taken with another
target, it raises InstructionAddressMisaligned(target). (R137, R138.) -/
def Obligations.BranchOnSignedOrder : Prop :=
  ∀ (s : State) (rs1 rs2 : RegId) (offset : BitVec 13),
    let t := BitVec.ofInt 32 (s.pc.toNat + offset.toInt)
    let word := fun funct3 : BitVec 3 => offset.extractLsb' 12 1 ++ offset.extractLsb' 5 6 ++ rs2 ++ rs1 ++ funct3 ++
      offset.extractLsb' 1 4 ++ offset.extractLsb' 11 1 ++ 0b1100011#7
    ((offset.getLsbD 0 = false → decode (word 0b100) = .ok (.blt rs1 rs2 offset)) ∧
      Branches (.blt rs1 rs2 offset) s ((s.readReg rs1).slt (s.readReg rs2) = true) t) ∧
    ((offset.getLsbD 0 = false → decode (word 0b101) = .ok (.bge rs1 rs2 offset)) ∧
      Branches (.bge rs1 rs2 offset) s ((s.readReg rs2).sle (s.readReg rs1) = true) t)

/-- bltu branches when x[rs1] < x[rs2] as unsigned values, bgeu when x[rs1] >= x[rs2] as unsigned values. For every signed 13-bit even
byte offset the words decode to the branches (offset bits 12, 10:5, then 4:1, 11). Not taken, only pc changes, to pc + 4, whatever
the offset; taken with a target that is a multiple of 4, only pc changes, to pc plus the offset modulo 2^32; taken with another
target, it raises InstructionAddressMisaligned(target). (R139, R140.) -/
def Obligations.BranchOnUnsignedOrder : Prop :=
  ∀ (s : State) (rs1 rs2 : RegId) (offset : BitVec 13),
    let t := BitVec.ofInt 32 (s.pc.toNat + offset.toInt)
    let word := fun funct3 : BitVec 3 => offset.extractLsb' 12 1 ++ offset.extractLsb' 5 6 ++ rs2 ++ rs1 ++ funct3 ++
      offset.extractLsb' 1 4 ++ offset.extractLsb' 11 1 ++ 0b1100011#7
    ((offset.getLsbD 0 = false → decode (word 0b110) = .ok (.bltu rs1 rs2 offset)) ∧
      Branches (.bltu rs1 rs2 offset) s ((s.readReg rs1).ult (s.readReg rs2) = true) t) ∧
    ((offset.getLsbD 0 = false → decode (word 0b111) = .ok (.bgeu rs1 rs2 offset)) ∧
      Branches (.bgeu rs1 rs2 offset) s ((s.readReg rs2).ule (s.readReg rs1) = true) t)

/-- The words of lb and lbu decode to them. x[rd] gets the byte at addr, its bit 7 repeated above it for lb, zeros above it for lbu.
The address is x[rs1] plus the sign-extended offset modulo 2^32. When it is a multiple of the width and every byte is backed the
load completes with the frame of Computes, rd = x0 and rd = rs1 included; when it is not a multiple it raises
LoadAddressMisaligned(addr); when it is and some byte is not backed, LoadAccessFault(addr). (R151, R152.) -/
def Obligations.LoadByte : Prop :=
  ∀ (s : State) (rd rs1 : RegId) (imm : BitVec 12),
    let addr := loadAddress s rs1 imm
    let byte := fun k : Nat => s.mem.get (addr.toNat + k)
    addr = BitVec.ofInt 32 ((s.readReg rs1).toInt + imm.toInt) ∧
    (decode (imm ++ rs1 ++ 0b000#3 ++ rd ++ 0b0000011#7) = .ok (.lb rd rs1 imm) ∧
      Loads (.lb rd rs1 imm) s rd addr 1 (BitVec.ofInt 32 (byte 0).toInt)) ∧
    (decode (imm ++ rs1 ++ 0b100#3 ++ rd ++ 0b0000011#7) = .ok (.lbu rd rs1 imm) ∧
      Loads (.lbu rd rs1 imm) s rd addr 1 (BitVec.ofNat 32 (byte 0).toNat))

/-- The words of lh and lhu decode to them. x[rd] gets the two bytes at addr and addr + 1, the second more significant, sign-extended
for lh and zero-extended for lhu. The address is x[rs1] plus the sign-extended offset modulo 2^32. When it is a multiple of the
width and every byte is backed the load completes with the frame of Computes, rd = x0 and rd = rs1 included; when it is not a
multiple it raises LoadAddressMisaligned(addr); when it is and some byte is not backed, LoadAccessFault(addr). (R153, R154.) -/
def Obligations.LoadHalfword : Prop :=
  ∀ (s : State) (rd rs1 : RegId) (imm : BitVec 12),
    let addr := loadAddress s rs1 imm
    let byte := fun k : Nat => s.mem.get (addr.toNat + k)
    addr = BitVec.ofInt 32 ((s.readReg rs1).toInt + imm.toInt) ∧
    (decode (imm ++ rs1 ++ 0b001#3 ++ rd ++ 0b0000011#7) = .ok (.lh rd rs1 imm) ∧
      Loads (.lh rd rs1 imm) s rd addr 2 (BitVec.ofInt 32 (byte 1 ++ byte 0).toInt)) ∧
    (decode (imm ++ rs1 ++ 0b101#3 ++ rd ++ 0b0000011#7) = .ok (.lhu rd rs1 imm) ∧
      Loads (.lhu rd rs1 imm) s rd addr 2 (BitVec.ofNat 32 (byte 1 ++ byte 0).toNat))

/-- The word of lw decodes to it. x[rd] gets the four bytes at addr .. addr + 3, the last most significant. The address is x[rs1] plus
the sign-extended offset modulo 2^32. When it is a multiple of the width and every byte is backed the load completes with the
frame of Computes, rd = x0 and rd = rs1 included; when it is not a multiple it raises LoadAddressMisaligned(addr); when it is and
some byte is not backed, LoadAccessFault(addr). (R155.) -/
def Obligations.LoadWord : Prop :=
  ∀ (s : State) (rd rs1 : RegId) (imm : BitVec 12),
    let addr := loadAddress s rs1 imm
    let byte := fun k : Nat => s.mem.get (addr.toNat + k)
    addr = BitVec.ofInt 32 ((s.readReg rs1).toInt + imm.toInt) ∧
    (decode (imm ++ rs1 ++ 0b010#3 ++ rd ++ 0b0000011#7) = .ok (.lw rd rs1 imm) ∧
      Loads (.lw rd rs1 imm) s rd addr 4 (byte 3 ++ byte 2 ++ byte 1 ++ byte 0))

/-- An lh or lhu raises LoadAddressMisaligned exactly when its effective address is odd, an lw exactly when it is not a multiple of 4,
an lb or lbu never. Each of the five raises LoadAccessFault exactly when its address is aligned and some byte of the access is not
backed. The info of either is the effective address; a load raises nothing else. (R215, R216.) -/
def Obligations.LoadExceptionsExactly : Prop :=
  ∀ (s : State) (rd rs1 : RegId) (imm : BitVec 12) (f : Fault),
    let addr := loadAddress s rs1 imm
    let raised := fun n : Nat => (addr.toNat % n ≠ 0 ∧ f = .loadAddressMisaligned addr) ∨
      (addr.toNat % n = 0 ∧ ¬AllBacked s addr.toNat n ∧ f = .loadAccessFault addr)
    (exec (.lb rd rs1 imm) s = .fault f ↔ ¬AllBacked s addr.toNat 1 ∧ f = .loadAccessFault addr) ∧
    (exec (.lbu rd rs1 imm) s = .fault f ↔ ¬AllBacked s addr.toNat 1 ∧ f = .loadAccessFault addr) ∧
    (exec (.lh rd rs1 imm) s = .fault f ↔ raised 2) ∧
    (exec (.lhu rd rs1 imm) s = .fault f ↔ raised 2) ∧
    (exec (.lw rd rs1 imm) s = .fault f ↔ raised 4)

/-- The words of sb, sh, sw decode to them. With addr = x[rs1] plus the sign-extended offset modulo 2^32: when addr is a multiple of
the width n (1, 2, 4) and the n bytes are backed, the store completes, byte k of x[rs2] is at addr + k for k below n, every byte
outside addr .. addr + n - 1 reads as before, no register changes, pc goes to pc + 4, the n addresses join StaleSet (or StaleSet
stays as it is when fetches are coherent), and nothing else changes. When addr is not a multiple it raises
StoreAddressMisaligned(addr); when it is and some byte is not backed, StoreAccessFault(addr). (R156, R157, R158, R159.) -/
def Obligations.StoresWriteTheLowBytes : Prop :=
  ∀ (s : State) (rs1 rs2 : RegId) (imm : BitVec 12),
    let word := fun funct3 : BitVec 3 => imm.extractLsb' 5 7 ++ rs2 ++ rs1 ++ funct3 ++ imm.extractLsb' 0 5 ++ 0b0100011#7
    storeAddress s rs1 imm = BitVec.ofInt 32 ((s.readReg rs1).toInt + imm.toInt) ∧
    (decode (word 0b000) = .ok (.sb rs2 rs1 imm) ∧ Stores (.sb rs2 rs1 imm) s (storeAddress s rs1 imm) 1 (s.readReg rs2)) ∧
    (decode (word 0b001) = .ok (.sh rs2 rs1 imm) ∧ Stores (.sh rs2 rs1 imm) s (storeAddress s rs1 imm) 2 (s.readReg rs2)) ∧
    (decode (word 0b010) = .ok (.sw rs2 rs1 imm) ∧ Stores (.sw rs2 rs1 imm) s (storeAddress s rs1 imm) 4 (s.readReg rs2))

/-- An sh raises StoreAddressMisaligned exactly when its effective address is odd, an sw exactly when it is not a multiple of 4, an sb
never. Each of the three raises StoreAccessFault exactly when its address is aligned and some byte of the access is not backed, a
partly backed access included. The info of either is the effective address; a store raises nothing else. A fault carries no next
state, so no byte and no member of StaleSet changes. (R217, R218.) -/
def Obligations.StoreExceptionsExactly : Prop :=
  ∀ (s : State) (rs1 rs2 : RegId) (imm : BitVec 12) (f : Fault),
    let addr := storeAddress s rs1 imm
    let raised := fun n : Nat => (addr.toNat % n ≠ 0 ∧ f = .storeAddressMisaligned addr) ∨
      (addr.toNat % n = 0 ∧ ¬AllBacked s addr.toNat n ∧ f = .storeAccessFault addr)
    (exec (.sb rs2 rs1 imm) s = .fault f ↔ ¬AllBacked s addr.toNat 1 ∧ f = .storeAccessFault addr) ∧
    (exec (.sh rs2 rs1 imm) s = .fault f ↔ raised 2) ∧
    (exec (.sw rs2 rs1 imm) s = .fault f ↔ raised 4)

/-- For every pred and succ, 0000 included, the word with 0000 in bits 31:28 and zero rs1 and rd fields decodes to fence, and fence
completes at every state changing only pc, to pc + 4: StaleSet stays as it is. A step that fetches a word with opcode 0001111 and
funct3 000 whose bits 31:28, 19:15 or 11:7 are not all zero raises IllegalInstruction with that word. (R170.) -/
def Obligations.FenceChangesOnlyPc : Prop :=
  ∀ (s : State) (pred succ : BitVec 4),
    decode (0b0000#4 ++ pred ++ succ ++ 0b00000#5 ++ 0b000#3 ++ 0b00000#5 ++ 0b0001111#7) = .ok (.fence pred succ) ∧
    OnlyPc (.fence pred succ) s (s.pc + 4) ∧
    (∀ w : Word, fetch s = .ok w → w.extractLsb' 0 7 = 0b0001111#7 → w.extractLsb' 12 3 = 0b000#3 →
      (w.extractLsb' 28 4 ≠ 0 ∨ w.extractLsb' 15 5 ≠ 0 ∨ w.extractLsb' 7 5 ≠ 0) → step s = .fault (.illegalInstruction w))

/-- 0x0000100F decodes to fence.i, which completes at every state: StaleSet becomes empty, pc goes to pc + 4, and no register, no byte
of memory and nothing else changes. A step that fetches any other word with opcode 0001111 and funct3 001 raises
IllegalInstruction with that word. (R171.) -/
def Obligations.FenceIEmptiesStaleSet : Prop :=
  ∀ s : State,
    decode 0x0000100F = .ok .fenceI ∧
    (∃ t, exec .fenceI s = .next t ∧ SameRegs s t ∧ t.pc = s.pc + 4 ∧ t.stale = [] ∧ (∀ a, t.mem.get a = s.mem.get a) ∧
      t.csrs = s.csrs ∧ t.config = s.config) ∧
    (∀ w : Word, fetch s = .ok w → w.extractLsb' 0 7 = 0b0001111#7 → w.extractLsb' 12 3 = 0b001#3 → w ≠ 0x0000100F →
      step s = .fault (.illegalInstruction w))

/-- 0x00000073 decodes to ecall and 0x00100073 to ebreak. At every state ecall raises EnvironmentCall with info 0, and ebreak raises
Breakpoint with info pc; no other instruction raises either, so there is no other breakpoint source. (R172, R173, R214, R219.) -/
def Obligations.EnvironmentCallAndBreakpointStop : Prop :=
  decode 0x00000073 = .ok .ecall ∧ decode 0x00100073 = .ok .ebreak ∧
  (∀ s : State, exec .ecall s = .fault (.environmentCall 0) ∧ exec .ebreak s = .fault (.breakpoint s.pc)) ∧
  (∀ (s : State) (i : Instr) (w : Word),
    (exec i s = .fault (.environmentCall w) → i = .ecall) ∧ (exec i s = .fault (.breakpoint w) → i = .ebreak))

/-- The words of the six CSR instructions (csr in bits 31:20, rs1 or zimm in bits 19:15) decode to them. If the CSR is not in CSRFile
each raises IllegalInstruction with the instruction's own word; so does each that would write a read-only CSR: csrrw and csrrwi
always, the other four when the register number rs1, or zimm, is not 0. After reset CSRFile is empty, so there every CSR
instruction raises. (43_system.md section 3, R174, 10_state.md section 4, R27.) -/
def Obligations.CsrAbsentOrReadOnlyIsIllegal : Prop :=
  ∀ (s : State) (rd src : RegId) (csr : CsrAddr),
    let word := fun funct3 : BitVec 3 => csr ++ src ++ funct3 ++ rd ++ 0b1110011#7
    State.reset.findCsr csr = none ∧
    let illegal := fun (i : Instr) (funct3 : BitVec 3) (writes : Prop) =>
      decode (word funct3) = .ok i ∧
      (s.findCsr csr = none → exec i s = .fault (.illegalInstruction (word funct3))) ∧
      (∀ c, s.findCsr csr = some c → c.readOnly = true → writes → exec i s = .fault (.illegalInstruction (word funct3)))
    illegal (.csrrw rd csr src) 0b001 (True) ∧
    illegal (.csrrs rd csr src) 0b010 (src ≠ 0) ∧
    illegal (.csrrc rd csr src) 0b011 (src ≠ 0) ∧
    illegal (.csrrwi rd csr src) 0b101 (True) ∧
    illegal (.csrrsi rd csr src) 0b110 (src ≠ 0) ∧
    illegal (.csrrci rd csr src) 0b111 (src ≠ 0)

/-- On an implemented CSR that is not read-only, csrrw and csrrwi complete: the CSR holds what its write function makes of x[rs1] (the
old x[rs1], rd = rs1 included) or of the zero-extended zimm; x[rd] gets the value read, unless rd is x0, when the CSR is not read.
The read function, what a read leaves, and the write function of a CSR are constants of Config without a body (the model's choice,
log 5), so this holds of every such functions. (43_system.md section 3, R174, R175, R178.) -/
def Obligations.CsrReadAndWrite : Prop :=
  ∀ (s : State) (rd src : RegId) (csr : CsrAddr) (c : Csr), s.findCsr csr = some c → c.readOnly = false →
    let held := if rd = 0 then c.value else Config.csrAfterRead csr c.value
    let read := Config.csrRead csr c.value
    AccessesCsr (.csrrw rd csr src) s rd csr c read (Config.csrWrite csr held (s.readReg src)) ∧
    AccessesCsr (.csrrwi rd csr src) s rd csr c read (Config.csrWrite csr held (BitVec.ofNat 32 src.toNat))

/-- On an implemented CSR these four complete when rs1 (the register number) or zimm is 0, even on a read-only CSR, which is then read
and not written, and when the CSR is not read-only: x[rd] gets the value read, and the CSR is written with that value with the
bits of x[rs1] or zimm set (csrrs, csrrsi) or cleared (csrrc, csrrci). The read function, what a read leaves, and the write
function of a CSR are constants of Config without a body (the model's choice, log 5), so this holds of every such functions.
(43_system.md section 3, R174, R176, R177, R179, R180.) -/
def Obligations.CsrSetAndClearBits : Prop :=
  ∀ (s : State) (rd src : RegId) (csr : CsrAddr) (c : Csr), s.findCsr csr = some c →
    let held := Config.csrAfterRead csr c.value
    let read := Config.csrRead csr c.value
    let imm := BitVec.ofNat 32 src.toNat
    (src = 0 →
      AccessesCsr (.csrrs rd csr src) s rd csr c read held ∧ AccessesCsr (.csrrc rd csr src) s rd csr c read held ∧
      AccessesCsr (.csrrsi rd csr src) s rd csr c read held ∧ AccessesCsr (.csrrci rd csr src) s rd csr c read held) ∧
    (src ≠ 0 → c.readOnly = false →
      AccessesCsr (.csrrs rd csr src) s rd csr c read (Config.csrWrite csr held (read ||| s.readReg src)) ∧
      AccessesCsr (.csrrc rd csr src) s rd csr c read (Config.csrWrite csr held (read &&& ~~~s.readReg src)) ∧
      AccessesCsr (.csrrsi rd csr src) s rd csr c read (Config.csrWrite csr held (read ||| imm)) ∧
      AccessesCsr (.csrrci rd csr src) s rd csr c read (Config.csrWrite csr held (read &&& ~~~imm)))

/-- The word of mul decodes to it; it completes at every state and x[rd] gets the product of the signed values modulo 2^32, which is
also the product of the unsigned values modulo 2^32, with the frame of Computes. (R191.) -/
def Obligations.MultiplyLowWord : Prop :=
  ∀ (s : State) (rd rs1 rs2 : RegId),
    (decode (0b0000001#7 ++ rs2 ++ rs1 ++ 0b000#3 ++ rd ++ 0b0110011#7) = .ok (.mul rd rs1 rs2) ∧
      Computes (.mul rd rs1 rs2) s rd (BitVec.ofInt 32 ((s.readReg rs1).toInt * (s.readReg rs2).toInt))) ∧
    BitVec.ofInt 32 ((s.readReg rs1).toInt * (s.readReg rs2).toInt) = BitVec.ofNat 32 ((s.readReg rs1).toNat * (s.readReg rs2).toNat)

/-- The words of mulh, mulhu, mulhsu decode to them; each completes at every state and x[rd] gets bits 63:32 of the 64-bit product of
x[rs1] and x[rs2], both sign-extended to 64 bits for mulh, both zero-extended for mulhu, x[rs1] sign-extended and x[rs2] zero-
extended for mulhsu, with the frame of Computes. (R192, R193, R194.) -/
def Obligations.MultiplyHighWord : Prop :=
  ∀ (s : State) (rd rs1 rs2 : RegId),
    (decode (0b0000001#7 ++ rs2 ++ rs1 ++ 0b001#3 ++ rd ++ 0b0110011#7) = .ok (.mulh rd rs1 rs2) ∧
      Computes (.mulh rd rs1 rs2) s rd (((s.readReg rs1).signExtend 64 * (s.readReg rs2).signExtend 64).extractLsb' 32 32)) ∧
    (decode (0b0000001#7 ++ rs2 ++ rs1 ++ 0b011#3 ++ rd ++ 0b0110011#7) = .ok (.mulhu rd rs1 rs2) ∧
      Computes (.mulhu rd rs1 rs2) s rd (((s.readReg rs1).zeroExtend 64 * (s.readReg rs2).zeroExtend 64).extractLsb' 32 32)) ∧
    (decode (0b0000001#7 ++ rs2 ++ rs1 ++ 0b010#3 ++ rd ++ 0b0110011#7) = .ok (.mulhsu rd rs1 rs2) ∧
      Computes (.mulhsu rd rs1 rs2) s rd (((s.readReg rs1).signExtend 64 * (s.readReg rs2).zeroExtend 64).extractLsb' 32 32))

/-- The words of div and rem decode to them; each completes at every state, without a trap. If x[rs2] is 0, div gives 0xFFFFFFFF and
rem gives x[rs1]; else if x[rs1] is 0x80000000 and x[rs2] is 0xFFFFFFFF, div gives 0x80000000 and rem gives 0; else div gives the
signed quotient rounded toward zero and rem the remainder, which has the sign of the dividend, with the frame of Computes. (R195,
R197.) -/
def Obligations.SignedDivision : Prop :=
  ∀ (s : State) (rd rs1 rs2 : RegId),
    (decode (0b0000001#7 ++ rs2 ++ rs1 ++ 0b100#3 ++ rd ++ 0b0110011#7) = .ok (.div rd rs1 rs2) ∧
      Computes (.div rd rs1 rs2) s rd (if s.readReg rs2 = 0 then 0xFFFFFFFF
        else if s.readReg rs1 = 0x80000000 ∧ s.readReg rs2 = 0xFFFFFFFF then 0x80000000
        else BitVec.ofInt 32 ((s.readReg rs1).toInt.tdiv (s.readReg rs2).toInt))) ∧
    (decode (0b0000001#7 ++ rs2 ++ rs1 ++ 0b110#3 ++ rd ++ 0b0110011#7) = .ok (.rem rd rs1 rs2) ∧
      Computes (.rem rd rs1 rs2) s rd (if s.readReg rs2 = 0 then s.readReg rs1
        else if s.readReg rs1 = 0x80000000 ∧ s.readReg rs2 = 0xFFFFFFFF then 0
        else BitVec.ofInt 32 ((s.readReg rs1).toInt.tmod (s.readReg rs2).toInt)))

/-- The words of divu and remu decode to them; each completes at every state, without a trap. If x[rs2] is 0, divu gives 0xFFFFFFFF
and remu gives x[rs1] (the spec's decision D21); else they give the unsigned quotient and remainder, with the frame of Computes.
(R196, R198.) -/
def Obligations.UnsignedDivision : Prop :=
  ∀ (s : State) (rd rs1 rs2 : RegId),
    (decode (0b0000001#7 ++ rs2 ++ rs1 ++ 0b101#3 ++ rd ++ 0b0110011#7) = .ok (.divu rd rs1 rs2) ∧
      Computes (.divu rd rs1 rs2) s rd (if s.readReg rs2 = 0 then 0xFFFFFFFF else s.readReg rs1 / s.readReg rs2)) ∧
    (decode (0b0000001#7 ++ rs2 ++ rs1 ++ 0b111#3 ++ rd ++ 0b0110011#7) = .ok (.remu rd rs1 rs2) ∧
      Computes (.remu rd rs1 rs2) s rd (if s.readReg rs2 = 0 then s.readReg rs1 else s.readReg rs1 % s.readReg rs2))

/-- At one state, with q what div writes and r what rem writes (or divu and remu), x[rs1] = q * x[rs2] + r modulo 2^32, for a zero
divisor and in the overflow case too. The spec's sentence: 'for every pair with a non-zero divisor outside the overflow case,
x[rs1] = div * x[rs2] + rem (mod 2^32), and the same identity holds in the overflow case ... and for a zero divisor'. (44_rv32m.md
section 3, R195 to R198.) -/
def Obligations.QuotientTimesDivisorPlusRemainder : Prop :=
  ∀ (s t u t' u' : State) (rd rs1 rs2 : RegId), rd ≠ 0 →
    exec (.div rd rs1 rs2) s = .next t → exec (.rem rd rs1 rs2) s = .next u →
    exec (.divu rd rs1 rs2) s = .next t' → exec (.remu rd rs1 rs2) s = .next u' →
    s.readReg rs1 = t.readReg rd * s.readReg rs2 + u.readReg rd ∧
    s.readReg rs1 = t'.readReg rd * s.readReg rs2 + u'.readReg rd

/-- An instruction that is not a store and answers a next state leaves memory as it was. (20_memory.md section 1, R40, 10_state.md
R21.) -/
def Obligations.OnlyStoresWriteMemory : Prop :=
  ∀ (i : Instr) (s t : State), isStore i = false → exec i s = .next t → t.mem = s.mem ∧ ∀ a, t.mem.get a = s.mem.get a

/-- An instruction that is not a control transfer and answers a next state leaves pc at pc + 4 modulo 2^32; a branch that answers one
leaves it at pc + 4 or at its target. The spec marks R25 as derived. (10_state.md section 2, R24, R25.) -/
def Obligations.OnlyTransfersSetPc : Prop :=
  ∀ (i : Instr) (s t : State), exec i s = .next t →
    (isTransfer i = false → t.pc = s.pc + 4) ∧
    (∀ rs1 rs2 offset, (i = .beq rs1 rs2 offset ∨ i = .bne rs1 rs2 offset ∨ i = .blt rs1 rs2 offset ∨ i = .bge rs1 rs2 offset ∨
        i = .bltu rs1 rs2 offset ∨ i = .bgeu rs1 rs2 offset) → t.pc = s.pc + 4 ∨ t.pc = branchTarget s offset)

/-- If an instruction answers a next state, every register but the one its rd field names reads as before, and none changes where the
format has no rd field; x0 reads 0 before and after. (10_state.md section 1, R20, R21.) -/
def Obligations.OnlyTheDestinationRegisterChanges : Prop :=
  ∀ (i : Instr) (s t : State), exec i s = .next t →
    (∀ r, destination i ≠ some r → t.readReg r = s.readReg r) ∧ s.readReg 0 = 0 ∧ t.readReg 0 = 0

/-- If an instruction answers a next state: fence.i leaves StaleSet empty, an instruction that is neither a store nor fence.i leaves
it as it was, and a store keeps every member of it. (10_state.md section 7, R30, 20_memory.md R54.) -/
def Obligations.OnlyStoresAndFenceITouchStaleSet : Prop :=
  ∀ (i : Instr) (s t : State), exec i s = .next t →
    (i = .fenceI → t.stale = []) ∧
    (isStore i = false → i ≠ .fenceI → t.stale = s.stale) ∧
    (isStore i = true → ∀ a, a ∈ s.stale → a ∈ t.stale)

/-- If an instruction answers a next state, the implemented CSR addresses and which of them are read-only are as before, no read-only
CSR is changed by more than a read, an instruction that is no CSR instruction leaves every CSR as it was, and the memory map and
the coherence parameter are as before. That a read may leave another value behind is the model's choice (log 5). (10_state.md
section 4, R27, 00_scope.md R3.) -/
def Obligations.CsrFileKeepsItsShape : Prop :=
  ∀ (i : Instr) (s t : State), exec i s = .next t →
    t.csrs.map (fun c => (c.addr, c.readOnly)) = s.csrs.map (fun c => (c.addr, c.readOnly)) ∧
    (isCsr i = false → t.csrs = s.csrs) ∧
    (∀ a c, s.findCsr a = some c → c.readOnly = true →
      t.findCsr a = some c ∨ t.findCsr a = some { c with value := Config.csrAfterRead a c.value }) ∧
    t.config = s.config

/-- An instruction that raises, raises an exception whose cause code R222 lists for it; add to remu, the shifts, lui, auipc, fence and
fence.i never raise; no instruction refuses; and an instruction never raises a fetch exception (code 1, or StaleFetch, which has
no code). (60_exceptions.md section 2, R222, 60_exceptions.md R224.) -/
def Obligations.InstructionsRaiseOnlyTheirCodes : Prop :=
  ∀ (i : Instr) (s : State),
    (∀ f, exec i s = .fault f → ∃ n ∈ raisableCodes i, f.code = some n) ∧ (∀ r, exec i s ≠ .refused r)

/-- The reset state meets State.Inv, at the values the model chose for the open parameters (log 1 to log 4), and so does the reset
state at any valid parameters. The spec's conjuncts of the invariant: pc is a multiple of 4 (R240, R25), only backed bytes have a
value (R242), StaleSet is empty (R243). The model's own choices in it, which no rule states: the canonical form of memory (log 3),
StaleSet as a rising list (log 11), CSR addresses in rising order (log 17). A valid reset asks of the parameters what R240 and
R242 ask, and as the model's choice the canonical form (log 3) and the CSR order (log 17). (70_reset_and_hazards.md section 1,
R240, R242, R243.) -/
def Obligations.ResetMeetsTheInvariant : Prop :=
  State.reset.Inv ∧ ∀ p : ResetParams, p.Valid → (State.resetFrom p).Inv

/-- For every state that meets State.Inv, reachable or not, a step that answers a next state gives one that meets it. The spec's
conjuncts of the invariant: pc is a multiple of 4 (R25), memory lists and StaleSet holds backed bytes only (R44), StaleSet is
empty when fetches are coherent (R54). The model's own choices in it, which no rule states: the canonical form of memory (log 3),
StaleSet as a rising list (log 11), CSR addresses in rising order (log 17). (10_state.md R25, R30, 20_memory.md R44, R54,
70_reset_and_hazards.md R240.) -/
def Obligations.EveryStepKeepsTheInvariant : Prop :=
  ∀ s t : State, s.Inv → step s = .next t → t.Inv

/-- Whatever the valid reset parameters (registers, program image, memory map, CSRs, coherence), after any number of steps that all
answer a next state the invariant holds; in particular pc is a multiple of 4 (R25), and StaleSet is empty if fetches are coherent
(R54). The model's own choices in it, which no rule states: the canonical form of memory (log 3), StaleSet as a rising list (log
11), CSR addresses in rising order (log 17). Valid parameters have the first and the last of these forms, by the same choice.
(10_state.md R25, 70_reset_and_hazards.md R240.) -/
def Obligations.EveryReachableStateKeepsTheInvariant : Prop :=
  ∀ (p : ResetParams) (n : Nat) (t : State), p.Valid → Sys2Proof.core.run n (State.resetFrom p) = .next t →
    t.Inv ∧ t.pc.toNat % 4 = 0 ∧ (p.config.ifetchCoherent = true → t.stale = [])

/-- After reset StaleSet is empty and CSRFile is empty; at whatever parameters the machine is reset, StaleSet is empty. After any
number of steps from there that all answer a next state, call a byte stored when one of those steps performed an instruction that
stores to it: a byte that is not stored is not in StaleSet and still reads as InitMem gives it. So when none of the four bytes at
pc is stored (in a run without a store none ever is), the next step does not raise StaleFetch, and if pc is a multiple of 4 and
the bytes are backed, it fetches the word of the program image, whether or not a fence.i was performed. (R243.) -/
def Obligations.ResetLeavesStaleSetAndCsrFileEmpty : Prop :=
  State.reset.stale = [] ∧ State.reset.csrs = [] ∧
  ∀ p : ResetParams, (State.resetFrom p).stale = [] ∧
    ∀ (n : Nat) (t : State), Sys2Proof.core.run n (State.resetFrom p) = .next t →
      let image := fun a : Nat => p.initMem.get a
      (∀ a, ¬StoredWithin p n a → a ∉ t.stale ∧ t.mem.get a = image a) ∧
      ((∀ k, k < 4 → ¬StoredWithin p n (t.pc.toNat + k)) →
        (∀ w, step t ≠ .fault (.staleFetch w)) ∧
        (t.pc.toNat % 4 = 0 → AllBacked t t.pc.toNat 4 →
          fetch t = .ok (image (t.pc.toNat + 3) ++ image (t.pc.toNat + 2) ++ image (t.pc.toNat + 1) ++ image t.pc.toNat)))

/-- At every state x0 reads 0 and writing it changes nothing. For every instruction i that writes a register, let j be i with x0 in
its rd field: j completes exactly when i does, and then j writes no register and leaves pc, memory, StaleSet and the parameters as
i leaves them, and the CSRs too, but that csrrw and csrrwi with rd = x0 do not read the CSR (R175, R178), so that it holds what
its write function makes of the value it held (R27; that this function is a constant without a body, of the address, the value
held and the value written, is the model's choice, log 5) and every other CSR is as i leaves it; j raises exactly when i does and
the same exception with the same info, the info of a CSR instruction being its own word (R213). The spec's sentence: 'An
instruction with rd = x0 still performs every other effect of its rule (memory access, exceptions, change of pc).' (10_state.md
section 1, R21, 10_state.md section 4, R27, 43_system.md section 3, R174, R175, R178.) -/
def Obligations.ZeroRegisterReadsZeroAndDiscards : Prop :=
  ∀ s : State, s.readReg 0 = 0 ∧ (∀ v, s.writeReg 0 v = s) ∧
    ∀ (i : Instr) (rd : RegId), destination i = some rd →
      let j := withDestination i 0
      let swaps := fun (csr : CsrAddr) (v : Word) =>
        ∃ src, (i = .csrrw rd csr src ∧ v = s.readReg src) ∨ (i = .csrrwi rd csr src ∧ v = BitVec.ofNat 32 src.toNat)
      (∀ t, exec i s = .next t → ∃ u, exec j s = .next u ∧ u.regs = s.regs ∧ u.pc = t.pc ∧ u.mem = t.mem ∧
        u.stale = t.stale ∧ u.config = t.config ∧
        ((∀ csr v, ¬swaps csr v) → u.csrs = t.csrs) ∧
        (∀ csr v, swaps csr v →
          (∀ c, s.findCsr csr = some c → u.findCsr csr = some { c with value := Config.csrWrite csr c.value v }) ∧
          ∀ a, a ≠ csr → u.findCsr a = t.findCsr a)) ∧
      (∀ u, exec j s = .next u → ∃ t, exec i s = .next t) ∧
      (∀ f, exec i s = .fault f → exec j s = .fault (if isCsr i then .illegalInstruction (encode j) else f)) ∧
      (isCsr i = true → ∀ f, exec i s = .fault f → f = .illegalInstruction (encode i)) ∧
      (∀ g, exec j s = .fault g → ∃ f, exec i s = .fault f)

/-- After sw of v at the address in x[rs1], lbu at offsets 0 to 3 gives bits 7:0, 15:8, 23:16, 31:24 of v, lhu at offsets 0 and 2
gives bits 15:0 and 31:16, and lw gives v. Fetch sees the same bytes: after fence.i, a fetch there gives v. (R42.) -/
def Obligations.StoredWordReadsLittleEndian : Prop :=
  ∀ (s t : State) (rs1 rs2 rd : RegId), rd ≠ 0 → exec (.sw rs2 rs1 0) s = .next t →
    (∀ k, k < 4 → ∃ u, exec (.lbu rd rs1 (BitVec.ofNat 12 k)) t = .next u ∧
      u.readReg rd = ((s.readReg rs2).extractLsb' (8 * k) 8).zeroExtend 32) ∧
    (∀ k, k < 2 → ∃ u, exec (.lhu rd rs1 (BitVec.ofNat 12 (2 * k))) t = .next u ∧
      u.readReg rd = ((s.readReg rs2).extractLsb' (16 * k) 16).zeroExtend 32) ∧
    (∃ u, exec (.lw rd rs1 0) t = .next u ∧ u.readReg rd = s.readReg rs2) ∧
    (∃ u, exec .fenceI t = .next u ∧ fetch (u.setPc (s.readReg rs1)) = .ok (s.readReg rs2))

/-- Let a store of any width complete, and p be a multiple of 4 whose four bytes are backed and overlap the bytes stored. When fetches
are not coherent, the bytes stored are in StaleSet, a step with pc at p raises StaleFetch(p), and still does after a fence; after
fence.i StaleSet is empty and the fetch at p gives the bytes memory holds after the store. When fetches are coherent, StaleSet is
as it was, and from a state that meets the invariant the fetch at p gives those bytes at once. Reset leaves nothing stale, so the
program image is not stale. (R54, R247.) -/
def Obligations.StoredCodeNeedsFenceI : Prop :=
  (∀ p, (State.resetFrom p).stale = []) ∧
  ∀ (s t : State) (i : Instr) (p : Word), exec i s = .next t → p.toNat % 4 = 0 → AllBacked s p.toNat 4 →
    (∃ k, k < 4 ∧ storesTo i s (p.toNat + k)) →
    let word := t.mem.get (p.toNat + 3) ++ t.mem.get (p.toNat + 2) ++ t.mem.get (p.toNat + 1) ++ t.mem.get p.toNat
    (s.config.ifetchCoherent = false →
      (∀ a, storesTo i s a → a ∈ t.stale) ∧
      step (t.setPc p) = .fault (.staleFetch p) ∧
      (∀ pred succ, ∃ u, exec (.fence pred succ) t = .next u ∧ step (u.setPc p) = .fault (.staleFetch p))) ∧
    (∃ u, exec .fenceI t = .next u ∧ u.stale = [] ∧ fetch (u.setPc p) = .ok word) ∧
    (s.config.ifetchCoherent = true → t.stale = s.stale ∧ (s.Inv → fetch (t.setPc p) = .ok word))

/-- Writing a byte is seen at its address and at no other (R49). The other two clauses are of the canonical form of the memory list,
which is the model's choice and stands in no rule (log 3): a write keeps it, and two memories in it whose every byte reads alike
are the same list, so that the list is no more than a function from addresses to bytes. (20_memory.md sections 4 and 6, R49, R52.) -/
def Obligations.BytesReadAsLastWritten : Prop :=
  (∀ (m : Memory) (a b : Nat) (v : Byte), (m.set a v).get b = if b = a then v else m.get b) ∧
  (∀ (m : Memory) (a : Nat) (v : Byte), m.wf = true → a < 2 ^ 32 → (m.set a v).wf = true) ∧
  (∀ m m' : Memory, m.wf = true → m'.wf = true → (∀ a, m.get a = m'.get a) → m = m')

/-- For every C and every rd but x0, lui of C[31:12] + C[11] (modulo 2^20) and then addi of C[11:0] leave C in x[rd]. The spec marks
R122 as derived: 'the two parts are lo = sext_12(C[11:0]) ... and hi ... which equals C[31:12] + C[11] modulo 2^20.'
(40_integer_computational.md section 5, R122, 40_integer_computational.md R101, R119.) -/
def Obligations.LuiAddiBuildsAnyConstant : Prop :=
  ∀ (s : State) (rd : RegId) (C : Word), rd ≠ 0 →
    let lo := C.extractLsb' 0 12
    let hi := C.extractLsb' 12 20 + (C.extractLsb' 11 1).zeroExtend 20
    ∃ t u, exec (.lui rd hi) s = .next t ∧ exec (.addi rd rd lo) t = .next u ∧ u.readReg rd = C

/-- For every target that is a multiple of 4 and every rd but x0, lui of the high part and then jalr through rd with the low part end
with pc at the target and the address after the jalr in x[rd]; the parts split as for lui and addi. The spec marks R141 as
derived. (41_control_transfer.md section 2, R141, 41_control_transfer.md R132.) -/
def Obligations.LuiJalrReachesAnyAddress : Prop :=
  ∀ (s : State) (rd : RegId) (target : Word), rd ≠ 0 → target.toNat % 4 = 0 →
    let lo := target.extractLsb' 0 12
    let hi := target.extractLsb' 12 20 + (target.extractLsb' 11 1).zeroExtend 20
    ∃ t u, exec (.lui rd hi) s = .next t ∧ exec (.jalr rd rd lo) t = .next u ∧ u.pc = target ∧ u.readReg rd = s.pc + 8

/-- After add t0,t1,t2 with t0 neither x0 nor t1, sltu t3,t0,t1 leaves 1 in t3 exactly when the unsigned sum is 2^32 or more. The spec
marks the idiom as derived. (40_integer_computational.md section 5, R121.) -/
def Obligations.CarryOutBySetLessThan : Prop :=
  ∀ (s t u : State) (t0 t1 t2 t3 : RegId), t0 ≠ 0 → t0 ≠ t1 → t3 ≠ 0 →
    exec (.add t0 t1 t2) s = .next t → exec (.sltu t3 t0 t1) t = .next u →
    u.readReg t3 = if (s.readReg t1).toNat + (s.readReg t2).toNat < 2 ^ 32 then 0 else 1

/-- bge rs2,rs1 branches exactly as a branch on signed x[rs1] <= x[rs2] would (ble), blt rs2,rs1 on x[rs1] > x[rs2] (bgt), bgeu
rs2,rs1 on unsigned <= (bleu), bltu rs2,rs1 on unsigned > (bgtu); against x0, beq is branch-if-zero and blt is branch-if-negative.
(30_encoding.md section 6, R87, 41_control_transfer.md R134.) -/
def Obligations.SwappedBranchesMeanTheReverseOrder : Prop :=
  ∀ (s : State) (rs1 rs2 : RegId) (offset : BitVec 13),
    let t := branchTarget s offset
    Branches (.bge rs2 rs1 offset) s ((s.readReg rs1).toInt ≤ (s.readReg rs2).toInt) t ∧
    Branches (.blt rs2 rs1 offset) s ((s.readReg rs1).toInt > (s.readReg rs2).toInt) t ∧
    Branches (.bgeu rs2 rs1 offset) s ((s.readReg rs1).toNat ≤ (s.readReg rs2).toNat) t ∧
    Branches (.bltu rs2 rs1 offset) s ((s.readReg rs1).toNat > (s.readReg rs2).toNat) t ∧
    Branches (.beq rs1 0 offset) s (s.readReg rs1 = 0) t ∧
    Branches (.blt rs1 0 offset) s ((s.readReg rs1).msb = true) t

/-- At every state, after withFetchWord 32 w the next fetch gives exactly w modulo 2^32, and registers, CSRs and the coherence
parameter are as before; when the pc is a multiple of 4, the four bytes are backed and not stale, only those four bytes change.
How a program is placed is the model's choice (log 7). (00_scope.md section 4, R10, 70_reset_and_hazards.md R242.) -/
def Obligations.PlacedWordIsTheNextInstruction : Prop :=
  ∀ (s : State) (w : Nat),
    fetch (s.withFetchWord 32 w) = .ok (BitVec.ofNat 32 w) ∧
    (s.withFetchWord 32 w).regs = s.regs ∧ (s.withFetchWord 32 w).csrs = s.csrs ∧
    (s.withFetchWord 32 w).config.ifetchCoherent = s.config.ifetchCoherent ∧
    (s.pc.toNat % 4 = 0 → AllBacked s s.pc.toNat 4 → (∀ k, k < 4 → s.pc.toNat + k ∉ s.stale) →
      (s.withFetchWord 32 w).pc = s.pc ∧ (s.withFetchWord 32 w).stale = s.stale ∧ (s.withFetchWord 32 w).config = s.config ∧
      ∀ a, a < s.pc.toNat ∨ s.pc.toNat + 4 ≤ a → (s.withFetchWord 32 w).mem.get a = s.mem.get a)
end

