-- ==== Sys2Proof/Laws/State.lean ====
section
/-! SUPPORT. One lemma per field per update of the state, and what a register read sees after each update. -/

namespace Sys2Proof.Machine

/-! ## setPc and advance -/

@[simp] theorem State.setPc_pc (s : State) (t : Word) : (s.setPc t).pc = t := rfl
@[simp] theorem State.setPc_regs (s : State) (t : Word) : (s.setPc t).regs = s.regs := rfl
@[simp] theorem State.setPc_mem (s : State) (t : Word) : (s.setPc t).mem = s.mem := rfl
@[simp] theorem State.setPc_stale (s : State) (t : Word) : (s.setPc t).stale = s.stale := rfl
@[simp] theorem State.setPc_csrs (s : State) (t : Word) : (s.setPc t).csrs = s.csrs := rfl
@[simp] theorem State.setPc_config (s : State) (t : Word) : (s.setPc t).config = s.config := rfl
@[simp] theorem State.setPc_readReg (s : State) (t : Word) (r : RegId) : (s.setPc t).readReg r = s.readReg r := rfl
@[simp] theorem State.setPc_findCsr (s : State) (t : Word) (a : CsrAddr) : (s.setPc t).findCsr a = s.findCsr a := rfl

@[simp] theorem State.advance_pc (s : State) : s.advance.pc = s.pc + 4 := rfl
@[simp] theorem State.advance_regs (s : State) : s.advance.regs = s.regs := rfl
@[simp] theorem State.advance_mem (s : State) : s.advance.mem = s.mem := rfl
@[simp] theorem State.advance_stale (s : State) : s.advance.stale = s.stale := rfl
@[simp] theorem State.advance_csrs (s : State) : s.advance.csrs = s.csrs := rfl
@[simp] theorem State.advance_config (s : State) : s.advance.config = s.config := rfl
@[simp] theorem State.advance_readReg (s : State) (r : RegId) : s.advance.readReg r = s.readReg r := rfl
@[simp] theorem State.advance_findCsr (s : State) (a : CsrAddr) : s.advance.findCsr a = s.findCsr a := rfl

/-! ## writeReg -/

@[simp] theorem State.writeReg_zero (s : State) (v : Word) : s.writeReg 0 v = s := rfl

@[simp] theorem State.writeReg_pc (s : State) (r : RegId) (v : Word) : (s.writeReg r v).pc = s.pc := by
  unfold State.writeReg; split <;> rfl
@[simp] theorem State.writeReg_mem (s : State) (r : RegId) (v : Word) : (s.writeReg r v).mem = s.mem := by
  unfold State.writeReg; split <;> rfl
@[simp] theorem State.writeReg_stale (s : State) (r : RegId) (v : Word) : (s.writeReg r v).stale = s.stale := by
  unfold State.writeReg; split <;> rfl
@[simp] theorem State.writeReg_csrs (s : State) (r : RegId) (v : Word) : (s.writeReg r v).csrs = s.csrs := by
  unfold State.writeReg; split <;> rfl
@[simp] theorem State.writeReg_config (s : State) (r : RegId) (v : Word) : (s.writeReg r v).config = s.config := by
  unfold State.writeReg; split <;> rfl
@[simp] theorem State.writeReg_findCsr (s : State) (r : RegId) (v : Word) (a : CsrAddr) :
    (s.writeReg r v).findCsr a = s.findCsr a := by
  unfold State.findCsr; rw [State.writeReg_csrs]

/-- `x0` reads 0 (R21). -/
@[simp] theorem State.readReg_zero (s : State) : s.readReg 0 = 0 := rfl

/-- What a register reads after a write (R7, R21). -/
theorem State.readReg_writeReg (s : State) (r q : RegId) (v : Word) :
    (s.writeReg r v).readReg q = if q = 0 then 0 else if q = r then v else s.readReg q := by
  by_cases hq : q = 0
  · subst hq; rfl
  by_cases hr : r = 0
  · subst hr
    rw [State.writeReg_zero, if_neg hq]
    exact (if_neg hq).symm
  · have hq' : q.toNat ≠ 0 := fun h => hq (BitVec.eq_of_toNat_eq h)
    have hr' : r.toNat ≠ 0 := fun h => hr (BitVec.eq_of_toNat_eq h)
    simp only [State.readReg, State.writeReg, hq, hr, if_false]
    rw [Vector.getElem_set]
    by_cases h : q = r
    · subst h; simp
    · have : r.toNat - 1 ≠ q.toNat - 1 := fun e => h (BitVec.eq_of_toNat_eq (by omega))
      simp [this, h]

/-- The register just written, when it is not `x0`. -/
theorem State.readReg_writeReg_self (s : State) (r : RegId) (v : Word) (h : r ≠ 0) : (s.writeReg r v).readReg r = v := by
  rw [State.readReg_writeReg, if_neg h, if_pos rfl]

/-- Any other register. -/
theorem State.readReg_writeReg_of_ne (s : State) (r q : RegId) (v : Word) (h : q ≠ r) :
    (s.writeReg r v).readReg q = s.readReg q := by
  rw [State.readReg_writeReg, if_neg h]
  split
  · next hq => subst hq; rfl
  · rfl

/-! ## setCsr -/

@[simp] theorem State.setCsr_pc (s : State) (a : CsrAddr) (v : Word) : (s.setCsr a v).pc = s.pc := rfl
@[simp] theorem State.setCsr_regs (s : State) (a : CsrAddr) (v : Word) : (s.setCsr a v).regs = s.regs := rfl
@[simp] theorem State.setCsr_mem (s : State) (a : CsrAddr) (v : Word) : (s.setCsr a v).mem = s.mem := rfl
@[simp] theorem State.setCsr_stale (s : State) (a : CsrAddr) (v : Word) : (s.setCsr a v).stale = s.stale := rfl
@[simp] theorem State.setCsr_config (s : State) (a : CsrAddr) (v : Word) : (s.setCsr a v).config = s.config := rfl
@[simp] theorem State.setCsr_readReg (s : State) (a : CsrAddr) (v : Word) (r : RegId) :
    (s.setCsr a v).readReg r = s.readReg r := rfl

/-! ## Reset -/

@[simp] theorem State.resetFrom_pc (p : ResetParams) : (State.resetFrom p).pc = p.resetPc := rfl
@[simp] theorem State.resetFrom_regs (p : ResetParams) : (State.resetFrom p).regs = p.initRegs := rfl
@[simp] theorem State.resetFrom_mem (p : ResetParams) : (State.resetFrom p).mem = p.initMem := rfl
@[simp] theorem State.resetFrom_stale (p : ResetParams) : (State.resetFrom p).stale = [] := rfl
@[simp] theorem State.resetFrom_csrs (p : ResetParams) : (State.resetFrom p).csrs = p.csrFile := rfl
@[simp] theorem State.resetFrom_config (p : ResetParams) : (State.resetFrom p).config = p.config := rfl

end Sys2Proof.Machine
end

