-- ==== Sys2Proof/Laws/Memory.lean ====
section
/-! SUPPORT. Memory and StaleSet: what a byte reads as after a write, that every memory operation keeps the canonical form, which
addresses a range of bytes covers, and the byte order. -/

namespace Sys2Proof.Machine

/-! ## One byte -/

theorem Memory.get_erase (m : Memory) (a b : Nat) : (m.erase a).get b = if b = a then unlistedByte else m.get b := by
  induction m with
  | nil => simp [Memory.erase, Memory.get]
  | cons c m ih =>
    unfold Memory.erase at ih ⊢
    by_cases h : c.1 = a
    · simp only [List.filter_cons, h, bne_self_eq_false, Bool.false_eq_true, if_false, ih, Memory.get]
      by_cases hb : b = a
      · simp [hb]
      · simp [hb, Ne.symm hb]
    · have h' : (c.1 != a) = true := by simpa using h
      simp only [List.filter_cons, h', if_true, Memory.get, ih]
      by_cases hb : b = a
      · subst hb; simp [h]
      · simp [hb]

theorem Memory.get_insert (m : Memory) (a b : Nat) (v : Byte) (h : ∀ c ∈ m, c.1 ≠ a) :
    (m.insert a v).get b = if b = a then v else m.get b := by
  induction m with
  | nil => simp [Memory.insert, Memory.get, eq_comm]
  | cons c m ih =>
    have ih := ih fun d hd => h d (List.mem_cons_of_mem _ hd)
    have hc := h c (List.mem_cons_self ..)
    unfold Memory.insert
    by_cases hb : b = a
    · subst hb
      split <;> simp [Memory.get, ih, hc]
    · have hb' : ¬a = b := fun e => hb e.symm
      split <;> simp [Memory.get, ih, hb, hb']

theorem Memory.ne_of_mem_erase {m : Memory} {a : Nat} {c : Host.Cell} (h : c ∈ m.erase a) : c.1 ≠ a := by
  simpa using (List.mem_filter.mp h).2

/-- Read after write of one byte, in any memory: its own address gives the byte written, every other address is left alone. -/
theorem Memory.get_set (m : Memory) (a b : Nat) (v : Byte) : (m.set a v).get b = if b = a then v else m.get b := by
  unfold Memory.set
  split
  · next h => rw [Memory.get_erase, h]
  · rw [Memory.get_insert _ _ _ _ fun c hc => Memory.ne_of_mem_erase hc, Memory.get_erase]
    by_cases hb : b = a <;> simp [hb]

/-! ## The canonical form -/

theorem rising_iff_pairwise (l : List Nat) : rising l = true ↔ l.Pairwise (· < ·) := by
  induction l with
  | nil => simp [rising]
  | cons a l ih =>
    cases l with
    | nil => simp [rising]
    | cons b l =>
      rw [rising, Bool.and_eq_true, ih, decide_eq_true_iff, List.pairwise_cons (a := a)]
      constructor
      · rintro ⟨hab, hp⟩
        refine ⟨fun c hc => ?_, hp⟩
        rcases List.mem_cons.mp hc with rfl | hc
        · exact hab
        · exact Nat.lt_trans hab ((List.pairwise_cons.mp hp).1 c hc)
      · rintro ⟨h, hp⟩
        exact ⟨h b (List.mem_cons_self ..), hp⟩

/-- The canonical form as a proposition. -/
theorem Memory.wf_iff (m : Memory) :
    m.wf = true ↔ (m.map Prod.fst).Pairwise (· < ·) ∧ ∀ c ∈ m, c.1 < 2 ^ 32 ∧ c.2 ≠ unlistedByte := by
  simp only [Memory.wf, Bool.and_eq_true, rising_iff_pairwise, List.all_eq_true, decide_eq_true_iff, bne_iff_ne, ne_eq]

theorem Memory.mem_insert (m : Memory) (a : Nat) (v : Byte) (c : Host.Cell) : c ∈ m.insert a v ↔ c = (a, v) ∨ c ∈ m := by
  induction m with
  | nil => simp [Memory.insert]
  | cons d m ih =>
    unfold Memory.insert
    split
    · simp
    · simp only [List.mem_cons, ih]; tauto

theorem Memory.pairwise_insert (m : Memory) (a : Nat) (v : Byte) (hm : (m.map Prod.fst).Pairwise (· < ·)) (h : ∀ c ∈ m, c.1 ≠ a) :
    ((m.insert a v).map Prod.fst).Pairwise (· < ·) := by
  induction m with
  | nil => simp [Memory.insert]
  | cons d m ih =>
    simp only [List.map_cons, List.pairwise_cons] at hm
    unfold Memory.insert
    split
    · next hlt =>
      simp only [List.map_cons, List.pairwise_cons, List.mem_cons, forall_eq_or_imp]
      exact ⟨⟨hlt, fun x hx => Nat.lt_trans hlt (hm.1 x hx)⟩, hm⟩
    · next hge =>
      simp only [List.map_cons, List.pairwise_cons]
      refine ⟨fun x hx => ?_, ih hm.2 fun c hc => h c (List.mem_cons_of_mem _ hc)⟩
      obtain ⟨c, hc, rfl⟩ := List.mem_map.mp hx
      rcases (Memory.mem_insert m a v c).mp hc with rfl | hc
      · exact Nat.lt_of_le_of_ne (Nat.le_of_not_lt hge) (h d (List.mem_cons_self ..))
      · exact hm.1 _ (List.mem_map.mpr ⟨c, hc, rfl⟩)

/-- Every pair listed after a write was listed before or is the pair written. -/
theorem Memory.mem_set {m : Memory} {a : Nat} {v : Byte} {c : Host.Cell} (h : c ∈ m.set a v) :
    c ∈ m ∨ (c = (a, v) ∧ v ≠ unlistedByte) := by
  unfold Memory.set at h
  split at h
  · exact .inl (List.mem_of_mem_filter h)
  · next hv =>
    rcases (Memory.mem_insert _ _ _ _).mp h with h | h
    · exact .inr ⟨h, hv⟩
    · exact .inl (List.mem_of_mem_filter h)

/-- Writing a byte keeps the canonical form. -/
theorem Memory.wf_set {m : Memory} {a : Nat} {v : Byte} (hm : m.wf = true) (ha : a < 2 ^ 32) : (m.set a v).wf = true := by
  rw [Memory.wf_iff] at hm ⊢
  refine ⟨?_, fun c hc => ?_⟩
  · have herase : ((m.erase a).map Prod.fst).Pairwise (· < ·) := hm.1.sublist (List.filter_sublist.map _)
    unfold Memory.set
    split
    · exact herase
    · exact Memory.pairwise_insert _ _ _ herase fun c hc => Memory.ne_of_mem_erase hc
  · rcases Memory.mem_set hc with h | ⟨rfl, hv⟩
    · exact hm.2 c h
    · exact ⟨ha, hv⟩

/-- The memory after reset is in canonical form: it lists nothing (log 3). -/
theorem State.reset_mem_wf : State.reset.mem.wf = true := rfl

/-! ## Several bytes -/

/-- What a byte reads as after a run of bytes is written. -/
theorem Memory.get_setBytes (bs : List Byte) (m : Memory) (a b : Nat) :
    (m.setBytes a bs).get b = if h : a ≤ b ∧ b < a + bs.length then bs[b - a]'(by omega) else m.get b := by
  induction bs generalizing m a with
  | nil =>
    have : ¬(a ≤ b ∧ b < a + ([] : List Byte).length) := by simp
    rw [dif_neg this]; rfl
  | cons v bs ih =>
    rw [Memory.setBytes, ih, Memory.get_set]
    by_cases hb : b = a
    · subst hb; simp
    · by_cases h1 : a + 1 ≤ b ∧ b < a + 1 + bs.length
      · have h2 : a ≤ b ∧ b < a + (v :: bs).length := by simp only [List.length_cons]; omega
        rw [dif_pos h1, dif_pos h2]
        have : b - a = b - (a + 1) + 1 := by omega
        simp only [this, List.getElem_cons_succ]
      · have h2 : ¬(a ≤ b ∧ b < a + (v :: bs).length) := by simp only [List.length_cons]; omega
        rw [dif_neg h1, dif_neg h2, if_neg hb]

/-- Writing bytes below 2^32 keeps the canonical form. -/
theorem Memory.wf_setBytes {bs : List Byte} {m : Memory} {a : Nat} (hm : m.wf = true) (ha : a + bs.length ≤ 2 ^ 32) :
    (m.setBytes a bs).wf = true := by
  induction bs generalizing m a with
  | nil => exact hm
  | cons v bs ih =>
    simp only [List.length_cons] at ha
    exact ih (Memory.wf_set hm (by omega)) (by omega)

/-- Every pair listed after bytes are written was listed before or lies among them. -/
theorem Memory.mem_setBytes {bs : List Byte} {m : Memory} {a : Nat} {c : Host.Cell} (h : c ∈ m.setBytes a bs) :
    c ∈ m ∨ (a ≤ c.1 ∧ c.1 < a + bs.length) := by
  induction bs generalizing m a with
  | nil => exact .inl h
  | cons v bs ih =>
    simp only [List.length_cons]
    rcases ih h with h | h
    · rcases Memory.mem_set h with h | ⟨rfl, _⟩
      · exact .inl h
      · exact .inr (by simp)
    · exact .inr (by omega)

/-! ## StaleSet -/

theorem mem_addStale (l : List Nat) (a b : Nat) : b ∈ addStale l a ↔ b = a ∨ b ∈ l := by
  induction l with
  | nil => simp [addStale]
  | cons c l ih =>
    unfold addStale
    split
    · simp
    · split
      · next h => subst h; simp
      · simp only [List.mem_cons, ih]; tauto

theorem mem_addStaleRange (n : Nat) (l : List Nat) (a b : Nat) :
    b ∈ addStaleRange l a n ↔ b ∈ l ∨ (a ≤ b ∧ b < a + n) := by
  induction n generalizing l a with
  | zero => simp [addStaleRange]
  | succ n ih =>
    rw [addStaleRange, ih, mem_addStale]
    constructor
    · rintro ((rfl | h) | h)
      · exact .inr (by omega)
      · exact .inl h
      · exact .inr (by omega)
    · rintro (h | h)
      · exact .inl (.inr h)
      · by_cases e : b = a
        · exact .inl (.inl e)
        · exact .inr (by omega)

theorem rising_addStale {l : List Nat} (a : Nat) (h : rising l = true) : rising (addStale l a) = true := by
  rw [rising_iff_pairwise] at h ⊢
  induction l with
  | nil => simp [addStale]
  | cons c l ih =>
    rw [List.pairwise_cons] at h
    unfold addStale
    split
    · next hlt =>
      simp only [List.pairwise_cons, List.mem_cons, forall_eq_or_imp]
      exact ⟨⟨hlt, fun x hx => Nat.lt_trans hlt (h.1 x hx)⟩, h⟩
    · next hge =>
      split
      · exact List.pairwise_cons.mpr h
      · next hne =>
        refine List.pairwise_cons.mpr ⟨fun x hx => ?_, ih h.2⟩
        rcases (mem_addStale l a x).mp hx with rfl | hx
        · omega
        · exact h.1 x hx

theorem rising_addStaleRange (n : Nat) {l : List Nat} (a : Nat) (h : rising l = true) : rising (addStaleRange l a n) = true := by
  induction n generalizing l a with
  | zero => exact h
  | succ n ih => exact ih _ (rising_addStale a h)

/-! ## Ranges -/

theorem backedRange_iff (c : Config) (a n : Nat) : backedRange c a n = true ↔ ∀ k, k < n → backed c (a + k) = true := by
  induction n generalizing a with
  | zero => simp [backedRange]
  | succ n ih =>
    rw [backedRange, Bool.and_eq_true, ih]
    constructor
    · rintro ⟨h0, h⟩ k hk
      cases k with
      | zero => exact h0
      | succ k => have := h k (by omega); rwa [Nat.add_assoc, Nat.add_comm 1 k] at this
    · intro h
      refine ⟨h 0 (by omega), fun k hk => ?_⟩
      have := h (k + 1) (by omega)
      rwa [Nat.add_assoc, Nat.add_comm 1 k]

theorem staleRange_iff (s : State) (a n : Nat) : s.staleRange a n = true ↔ ∃ k, k < n ∧ a + k ∈ s.stale := by
  induction n generalizing a with
  | zero => simp [State.staleRange]
  | succ n ih =>
    rw [State.staleRange, Bool.or_eq_true, ih]
    simp only [List.contains_iff_mem]
    constructor
    · rintro (h | ⟨k, hk, h⟩)
      · exact ⟨0, by omega, h⟩
      · exact ⟨k + 1, by omega, by rwa [Nat.add_comm k 1, ← Nat.add_assoc]⟩
    · rintro ⟨k, hk, h⟩
      cases k with
      | zero => exact .inl h
      | succ k => exact .inr ⟨k, by omega, by rwa [Nat.add_comm k 1, ← Nat.add_assoc] at h⟩

/-! ## Byte order (R42) -/

@[simp] theorem length_toBytesLE (n v : Nat) : (toBytesLE n v).length = n := by
  induction n generalizing v with
  | zero => rfl
  | succ n ih => simp [toBytesLE, ih]

theorem getElem_toBytesLE (n v k : Nat) (h : k < (toBytesLE n v).length) :
    (toBytesLE n v)[k] = BitVec.ofNat 8 (v / 256 ^ k) := by
  induction n generalizing v k with
  | zero => simp [toBytesLE] at h
  | succ n ih =>
    cases k with
    | zero => simp [toBytesLE]
    | succ k =>
      simp only [toBytesLE, List.getElem_cons_succ]
      rw [ih, Nat.div_div_eq_div_mul, Nat.pow_succ, Nat.mul_comm 256]

/-- A byte below another in one number: appending is shifting up and adding. -/
theorem toNat_append_add {m n : Nat} (x : BitVec m) (y : BitVec n) : (x ++ y).toNat = x.toNat * 2 ^ n + y.toNat := by
  rw [BitVec.toNat_append, ← Nat.shiftLeft_add_eq_or_of_lt y.isLt, Nat.shiftLeft_eq]

/-- One byte. -/
theorem ofBytesLE_one (b0 : Byte) : BitVec.ofNat 8 (ofBytesLE [b0]) = b0 := by
  simp [ofBytesLE]

/-- Two bytes make the halfword whose more significant byte is the second. -/
theorem ofBytesLE_two (b0 b1 : Byte) : BitVec.ofNat 16 (ofBytesLE [b0, b1]) = b1 ++ b0 := by
  apply BitVec.eq_of_toNat_eq
  have h0 := b0.isLt
  have h1 := b1.isLt
  simp only [ofBytesLE, BitVec.toNat_ofNat, toNat_append_add]
  omega

/-- Four bytes make the word whose most significant byte is the last. -/
theorem ofBytesLE_four (b0 b1 b2 b3 : Byte) : BitVec.ofNat 32 (ofBytesLE [b0, b1, b2, b3]) = b3 ++ b2 ++ b1 ++ b0 := by
  apply BitVec.eq_of_toNat_eq
  have h0 := b0.isLt
  have h1 := b1.isLt
  have h2 := b2.isLt
  have h3 := b3.isLt
  simp only [ofBytesLE, BitVec.toNat_ofNat, toNat_append_add]
  omega

/-- Byte `k` of a value is its bits `8k + 7 .. 8k`. -/
theorem getElem_toBytesLE_toNat {w : Nat} (n : Nat) (v : BitVec w) (k : Nat) (h : k < (toBytesLE n v.toNat).length) :
    (toBytesLE n v.toNat)[k] = v.extractLsb' (8 * k) 8 := by
  rw [getElem_toBytesLE]
  apply BitVec.eq_of_toNat_eq
  simp [BitVec.extractLsb'_toNat, Nat.shiftRight_eq_div_pow, Nat.pow_mul]

end Sys2Proof.Machine
end

