-- ==== Sys2Proof/Laws/Decode.lean ====
section
/-! SUPPORT. The six encodings (R71 to R77): what each field of an encoded word reads as, what the row's mask leaves of it, and that a
word is the encoding of its own fields. -/

namespace Sys2Proof

/-- A field of a number that is a concatenation, as arithmetic. -/
theorem extractLsb'_toNat_div {w : Nat} (x : BitVec w) (start len : Nat) :
    (x.extractLsb' start len).toNat = x.toNat / 2 ^ start % 2 ^ len := by
  rw [BitVec.extractLsb'_toNat, Nat.shiftRight_eq_div_pow]

/-! ## The R format -/

/-- Every field of an encoded word, from bit 31 down. -/
theorem encR_parts (funct7 : BitVec 7) (rs2 rs1 : BitVec 5) (funct3 : BitVec 3) (rd : BitVec 5) (opcode : BitVec 7) :
    (encR funct7 rs2 rs1 funct3 rd opcode).extractLsb' 25 7 = funct7 ∧
    (encR funct7 rs2 rs1 funct3 rd opcode).extractLsb' 20 5 = rs2 ∧
    (encR funct7 rs2 rs1 funct3 rd opcode).extractLsb' 15 5 = rs1 ∧
    (encR funct7 rs2 rs1 funct3 rd opcode).extractLsb' 12 3 = funct3 ∧
    (encR funct7 rs2 rs1 funct3 rd opcode).extractLsb' 7 5 = rd ∧
    (encR funct7 rs2 rs1 funct3 rd opcode).extractLsb' 0 7 = opcode := by
  simp only [encR]
  refine ⟨?_, ?_, ?_, ?_, ?_, ?_⟩ <;>
  · apply BitVec.eq_of_toNat_eq
    simp only [extractLsb'_toNat_div, Machine.toNat_append_add]
    omega

/-- The mask of an R-type row keeps exactly the fixed fields. -/
theorem maskR_iff (w m : Word) (hm : m &&& 0xFE00707F = m) : w &&& 0xFE00707F = m ↔ w.extractLsb' 25 7 = m.extractLsb' 25 7 ∧ w.extractLsb' 12 3 = m.extractLsb' 12 3 ∧ w.extractLsb' 0 7 = m.extractLsb' 0 7 := by
  constructor
  · rintro rfl
    refine ⟨?_, ?_, ?_⟩ <;>
    · apply BitVec.eq_of_getLsbD_eq
      intro i hi
      interval_cases i <;> simp
  · rintro ⟨h0, h1, h2⟩
    apply BitVec.eq_of_getLsbD_eq
    intro i hi
    have bm := congrArg (BitVec.getLsbD · i) hm
    simp only [BitVec.getLsbD_and] at bm
    rw [BitVec.getLsbD_and, ← bm]
    clear hm bm
    have b0 := congrArg (BitVec.getLsbD · (i - 25)) h0
    have b1 := congrArg (BitVec.getLsbD · (i - 12)) h1
    have b2 := congrArg (BitVec.getLsbD · (i - 0)) h2
    simp only [BitVec.getLsbD_extractLsb'] at b0 b1 b2
    clear h0 h1 h2
    interval_cases i <;> simp_all

/-! ## The I format -/

/-- Every field of an encoded word, from bit 31 down. -/
theorem encI_parts (imm : BitVec 12) (rs1 : BitVec 5) (funct3 : BitVec 3) (rd : BitVec 5) (opcode : BitVec 7) :
    (encI imm rs1 funct3 rd opcode).extractLsb' 20 12 = imm ∧
    (encI imm rs1 funct3 rd opcode).extractLsb' 15 5 = rs1 ∧
    (encI imm rs1 funct3 rd opcode).extractLsb' 12 3 = funct3 ∧
    (encI imm rs1 funct3 rd opcode).extractLsb' 7 5 = rd ∧
    (encI imm rs1 funct3 rd opcode).extractLsb' 0 7 = opcode := by
  simp only [encI]
  refine ⟨?_, ?_, ?_, ?_, ?_⟩ <;>
  · apply BitVec.eq_of_toNat_eq
    simp only [extractLsb'_toNat_div, Machine.toNat_append_add]
    omega

/-- The mask of an I-type row keeps exactly the fixed fields. -/
theorem maskI_iff (w m : Word) (hm : m &&& 0x0000707F = m) : w &&& 0x0000707F = m ↔ w.extractLsb' 12 3 = m.extractLsb' 12 3 ∧ w.extractLsb' 0 7 = m.extractLsb' 0 7 := by
  constructor
  · rintro rfl
    refine ⟨?_, ?_⟩ <;>
    · apply BitVec.eq_of_getLsbD_eq
      intro i hi
      interval_cases i <;> simp
  · rintro ⟨h0, h1⟩
    apply BitVec.eq_of_getLsbD_eq
    intro i hi
    have bm := congrArg (BitVec.getLsbD · i) hm
    simp only [BitVec.getLsbD_and] at bm
    rw [BitVec.getLsbD_and, ← bm]
    clear hm bm
    have b0 := congrArg (BitVec.getLsbD · (i - 12)) h0
    have b1 := congrArg (BitVec.getLsbD · (i - 0)) h1
    simp only [BitVec.getLsbD_extractLsb'] at b0 b1
    clear h0 h1
    interval_cases i <;> simp_all

/-! ## The S format -/

/-- Every field of an encoded word, from bit 31 down. -/
theorem encS_parts (imm : BitVec 12) (rs2 rs1 : BitVec 5) (funct3 : BitVec 3) (opcode : BitVec 7) :
    (encS imm rs2 rs1 funct3 opcode).extractLsb' 25 7 = imm.extractLsb' 5 7 ∧
    (encS imm rs2 rs1 funct3 opcode).extractLsb' 20 5 = rs2 ∧
    (encS imm rs2 rs1 funct3 opcode).extractLsb' 15 5 = rs1 ∧
    (encS imm rs2 rs1 funct3 opcode).extractLsb' 12 3 = funct3 ∧
    (encS imm rs2 rs1 funct3 opcode).extractLsb' 7 5 = imm.extractLsb' 0 5 ∧
    (encS imm rs2 rs1 funct3 opcode).extractLsb' 0 7 = opcode := by
  simp only [encS]
  generalize imm.extractLsb' 5 7 = part0
  generalize imm.extractLsb' 0 5 = part1
  refine ⟨?_, ?_, ?_, ?_, ?_, ?_⟩ <;>
  · apply BitVec.eq_of_toNat_eq
    simp only [extractLsb'_toNat_div, Machine.toNat_append_add]
    omega

/-! ## The B format -/

/-- Every field of an encoded word, from bit 31 down. -/
theorem encB_parts (offset : BitVec 13) (rs2 rs1 : BitVec 5) (funct3 : BitVec 3) (opcode : BitVec 7) :
    (encB offset rs2 rs1 funct3 opcode).extractLsb' 31 1 = offset.extractLsb' 12 1 ∧
    (encB offset rs2 rs1 funct3 opcode).extractLsb' 25 6 = offset.extractLsb' 5 6 ∧
    (encB offset rs2 rs1 funct3 opcode).extractLsb' 20 5 = rs2 ∧
    (encB offset rs2 rs1 funct3 opcode).extractLsb' 15 5 = rs1 ∧
    (encB offset rs2 rs1 funct3 opcode).extractLsb' 12 3 = funct3 ∧
    (encB offset rs2 rs1 funct3 opcode).extractLsb' 8 4 = offset.extractLsb' 1 4 ∧
    (encB offset rs2 rs1 funct3 opcode).extractLsb' 7 1 = offset.extractLsb' 11 1 ∧
    (encB offset rs2 rs1 funct3 opcode).extractLsb' 0 7 = opcode := by
  simp only [encB]
  generalize offset.extractLsb' 12 1 = part0
  generalize offset.extractLsb' 5 6 = part1
  generalize offset.extractLsb' 1 4 = part2
  generalize offset.extractLsb' 11 1 = part3
  refine ⟨?_, ?_, ?_, ?_, ?_, ?_, ?_, ?_⟩ <;>
  · apply BitVec.eq_of_toNat_eq
    simp only [extractLsb'_toNat_div, Machine.toNat_append_add]
    omega

/-! ## The U format -/

/-- Every field of an encoded word, from bit 31 down. -/
theorem encU_parts (imm : BitVec 20) (rd : BitVec 5) (opcode : BitVec 7) :
    (encU imm rd opcode).extractLsb' 12 20 = imm ∧
    (encU imm rd opcode).extractLsb' 7 5 = rd ∧
    (encU imm rd opcode).extractLsb' 0 7 = opcode := by
  simp only [encU]
  refine ⟨?_, ?_, ?_⟩ <;>
  · apply BitVec.eq_of_toNat_eq
    simp only [extractLsb'_toNat_div, Machine.toNat_append_add]
    omega

/-- The mask of a U-type row keeps exactly the fixed fields. -/
theorem maskU_iff (w m : Word) (hm : m &&& 0x0000007F = m) : w &&& 0x0000007F = m ↔ w.extractLsb' 0 7 = m.extractLsb' 0 7 := by
  constructor
  · rintro rfl
    apply BitVec.eq_of_getLsbD_eq
    intro i hi
    interval_cases i <;> simp
  · intro h
    apply BitVec.eq_of_getLsbD_eq
    intro i hi
    have bm := congrArg (BitVec.getLsbD · i) hm
    simp only [BitVec.getLsbD_and] at bm
    rw [BitVec.getLsbD_and, ← bm]
    clear hm bm
    have b0 := congrArg (BitVec.getLsbD · (i - 0)) h
    simp only [BitVec.getLsbD_extractLsb'] at b0
    clear h
    interval_cases i <;> simp_all

/-! ## The J format -/

/-- Every field of an encoded word, from bit 31 down. -/
theorem encJ_parts (offset : BitVec 21) (rd : BitVec 5) (opcode : BitVec 7) :
    (encJ offset rd opcode).extractLsb' 31 1 = offset.extractLsb' 20 1 ∧
    (encJ offset rd opcode).extractLsb' 21 10 = offset.extractLsb' 1 10 ∧
    (encJ offset rd opcode).extractLsb' 20 1 = offset.extractLsb' 11 1 ∧
    (encJ offset rd opcode).extractLsb' 12 8 = offset.extractLsb' 12 8 ∧
    (encJ offset rd opcode).extractLsb' 7 5 = rd ∧
    (encJ offset rd opcode).extractLsb' 0 7 = opcode := by
  simp only [encJ]
  generalize offset.extractLsb' 20 1 = part0
  generalize offset.extractLsb' 1 10 = part1
  generalize offset.extractLsb' 11 1 = part2
  generalize offset.extractLsb' 12 8 = part3
  refine ⟨?_, ?_, ?_, ?_, ?_, ?_⟩ <;>
  · apply BitVec.eq_of_toNat_eq
    simp only [extractLsb'_toNat_div, Machine.toNat_append_add]
    omega

/-! ## The immediates that an encoding scatters (R79) -/

theorem fieldImmS_encS (imm : BitVec 12) (rs2 rs1 : BitVec 5) (funct3 : BitVec 3) (opcode : BitVec 7) :
    fieldImmS (encS imm rs2 rs1 funct3 opcode) = imm := by
  obtain ⟨h1, -, -, -, h2, -⟩ := encS_parts imm rs2 rs1 funct3 opcode
  rw [fieldImmS, h1, h2]
  apply BitVec.eq_of_toNat_eq
  simp only [Machine.toNat_append_add, extractLsb'_toNat_div]
  omega

/-- A bit of an offset that no encoding holds is 0 in every even offset. -/
theorem toNat_mod_two {n : Nat} {x : BitVec n} (h : x.getLsbD 0 = false) : x.toNat % 2 = 0 := by
  rw [BitVec.getLsbD, Nat.testBit_zero] at h
  simpa using h

theorem fieldImmB_encB (offset : BitVec 13) (rs2 rs1 : BitVec 5) (funct3 : BitVec 3) (opcode : BitVec 7)
    (h : offset.getLsbD 0 = false) : fieldImmB (encB offset rs2 rs1 funct3 opcode) = offset := by
  obtain ⟨h1, h2, -, -, -, h3, h4, -⟩ := encB_parts offset rs2 rs1 funct3 opcode
  rw [fieldImmB, h1, h2, h3, h4]
  have := toNat_mod_two h
  apply BitVec.eq_of_toNat_eq
  simp only [Machine.toNat_append_add, extractLsb'_toNat_div, BitVec.toNat_ofNat]
  omega

theorem fieldImmJ_encJ (offset : BitVec 21) (rd : BitVec 5) (opcode : BitVec 7) (h : offset.getLsbD 0 = false) :
    fieldImmJ (encJ offset rd opcode) = offset := by
  obtain ⟨h1, h2, h3, h4, -, -⟩ := encJ_parts offset rd opcode
  rw [fieldImmJ, h1, h2, h3, h4]
  have := toNat_mod_two h
  apply BitVec.eq_of_toNat_eq
  simp only [Machine.toNat_append_add, extractLsb'_toNat_div, BitVec.toNat_ofNat]
  omega

theorem fieldImmB_even (w : Word) : (fieldImmB w).getLsbD 0 = false := by
  unfold fieldImmB
  rw [BitVec.getLsbD, Machine.toNat_append_add, Nat.testBit_zero]
  simp only [BitVec.toNat_ofNat]
  simp

theorem fieldImmJ_even (w : Word) : (fieldImmJ w).getLsbD 0 = false := by
  unfold fieldImmJ
  rw [BitVec.getLsbD, Machine.toNat_append_add, Nat.testBit_zero]
  simp only [BitVec.toNat_ofNat]
  simp

/-! ## A word is the encoding of its own fields -/

theorem encR_fields (w : Word) :
    encR (w.extractLsb' 25 7) (fieldRs2 w) (fieldRs1 w) (w.extractLsb' 12 3) (fieldRd w) (fieldOpcode w) = w := by
  apply BitVec.eq_of_toNat_eq
  simp only [encR, fieldRs2, fieldRs1, fieldRd, fieldOpcode, extractLsb'_toNat_div, Machine.toNat_append_add]
  omega

theorem encI_fields (w : Word) : encI (fieldImmI w) (fieldRs1 w) (w.extractLsb' 12 3) (fieldRd w) (fieldOpcode w) = w := by
  apply BitVec.eq_of_toNat_eq
  simp only [encI, fieldImmI, fieldRs1, fieldRd, fieldOpcode, extractLsb'_toNat_div, Machine.toNat_append_add]
  omega

theorem encU_fields (w : Word) : encU (fieldImmU w) (fieldRd w) (fieldOpcode w) = w := by
  apply BitVec.eq_of_toNat_eq
  simp only [encU, fieldImmU, fieldRd, fieldOpcode, extractLsb'_toNat_div, Machine.toNat_append_add]
  omega

theorem encS_fields (w : Word) : encS (fieldImmS w) (fieldRs2 w) (fieldRs1 w) (w.extractLsb' 12 3) (fieldOpcode w) = w := by
  have h1 : (fieldImmS w).extractLsb' 5 7 = w.extractLsb' 25 7 := by
    apply BitVec.eq_of_toNat_eq
    simp only [fieldImmS, extractLsb'_toNat_div, Machine.toNat_append_add]
    omega
  have h2 : (fieldImmS w).extractLsb' 0 5 = w.extractLsb' 7 5 := by
    apply BitVec.eq_of_toNat_eq
    simp only [fieldImmS, extractLsb'_toNat_div, Machine.toNat_append_add]
    omega
  rw [encS, h1, h2]
  exact encR_fields w

theorem encB_fields (w : Word) : encB (fieldImmB w) (fieldRs2 w) (fieldRs1 w) (w.extractLsb' 12 3) (fieldOpcode w) = w := by
  have h : (fieldImmB w).extractLsb' 12 1 = w.extractLsb' 31 1 ∧ (fieldImmB w).extractLsb' 5 6 = w.extractLsb' 25 6 ∧
      (fieldImmB w).extractLsb' 1 4 = w.extractLsb' 8 4 ∧ (fieldImmB w).extractLsb' 11 1 = w.extractLsb' 7 1 := by
    unfold fieldImmB
    generalize w.extractLsb' 31 1 = a
    generalize w.extractLsb' 7 1 = b
    generalize w.extractLsb' 25 6 = c
    generalize w.extractLsb' 8 4 = d
    refine ⟨?_, ?_, ?_, ?_⟩ <;>
    · apply BitVec.eq_of_toNat_eq
      simp only [extractLsb'_toNat_div, Machine.toNat_append_add, BitVec.toNat_ofNat]
      omega
  obtain ⟨h1, h2, h3, h4⟩ := h
  rw [encB, h1, h2, h3, h4]
  apply BitVec.eq_of_toNat_eq
  simp only [fieldRs2, fieldRs1, fieldOpcode, extractLsb'_toNat_div, Machine.toNat_append_add]
  omega

theorem encJ_fields (w : Word) : encJ (fieldImmJ w) (fieldRd w) (fieldOpcode w) = w := by
  have h : (fieldImmJ w).extractLsb' 20 1 = w.extractLsb' 31 1 ∧ (fieldImmJ w).extractLsb' 1 10 = w.extractLsb' 21 10 ∧
      (fieldImmJ w).extractLsb' 11 1 = w.extractLsb' 20 1 ∧ (fieldImmJ w).extractLsb' 12 8 = w.extractLsb' 12 8 := by
    unfold fieldImmJ
    generalize w.extractLsb' 31 1 = a
    generalize w.extractLsb' 12 8 = b
    generalize w.extractLsb' 20 1 = c
    generalize w.extractLsb' 21 10 = d
    refine ⟨?_, ?_, ?_, ?_⟩ <;>
    · apply BitVec.eq_of_toNat_eq
      simp only [extractLsb'_toNat_div, Machine.toNat_append_add, BitVec.toNat_ofNat]
      omega
  obtain ⟨h1, h2, h3, h4⟩ := h
  rw [encJ, h1, h2, h3, h4]
  apply BitVec.eq_of_toNat_eq
  simp only [fieldRd, fieldOpcode, extractLsb'_toNat_div, Machine.toNat_append_add]
  omega

end Sys2Proof
end

