-- ==== Sys2Proof/Laws/Ops.lean ====
section
/-! SUPPORT. For each shared operation, once, everything it can answer; the frame of each shape of effect; and the one inversion of the
step. Later proofs cite these and do not unfold the operations. -/

namespace Sys2Proof.Machine

/-! ## Writing a register and going on -/

/-- `writeResult` always completes, with the frame of `Computes`. -/
theorem writeResult_computes {i : Instr} {s : State} {rd : RegId} {v : Word} (h : exec i s = writeResult s rd v) :
    Computes i s rd v :=
  ⟨_, h, fun r => by rw [State.advance_readReg, State.readReg_writeReg], by simp, by simp [SameRest]⟩

/-- The one next state of `writeResult`. -/
theorem writeResult_next {s t : State} {rd : RegId} {v : Word} (h : writeResult s rd v = .next t) :
    t = (s.writeReg rd v).advance := by
  cases h; rfl

/-- What `Computes` says of a next state that is already known. -/
theorem Computes.of_next {i : Instr} {s t : State} {rd : RegId} {v : Word} (h : Computes i s rd v) (ht : exec i s = .next t) :
    RegsAfter s t rd v ∧ t.pc = s.pc + 4 ∧ SameRest s t := by
  obtain ⟨u, hu, hr⟩ := h
  rw [ht] at hu
  cases hu
  exact hr

/-! ## Checks of a data access -/

theorem allBacked_iff (s : State) (a n : Nat) : backedRange s.config a n = true ↔ AllBacked s a n := backedRange_iff _ _ _

/-- `accessFault` says nothing exactly when the access is aligned and backed (R43, R44, R56). -/
theorem accessFault_eq_none_iff (s : State) (addr : Word) (n : Nat) (f g : Word → Fault) :
    accessFault s addr n f g = none ↔ addr.toNat % n = 0 ∧ AllBacked s addr.toNat n := by
  unfold accessFault
  rw [← allBacked_iff]
  by_cases h : addr.toNat % n = 0 <;> by_cases hb : backedRange s.config addr.toNat n = true <;> simp [h, hb]

theorem accessFault_misaligned {s : State} {addr : Word} {n : Nat} (f g : Word → Fault) (h : addr.toNat % n ≠ 0) :
    accessFault s addr n f g = some (f addr) := by
  simp [accessFault, h]

theorem accessFault_unbacked {s : State} {addr : Word} {n : Nat} (f g : Word → Fault) (h : addr.toNat % n = 0)
    (hb : ¬AllBacked s addr.toNat n) : accessFault s addr n f g = some (g addr) := by
  rw [← allBacked_iff] at hb
  simp [accessFault, h, hb]

/-! ## Loads -/

/-- The three things a load can do (R150): it reads, or raises one of two exceptions. -/
theorem load_cases (s : State) (rd : RegId) (addr : Word) (n : Nat) (extend : BitVec (8 * n) → Word) :
    (addr.toNat % n = 0 ∧ AllBacked s addr.toNat n ∧
      load s rd addr n extend =
        writeResult s rd (extend (BitVec.ofNat (8 * n) (ofBytesLE (s.mem.getBytes addr.toNat n))))) ∨
    (addr.toNat % n ≠ 0 ∧ load s rd addr n extend = .fault (.loadAddressMisaligned addr)) ∨
    (addr.toNat % n = 0 ∧ ¬AllBacked s addr.toNat n ∧ load s rd addr n extend = .fault (.loadAccessFault addr)) := by
  by_cases h : addr.toNat % n = 0
  · by_cases hb : AllBacked s addr.toNat n
    · refine .inl ⟨h, hb, ?_⟩
      simp only [load, memRead, (accessFault_eq_none_iff s addr n _ _).mpr ⟨h, hb⟩]
    · refine .inr (.inr ⟨h, hb, ?_⟩)
      simp only [load, memRead, accessFault_unbacked _ _ h hb, raise]
  · refine .inr (.inl ⟨h, ?_⟩)
    simp only [load, memRead, accessFault_misaligned _ _ h, raise]

/-- A load whose meaning is `load` has the shape `Loads`. -/
theorem load_loads {i : Instr} {s : State} {rd : RegId} {addr : Word} {n : Nat} {extend : BitVec (8 * n) → Word} {v : Word}
    (h : exec i s = load s rd addr n extend)
    (hv : v = extend (BitVec.ofNat (8 * n) (ofBytesLE (s.mem.getBytes addr.toNat n)))) : Loads i s rd addr n v := by
  subst hv
  rcases load_cases s rd addr n extend with ⟨ha, hb, e⟩ | ⟨ha, e⟩ | ⟨ha, hb, e⟩ <;> rw [e] at h
  · exact ⟨fun _ _ => writeResult_computes h, fun hn => absurd ha hn, fun _ hn => absurd hb hn⟩
  · exact ⟨fun hn => absurd hn ha, fun _ => h, fun hn => absurd hn ha⟩
  · exact ⟨fun _ hn => absurd hn hb, fun hn => absurd ha hn, fun _ _ => h⟩

/-! ## Stores -/

/-- The three things a store can do (R156): it writes, or raises one of two exceptions. -/
theorem store_cases (s : State) (addr : Word) (n : Nat) (v : Word) :
    (addr.toNat % n = 0 ∧ AllBacked s addr.toNat n ∧
      store s addr n v = .next ({ s with
        mem := s.mem.setBytes addr.toNat (toBytesLE n (v.extractLsb' 0 (8 * n)).toNat)
        stale := s.staleAfterStore addr.toNat n } : State).advance) ∨
    (addr.toNat % n ≠ 0 ∧ store s addr n v = .fault (.storeAddressMisaligned addr)) ∨
    (addr.toNat % n = 0 ∧ ¬AllBacked s addr.toNat n ∧ store s addr n v = .fault (.storeAccessFault addr)) := by
  by_cases h : addr.toNat % n = 0
  · by_cases hb : AllBacked s addr.toNat n
    · refine .inl ⟨h, hb, ?_⟩
      simp only [store, memWrite, (accessFault_eq_none_iff s addr n _ _).mpr ⟨h, hb⟩]
    · refine .inr (.inr ⟨h, hb, ?_⟩)
      simp only [store, memWrite, accessFault_unbacked _ _ h hb, raise]
  · refine .inr (.inl ⟨h, ?_⟩)
    simp only [store, memWrite, accessFault_misaligned _ _ h, raise]

theorem mem_staleAfterStore (s : State) (a n b : Nat) :
    b ∈ s.staleAfterStore a n ↔ b ∈ s.stale ∨ (s.config.ifetchCoherent = false ∧ a ≤ b ∧ b < a + n) := by
  unfold State.staleAfterStore
  cases h : s.config.ifetchCoherent <;> simp [mem_addStaleRange]

/-- Byte `k` of the low `n` bytes of a word is its bits `8k + 7 .. 8k`. -/
theorem extractLsb'_low (v : Word) (n k : Nat) (h : k < n) :
    (v.extractLsb' 0 (8 * n)).extractLsb' (8 * k) 8 = v.extractLsb' (8 * k) 8 := by
  apply BitVec.eq_of_getLsbD_eq
  intro j hj
  simp only [BitVec.getLsbD_extractLsb', Nat.zero_add, hj, decide_true, Bool.true_and]
  rw [decide_eq_true (by omega), Bool.true_and]

/-- A store whose meaning is `store` has the shape `Stores`. -/
theorem store_stores {i : Instr} {s : State} {addr : Word} {n : Nat} {v : Word} (h : exec i s = store s addr n v) :
    Stores i s addr n v := by
  rcases store_cases s addr n v with ⟨ha, hb, e⟩ | ⟨ha, e⟩ | ⟨ha, hb, e⟩ <;> rw [e] at h
  · refine ⟨fun _ _ => ⟨_, h, fun r => rfl, rfl, rfl, rfl, fun k hk => ?_, fun a hr => ?_, fun hc => ?_, fun hc a => ?_⟩,
      fun hn => absurd ha hn, fun _ hn => absurd hb hn⟩
    · rw [State.advance_mem, Memory.get_setBytes, dif_pos ⟨by omega, by rw [length_toBytesLE]; omega⟩,
        getElem_toBytesLE_toNat, extractLsb'_low _ _ _ (by omega)]
      congr 2; omega
    · rw [State.advance_mem, Memory.get_setBytes, dif_neg]
      rw [length_toBytesLE]; omega
    · simp [State.staleAfterStore, hc]
    · rw [State.advance_stale, mem_staleAfterStore]; simp [hc]
  · exact ⟨fun hn => absurd hn ha, fun _ => h, fun hn => absurd hn ha⟩
  · exact ⟨fun _ hn => absurd hn hb, fun hn => absurd ha hn, fun _ _ => h⟩

/-! ## Control transfer -/

/-- A jump whose meaning is `transfer` with a link has the shape `Jumps`. -/
theorem transfer_jumps {i : Instr} {s : State} {rd : RegId} {t : Word}
    (h : exec i s = transfer s t (some (rd, s.nextPc))) : Jumps i s rd t := by
  unfold transfer at h
  constructor
  · intro ht
    rw [if_neg (by simpa using ht)] at h
    exact ⟨_, h, fun r => by rw [State.setPc_readReg, State.readReg_writeReg]; rfl, rfl, by simp [SameRest]⟩
  · intro ht
    rwa [if_pos ht] at h

/-- A branch whose meaning is `branch` has the shape `Branches`. -/
theorem branch_branches {i : Instr} {s : State} {taken : Bool} {cond : Prop} {t : Word} (h : exec i s = branch s taken t)
    (hc : taken = true ↔ cond) : Branches i s cond t := by
  unfold branch transfer at h
  refine ⟨fun hn => ?_, fun hy ht => ?_, fun hy ht => ?_⟩
  · rw [if_neg (fun e => hn (hc.mp e))] at h
    exact ⟨_, h, fun r => rfl, rfl, fun a => rfl, rfl, rfl, rfl⟩
  · rw [if_pos (hc.mpr hy), if_neg (by simpa using ht)] at h
    exact ⟨_, h, fun r => rfl, rfl, fun a => rfl, rfl, rfl, rfl⟩
  · rwa [if_pos (hc.mpr hy), if_pos ht] at h

/-- The next states of `transfer`: the target is a multiple of 4, and the link, if any, is written (R130). -/
theorem transfer_next {s u : State} {t : Word} {link : Option (RegId × Word)} (h : transfer s t link = .next u) :
    t.toNat % 4 = 0 ∧ u = (match link with | some (rd, v) => (s.writeReg rd v).setPc t | none => s.setPc t) := by
  unfold transfer at h
  split at h
  · cases h
  · next ht =>
    refine ⟨by simpa using ht, ?_⟩
    cases link with
    | none => cases h; rfl
    | some p => cases h; rfl

/-! ## CSRs -/

/-- The CSR at the address just written holds the value; its address and read-only mark stay. -/
theorem findCsr_setCsr_self {s : State} {a : CsrAddr} {c : Csr} (v : Word) (h : s.findCsr a = some c) :
    (s.setCsr a v).findCsr a = some { c with value := v } := by
  unfold State.findCsr at h ⊢
  unfold State.setCsr
  revert h
  generalize s.csrs = cs
  intro h
  induction cs with
  | nil => simp at h
  | cons d l ih =>
    rw [List.find?_cons] at h
    rw [List.map_cons, List.find?_cons]
    by_cases hd : d.addr = a
    · simp only [hd, beq_self_eq_true, if_true] at h ⊢
      cases h; rw [hd]
    · simp only [beq_eq_false_iff_ne.mpr hd, if_neg hd] at h ⊢
      exact ih h

/-- A CSR at another address is as before. -/
theorem findCsr_setCsr_of_ne (s : State) {a b : CsrAddr} (v : Word) (h : b ≠ a) :
    (s.setCsr a v).findCsr b = s.findCsr b := by
  unfold State.findCsr State.setCsr
  simp only
  induction s.csrs with
  | nil => rfl
  | cons d l ih =>
    rw [List.map_cons, List.find?_cons, List.find?_cons, ih]
    by_cases hd : d.addr = a
    · simp [hd, beq_eq_false_iff_ne.mpr h.symm]
    · simp [hd]

/-- The addresses and read-only marks of the CSRs never change (R27). -/
theorem setCsr_shape (s : State) (a : CsrAddr) (v : Word) :
    (s.setCsr a v).csrs.map (fun c => (c.addr, c.readOnly)) = s.csrs.map fun c => (c.addr, c.readOnly) := by
  unfold State.setCsr
  simp only [List.map_map]
  congr 1
  funext c
  simp only [Function.comp]
  split <;> rfl

/-- What a CSR access can do (R174): it raises for an absent CSR or a write to a read-only one; else it writes `x[rd]` and the CSR. -/
theorem csrAccess_cases (s : State) (word : Word) (rd : RegId) (a : CsrAddr) (reads : Bool) (update : Option (Word → Word)) :
    (s.findCsr a = none ∧ csrAccess s word rd a reads update = .fault (.illegalInstruction word)) ∨
    (∃ c, s.findCsr a = some c ∧ update.isSome = true ∧ c.readOnly = true ∧
      csrAccess s word rd a reads update = .fault (.illegalInstruction word)) ∨
    (∃ c held, s.findCsr a = some c ∧ (update.isSome = true → c.readOnly = false) ∧
      held = (let h := if reads then Config.csrAfterRead a c.value else c.value
        match update with
        | none => h
        | some f => Config.csrWrite a h (f (if reads then Config.csrRead a c.value else 0))) ∧
      csrAccess s word rd a reads update =
        writeResult (s.setCsr a held) rd (if reads then Config.csrRead a c.value else 0)) := by
  unfold csrAccess
  cases hc : s.findCsr a with
  | none => exact .inl ⟨rfl, rfl⟩
  | some c =>
    simp only
    by_cases hw : (update.isSome && c.readOnly) = true
    · rw [if_pos hw]
      rw [Bool.and_eq_true] at hw
      exact .inr (.inl ⟨c, rfl, hw.1, hw.2, rfl⟩)
    · rw [if_neg hw]
      refine .inr (.inr ⟨c, _, rfl, fun h => ?_, rfl, ?_⟩)
      · simpa [h] using hw
      · cases update <;> rfl

/-- A completing CSR access has the shape `AccessesCsr`. -/
theorem csrAccess_accesses {i : Instr} {s : State} {rd : RegId} {a : CsrAddr} {c : Csr} {v held : Word}
    (hc : s.findCsr a = some c) (h : exec i s = writeResult (s.setCsr a held) rd v) : AccessesCsr i s rd a c v held :=
  ⟨_, h, fun r => by rw [State.advance_readReg, State.readReg_writeReg, State.setCsr_readReg], by simp,
    by rw [State.advance_findCsr, State.writeReg_findCsr, findCsr_setCsr_self _ hc],
    fun b hb => by rw [State.advance_findCsr, State.writeReg_findCsr, findCsr_setCsr_of_ne _ _ hb], by simp, by simp, by simp⟩

/-! ## The fetch and the step -/

/-- What a fetch can answer (R45, R224), in the order of its checks. -/
theorem fetch_cases (s : State) :
    (s.pc.toNat % 4 ≠ 0 ∧ fetch s = .error (.instructionAddressMisaligned s.pc)) ∨
    (s.pc.toNat % 4 = 0 ∧ ¬AllBacked s s.pc.toNat 4 ∧ fetch s = .error (.instructionAccessFault s.pc)) ∨
    (s.pc.toNat % 4 = 0 ∧ AllBacked s s.pc.toNat 4 ∧ (∃ k, k < 4 ∧ s.pc.toNat + k ∈ s.stale) ∧
      fetch s = .error (.staleFetch s.pc)) ∨
    (s.pc.toNat % 4 = 0 ∧ AllBacked s s.pc.toNat 4 ∧ (∀ k, k < 4 → s.pc.toNat + k ∉ s.stale) ∧
      fetch s = .ok (s.mem.get (s.pc.toNat + 3) ++ s.mem.get (s.pc.toNat + 2) ++ s.mem.get (s.pc.toNat + 1) ++
        s.mem.get s.pc.toNat)) := by
  rw [← allBacked_iff, ← staleRange_iff]
  have hn : (∀ k, k < 4 → s.pc.toNat + k ∉ s.stale) ↔ s.staleRange s.pc.toNat 4 = false := by
    rw [← Bool.not_eq_true, staleRange_iff]; push Not; rfl
  rw [hn]
  unfold fetch
  by_cases h : s.pc.toNat % 4 = 0
  · cases hb : backedRange s.config s.pc.toNat 4
    · simp [h]
    · cases hs : s.staleRange s.pc.toNat 4
      · simp [h, Memory.getBytes, ofBytesLE_four]
      · simp [h]
  · simp [h]

/-- A step that answers a next state fetched a word, decoded it, and is the instruction's meaning (R10). -/
theorem step_next {s t : State} (h : step s = .next t) :
    ∃ w i, fetch s = .ok w ∧ decode w = .ok i ∧ exec i s = .next t := by
  unfold step at h
  split at h
  · cases h
  · next w hw =>
    split at h
    · next e _ => cases e <;> cases h
    · next i hi => exact ⟨w, i, hw, hi, h⟩

end Sys2Proof.Machine
end

