-- ==== Sys2Proof/Laws/Exec.lean ====
section
/-! SUPPORT. Said once: every next state an instruction can give, by kind of instruction, and every fault. Later proofs case on these and
do not unfold the meanings. -/

namespace Sys2Proof.Machine

/-- The next states of an instruction, as one of seven kinds. -/
inductive NextKind (i : Instr) (s t : State) : Prop where
  /-- A computation, a load, `lui`, `auipc`: one register, then on (R7, R25, R150). -/
  | result (rd : RegId) (v : Word) (hd : destination i = some rd) (hs : isStore i = false) (ht : isTransfer i = false)
      (hc : isCsr i = false) (hf : i ≠ .fenceI) (h : t = (s.writeReg rd v).advance)
  /-- A CSR instruction (R174): a read-only CSR is at most read. -/
  | csr (rd : RegId) (a : CsrAddr) (c : Csr) (held v : Word) (hd : destination i = some rd) (hs : isStore i = false)
      (ht : isTransfer i = false) (hc : isCsr i = true) (hf : i ≠ .fenceI) (hfind : s.findCsr a = some c)
      (hro : c.readOnly = true → held = c.value ∨ held = Config.csrAfterRead a c.value)
      (h : t = ((s.setCsr a held).writeReg rd v).advance)
  /-- A store of `n` bytes (R156). -/
  | store (addr : Word) (n : Nat) (v : Word) (hd : destination i = none) (hs : isStore i = true) (ht : isTransfer i = false)
      (hc : isCsr i = false) (hf : i ≠ .fenceI) (hn : n = 1 ∨ n = 2 ∨ n = 4) (ha : addr.toNat % n = 0)
      (hb : AllBacked s addr.toNat n) (hto : ∀ a, storesTo i s a ↔ addr.toNat ≤ a ∧ a < addr.toNat + n)
      (h : t = ({ s with
        mem := s.mem.setBytes addr.toNat (toBytesLE n (v.extractLsb' 0 (8 * n)).toNat)
        stale := s.staleAfterStore addr.toNat n } : State).advance)
  /-- `jal` or `jalr` (R131, R132). -/
  | jump (rd : RegId) (p : Word) (hd : destination i = some rd) (hs : isStore i = false) (ht : isTransfer i = true)
      (hc : isCsr i = false) (hf : i ≠ .fenceI) (hp : p.toNat % 4 = 0) (h : t = (s.writeReg rd s.nextPc).setPc p)
  /-- A branch, taken or not (R134). -/
  | branch (p : Word) (hd : destination i = none) (hs : isStore i = false) (ht : isTransfer i = true) (hc : isCsr i = false)
      (hf : i ≠ .fenceI) (hp : p = s.pc + 4 ∨ (p.toNat % 4 = 0 ∧ ∀ rs1 rs2 offset, (i = .beq rs1 rs2 offset ∨
        i = .bne rs1 rs2 offset ∨ i = .blt rs1 rs2 offset ∨ i = .bge rs1 rs2 offset ∨ i = .bltu rs1 rs2 offset ∨
        i = .bgeu rs1 rs2 offset) → p = branchTarget s offset)) (h : t = s.setPc p)
  /-- `fence` (R170). -/
  | fence (pred succ : BitVec 4) (hi : i = .fence pred succ) (h : t = s.advance)
  /-- `fence.i` (R171). -/
  | fenceI (hi : i = .fenceI) (h : t = ({ s with stale := [] } : State).advance)

/-- A load that completes writes one register. -/
theorem load_next {s t : State} {rd : RegId} {addr : Word} {n : Nat} {extend : BitVec (8 * n) → Word}
    (h : load s rd addr n extend = .next t) : ∃ v, t = (s.writeReg rd v).advance := by
  rcases load_cases s rd addr n extend with ⟨_, _, e⟩ | ⟨_, e⟩ | ⟨_, _, e⟩ <;> rw [e] at h
  · exact ⟨_, writeResult_next h⟩
  · cases h
  · cases h

/-- A CSR access that completes (R174). -/
theorem csrAccess_next {s t : State} {word : Word} {rd : RegId} {a : CsrAddr} {reads : Bool} {update : Option (Word → Word)}
    (h : csrAccess s word rd a reads update = .next t) :
    ∃ c held v, s.findCsr a = some c ∧ (c.readOnly = true → held = c.value ∨ held = Config.csrAfterRead a c.value) ∧
      t = ((s.setCsr a held).writeReg rd v).advance := by
  rcases csrAccess_cases s word rd a reads update with ⟨_, e⟩ | ⟨c, _, _, _, e⟩ | ⟨c, held, hc, hu, hh, e⟩ <;> rw [e] at h
  · cases h
  · cases h
  · refine ⟨c, held, _, hc, fun hr => ?_, writeResult_next h⟩
    cases update with
    | none => cases reads <;> simp at hh <;> simp [hh]
    | some f => rw [hu rfl] at hr; cases hr

/-- A branch that completes (R134). -/
theorem branch_next {s t : State} {taken : Bool} {p : Word} (h : branch s taken p = .next t) :
    t = s.setPc (s.pc + 4) ∨ (p.toNat % 4 = 0 ∧ t = s.setPc p) := by
  unfold branch at h
  split at h
  · exact .inr (transfer_next h)
  · cases h; exact .inl rfl

/-- Every next state of every instruction. -/
theorem exec_next {i : Instr} {s t : State} (h : exec i s = .next t) : NextKind i s t := by
  cases i with
  | lui rd imm => exact .result rd _ rfl rfl rfl rfl (fun e => by cases e) (writeResult_next h)
  | auipc rd imm => exact .result rd _ rfl rfl rfl rfl (fun e => by cases e) (writeResult_next h)
  | jal rd offset =>
    have e := transfer_next (s := s) (link := some (rd, s.nextPc)) h
    exact .jump rd _ rfl rfl rfl rfl (fun e => by cases e) e.1 e.2
  | jalr rd rs1 imm =>
    have e := transfer_next (s := s) (link := some (rd, s.nextPc)) h
    exact .jump rd _ rfl rfl rfl rfl (fun e => by cases e) e.1 e.2
  | beq rs1 rs2 offset =>
    rcases branch_next h with e | ⟨hp, e⟩
    · exact .branch _ rfl rfl rfl rfl (fun e => by cases e) (.inl rfl) e
    · exact .branch _ rfl rfl rfl rfl (fun e => by cases e) (.inr ⟨hp, by simp⟩) e
  | bne rs1 rs2 offset =>
    rcases branch_next h with e | ⟨hp, e⟩
    · exact .branch _ rfl rfl rfl rfl (fun e => by cases e) (.inl rfl) e
    · exact .branch _ rfl rfl rfl rfl (fun e => by cases e) (.inr ⟨hp, by simp⟩) e
  | blt rs1 rs2 offset =>
    rcases branch_next h with e | ⟨hp, e⟩
    · exact .branch _ rfl rfl rfl rfl (fun e => by cases e) (.inl rfl) e
    · exact .branch _ rfl rfl rfl rfl (fun e => by cases e) (.inr ⟨hp, by simp⟩) e
  | bge rs1 rs2 offset =>
    rcases branch_next h with e | ⟨hp, e⟩
    · exact .branch _ rfl rfl rfl rfl (fun e => by cases e) (.inl rfl) e
    · exact .branch _ rfl rfl rfl rfl (fun e => by cases e) (.inr ⟨hp, by simp⟩) e
  | bltu rs1 rs2 offset =>
    rcases branch_next h with e | ⟨hp, e⟩
    · exact .branch _ rfl rfl rfl rfl (fun e => by cases e) (.inl rfl) e
    · exact .branch _ rfl rfl rfl rfl (fun e => by cases e) (.inr ⟨hp, by simp⟩) e
  | bgeu rs1 rs2 offset =>
    rcases branch_next h with e | ⟨hp, e⟩
    · exact .branch _ rfl rfl rfl rfl (fun e => by cases e) (.inl rfl) e
    · exact .branch _ rfl rfl rfl rfl (fun e => by cases e) (.inr ⟨hp, by simp⟩) e
  | lb rd rs1 imm =>
    obtain ⟨v, e⟩ := load_next h
    exact .result rd v rfl rfl rfl rfl (fun e => by cases e) e
  | lh rd rs1 imm =>
    obtain ⟨v, e⟩ := load_next h
    exact .result rd v rfl rfl rfl rfl (fun e => by cases e) e
  | lw rd rs1 imm =>
    obtain ⟨v, e⟩ := load_next h
    exact .result rd v rfl rfl rfl rfl (fun e => by cases e) e
  | lbu rd rs1 imm =>
    obtain ⟨v, e⟩ := load_next h
    exact .result rd v rfl rfl rfl rfl (fun e => by cases e) e
  | lhu rd rs1 imm =>
    obtain ⟨v, e⟩ := load_next h
    exact .result rd v rfl rfl rfl rfl (fun e => by cases e) e
  | sb rs2 rs1 imm =>
    rcases store_cases s (storeAddress s rs1 imm) 1 (s.readReg rs2) with ⟨ha, hb, e⟩ | ⟨_, e⟩ | ⟨_, _, e⟩
    · exact .store _ 1 _ rfl rfl rfl rfl (fun e => by cases e) (.inl rfl) ha hb (fun _ => Iff.rfl) (Host.Outcome.next.inj (h.symm.trans e))
    · cases h.symm.trans e
    · cases h.symm.trans e
  | sh rs2 rs1 imm =>
    rcases store_cases s (storeAddress s rs1 imm) 2 (s.readReg rs2) with ⟨ha, hb, e⟩ | ⟨_, e⟩ | ⟨_, _, e⟩
    · exact .store _ 2 _ rfl rfl rfl rfl (fun e => by cases e) (.inr (.inl rfl)) ha hb (fun _ => Iff.rfl) (Host.Outcome.next.inj (h.symm.trans e))
    · cases h.symm.trans e
    · cases h.symm.trans e
  | sw rs2 rs1 imm =>
    rcases store_cases s (storeAddress s rs1 imm) 4 (s.readReg rs2) with ⟨ha, hb, e⟩ | ⟨_, e⟩ | ⟨_, _, e⟩
    · exact .store _ 4 _ rfl rfl rfl rfl (fun e => by cases e) (.inr (.inr rfl)) ha hb (fun _ => Iff.rfl) (Host.Outcome.next.inj (h.symm.trans e))
    · cases h.symm.trans e
    · cases h.symm.trans e
  | addi rd rs1 imm => exact .result rd _ rfl rfl rfl rfl (fun e => by cases e) (writeResult_next h)
  | slti rd rs1 imm => exact .result rd _ rfl rfl rfl rfl (fun e => by cases e) (writeResult_next h)
  | sltiu rd rs1 imm => exact .result rd _ rfl rfl rfl rfl (fun e => by cases e) (writeResult_next h)
  | xori rd rs1 imm => exact .result rd _ rfl rfl rfl rfl (fun e => by cases e) (writeResult_next h)
  | ori rd rs1 imm => exact .result rd _ rfl rfl rfl rfl (fun e => by cases e) (writeResult_next h)
  | andi rd rs1 imm => exact .result rd _ rfl rfl rfl rfl (fun e => by cases e) (writeResult_next h)
  | slli rd rs1 shamt => exact .result rd _ rfl rfl rfl rfl (fun e => by cases e) (writeResult_next h)
  | srli rd rs1 shamt => exact .result rd _ rfl rfl rfl rfl (fun e => by cases e) (writeResult_next h)
  | srai rd rs1 shamt => exact .result rd _ rfl rfl rfl rfl (fun e => by cases e) (writeResult_next h)
  | add rd rs1 rs2 => exact .result rd _ rfl rfl rfl rfl (fun e => by cases e) (writeResult_next h)
  | sub rd rs1 rs2 => exact .result rd _ rfl rfl rfl rfl (fun e => by cases e) (writeResult_next h)
  | sll rd rs1 rs2 => exact .result rd _ rfl rfl rfl rfl (fun e => by cases e) (writeResult_next h)
  | slt rd rs1 rs2 => exact .result rd _ rfl rfl rfl rfl (fun e => by cases e) (writeResult_next h)
  | sltu rd rs1 rs2 => exact .result rd _ rfl rfl rfl rfl (fun e => by cases e) (writeResult_next h)
  | xor rd rs1 rs2 => exact .result rd _ rfl rfl rfl rfl (fun e => by cases e) (writeResult_next h)
  | srl rd rs1 rs2 => exact .result rd _ rfl rfl rfl rfl (fun e => by cases e) (writeResult_next h)
  | sra rd rs1 rs2 => exact .result rd _ rfl rfl rfl rfl (fun e => by cases e) (writeResult_next h)
  | or rd rs1 rs2 => exact .result rd _ rfl rfl rfl rfl (fun e => by cases e) (writeResult_next h)
  | and rd rs1 rs2 => exact .result rd _ rfl rfl rfl rfl (fun e => by cases e) (writeResult_next h)
  | fence pred succ => cases h; exact .fence pred succ rfl rfl
  | fenceI => cases h; exact .fenceI rfl rfl
  | ecall => cases h
  | ebreak => cases h
  | csrrw rd csr rs1 =>
    obtain ⟨c, held, v, hc, hr, e⟩ := csrAccess_next h
    exact .csr rd csr c held v rfl rfl rfl rfl (fun e => by cases e) hc hr e
  | csrrs rd csr rs1 =>
    obtain ⟨c, held, v, hc, hr, e⟩ := csrAccess_next h
    exact .csr rd csr c held v rfl rfl rfl rfl (fun e => by cases e) hc hr e
  | csrrc rd csr rs1 =>
    obtain ⟨c, held, v, hc, hr, e⟩ := csrAccess_next h
    exact .csr rd csr c held v rfl rfl rfl rfl (fun e => by cases e) hc hr e
  | csrrwi rd csr zimm =>
    obtain ⟨c, held, v, hc, hr, e⟩ := csrAccess_next h
    exact .csr rd csr c held v rfl rfl rfl rfl (fun e => by cases e) hc hr e
  | csrrsi rd csr zimm =>
    obtain ⟨c, held, v, hc, hr, e⟩ := csrAccess_next h
    exact .csr rd csr c held v rfl rfl rfl rfl (fun e => by cases e) hc hr e
  | csrrci rd csr zimm =>
    obtain ⟨c, held, v, hc, hr, e⟩ := csrAccess_next h
    exact .csr rd csr c held v rfl rfl rfl rfl (fun e => by cases e) hc hr e
  | mul rd rs1 rs2 => exact .result rd _ rfl rfl rfl rfl (fun e => by cases e) (writeResult_next h)
  | mulh rd rs1 rs2 => exact .result rd _ rfl rfl rfl rfl (fun e => by cases e) (writeResult_next h)
  | mulhsu rd rs1 rs2 => exact .result rd _ rfl rfl rfl rfl (fun e => by cases e) (writeResult_next h)
  | mulhu rd rs1 rs2 => exact .result rd _ rfl rfl rfl rfl (fun e => by cases e) (writeResult_next h)
  | div rd rs1 rs2 => exact .result rd _ rfl rfl rfl rfl (fun e => by cases e) (writeResult_next h)
  | divu rd rs1 rs2 => exact .result rd _ rfl rfl rfl rfl (fun e => by cases e) (writeResult_next h)
  | rem rd rs1 rs2 => exact .result rd _ rfl rfl rfl rfl (fun e => by cases e) (writeResult_next h)
  | remu rd rs1 rs2 => exact .result rd _ rfl rfl rfl rfl (fun e => by cases e) (writeResult_next h)
  | lwu rd rs1 imm => cases h
  | ld rd rs1 imm => cases h
  | sd rs2 rs1 imm => cases h
  | addiw rd rs1 imm => cases h

/-- A byte the instruction does not store to reads as before (R156). -/
theorem exec_get_of_not_storesTo {i : Instr} {s t : State} {a : Nat} (h : exec i s = .next t) (ha : ¬storesTo i s a) :
    t.mem.get a = s.mem.get a := by
  cases exec_next h with
  | store addr n v _ _ _ _ _ _ _ _ hto e =>
    subst e
    rw [hto] at ha
    rw [State.advance_mem, Memory.get_setBytes, dif_neg (by simpa using ha)]
  | result _ _ _ _ _ _ _ e => subst e; simp
  | csr _ _ _ _ _ _ _ _ _ _ _ _ e => subst e; simp
  | jump _ _ _ _ _ _ _ _ e => subst e; simp
  | branch _ _ _ _ _ _ _ e => subst e; simp
  | fence _ _ _ e => subst e; simp
  | fenceI _ e => subst e; simp

/-! ## The register an instruction writes -/

/-- `withDestination` replaces the destination register and nothing less. -/
theorem destination_withDestination {i : Instr} {rd : RegId} (r : RegId) (h : destination i = some rd) :
    destination (withDestination i r) = some r := by
  cases i <;> first | rfl | cases h

/-- `withDestination` replaces nothing more. -/
theorem withDestination_destination {i : Instr} {rd : RegId} (r : RegId) (h : destination i = some rd) :
    withDestination (withDestination i r) rd = i := by
  cases i <;> first | cases h; rfl | cases h

/-! ## Runs -/

/-- The last step of a run (`Host.Core.run` says the first). -/
theorem run_succ_last {M : Host.Core} {n : Nat} {s t : M.State} (h : M.run (n + 1) s = .next t) :
    ∃ u, M.run n s = .next u ∧ M.step u = .next t := by
  induction n generalizing s with
  | zero =>
    simp only [Host.Core.run] at h
    split at h
    · next u hu => cases h; exact ⟨s, rfl, hu⟩
    · cases h
    · cases h
  | succ n ih =>
    rw [Host.Core.run] at h
    split at h
    · next u hu =>
      obtain ⟨v, hv, ht⟩ := ih h
      exact ⟨v, by rw [Host.Core.run, hu]; exact hv, ht⟩
    · cases h
    · cases h

end Sys2Proof.Machine
end

