-- ==== Sys2Proof/Laws/Operands.lean ====
section
/-! SUPPORT. The operand forms and the comparisons as integers: what each extension, count, address and target is as arithmetic. -/

namespace Sys2Proof.Machine

/-! ## Sign extension -/

/-- Sign extension to 32 bits is the word of the signed value. -/
theorem signExtend_eq_ofInt {n : Nat} (v : BitVec n) : v.signExtend 32 = BitVec.ofInt 32 v.toInt := by
  simp [BitVec.signExtend]

theorem immI_eq_ofInt (imm : BitVec 12) : immI imm = BitVec.ofInt 32 imm.toInt := signExtend_eq_ofInt imm
theorem immS_eq_ofInt (imm : BitVec 12) : immS imm = BitVec.ofInt 32 imm.toInt := signExtend_eq_ofInt imm
theorem immB_eq_ofInt (offset : BitVec 13) : immB offset = BitVec.ofInt 32 offset.toInt := signExtend_eq_ofInt offset
theorem immJ_eq_ofInt (offset : BitVec 21) : immJ offset = BitVec.ofInt 32 offset.toInt := signExtend_eq_ofInt offset

/-- The upper immediate is the 20-bit field times 4096. -/
theorem immU_toNat (imm : BitVec 20) : (immU imm).toNat = imm.toNat * 4096 := by
  rw [immU, BitVec.toNat_append, ← Nat.shiftLeft_add_eq_or_of_lt (by simp), Nat.shiftLeft_eq]
  simp

/-- A word plus the word of an integer is the word of the sum of the signed values. -/
theorem add_ofInt (a : Word) (n : Int) : a + BitVec.ofInt 32 n = BitVec.ofInt 32 (a.toInt + n) := by
  rw [BitVec.ofInt_add, BitVec.ofInt_toInt]

/-- The same with the unsigned value of the word. -/
theorem add_ofInt_toNat (a : Word) (n : Int) : a + BitVec.ofInt 32 n = BitVec.ofInt 32 (a.toNat + n) := by
  rw [BitVec.ofInt_add]
  congr 1
  apply BitVec.eq_of_toNat_eq
  simp

/-! ## Counts, comparisons, division -/

/-- The count of a register shift is the register modulo 32. -/
theorem shiftCount_eq_mod (v : Word) : shiftCount v = v.toNat % 32 := by
  simp [shiftCount, BitVec.extractLsb'_toNat]

theorem lessSigned_iff (a b : Word) : lessSigned a b = true ↔ a.toInt < b.toInt := decide_eq_true_iff
theorem lessUnsigned_iff (a b : Word) : lessUnsigned a b = true ↔ a.toNat < b.toNat := decide_eq_true_iff

/-- What is left by the truncated quotient is the truncated remainder. -/
theorem sub_mul_tdiv (a b : Int) : a - b * a.tdiv b = a.tmod b := by
  have := Int.tmod_add_mul_tdiv a b
  omega

/-- Clearing bit 0 gives the even number at or just below. -/
theorem and_clear_bit_zero (v : Word) : v &&& 0xFFFFFFFE = BitVec.ofNat 32 (v.toNat / 2 * 2) := by
  apply BitVec.eq_of_getLsbD_eq
  intro i hi
  have h : BitVec.ofNat 32 (v.toNat / 2 * 2) = (v >>> 1) <<< 1 := by
    apply BitVec.eq_of_toNat_eq
    simp [Nat.shiftRight_eq_div_pow, Nat.shiftLeft_eq]
  rw [h]
  interval_cases i <;> simp

end Sys2Proof.Machine
end

