-- ==== Sys2Proof/Laws/PerInstr.lean ====
section
/-! SUPPORT. Per instruction: its word has the fixed bits of a row of the opcode table, the row is admitted exactly when the instruction
is, and the row reads the fields back from the word. -/

namespace Sys2Proof.Laws.EncodingFitsRow

/-- Some row of the opcode table fits the instruction's word, is admitted exactly when the instruction is, and, when the byte offset
(if there is one) is even, builds the instruction from the word (R81). -/
def Statement (i : Instr) : Prop :=
  ∃ r ∈ opcodeTable, r.admitted = i.admitted ∧ encode i &&& r.mask = r.mtch ∧ (i.offsetEven = true → r.build (encode i) = i)

/-! ## One lemma per format

`n` is the row's place in the table; `hm` says that the row's match has the constructor's fixed fields; `hb` that the row's `build`
reads the fields. -/

theorem fitsR {i : Instr} {rs2 rs1 rd : BitVec 5} {funct7 : BitVec 7} {funct3 : BitVec 3} {opcode : BitVec 7} (n : Nat) {r : Row}
    (hrow : opcodeTable[n]? = some r) (hadm : r.admitted = i.admitted) (hmask : r.mask = 0xFE00707F)
    (he : encode i = encR funct7 rs2 rs1 funct3 rd opcode)
    (hm : r.mtch &&& 0xFE00707F = r.mtch ∧ funct7 = r.mtch.extractLsb' 25 7 ∧ funct3 = r.mtch.extractLsb' 12 3 ∧ opcode = r.mtch.extractLsb' 0 7)
    (hb : ∀ w, fieldRd w = rd → fieldRs1 w = rs1 → fieldRs2 w = rs2 → r.build w = i) : Statement i := by
  have p := encR_parts funct7 rs2 rs1 funct3 rd opcode
  refine ⟨r, List.mem_of_getElem? hrow, hadm, ?_, fun _ => ?_⟩
  · rw [hmask, he]
    exact (maskR_iff _ _ hm.1).mpr ⟨p.1.trans hm.2.1, p.2.2.2.1.trans hm.2.2.1, p.2.2.2.2.2.trans hm.2.2.2⟩
  · rw [he]
    exact hb _ (p.2.2.2.2.1) (p.2.2.1) (p.2.1)

theorem fitsI {i : Instr} {rs1 rd : BitVec 5} {imm : BitVec 12} {funct3 : BitVec 3} {opcode : BitVec 7} (n : Nat) {r : Row}
    (hrow : opcodeTable[n]? = some r) (hadm : r.admitted = i.admitted) (hmask : r.mask = 0x0000707F)
    (he : encode i = encI imm rs1 funct3 rd opcode)
    (hm : r.mtch &&& 0x0000707F = r.mtch ∧ funct3 = r.mtch.extractLsb' 12 3 ∧ opcode = r.mtch.extractLsb' 0 7)
    (hb : ∀ w, fieldRd w = rd → fieldRs1 w = rs1 → fieldImmI w = imm → r.build w = i) : Statement i := by
  have p := encI_parts imm rs1 funct3 rd opcode
  refine ⟨r, List.mem_of_getElem? hrow, hadm, ?_, fun _ => ?_⟩
  · rw [hmask, he]
    exact (maskI_iff _ _ hm.1).mpr ⟨p.2.2.1.trans hm.2.1, p.2.2.2.2.trans hm.2.2⟩
  · rw [he]
    exact hb _ (p.2.2.2.1) (p.2.1) (p.1)

theorem fitsS {i : Instr} {rs2 rs1 : BitVec 5} {imm : BitVec 12} {funct3 : BitVec 3} {opcode : BitVec 7} (n : Nat) {r : Row}
    (hrow : opcodeTable[n]? = some r) (hadm : r.admitted = i.admitted) (hmask : r.mask = 0x0000707F)
    (he : encode i = encS imm rs2 rs1 funct3 opcode)
    (hm : r.mtch &&& 0x0000707F = r.mtch ∧ funct3 = r.mtch.extractLsb' 12 3 ∧ opcode = r.mtch.extractLsb' 0 7)
    (hb : ∀ w, fieldRs2 w = rs2 → fieldRs1 w = rs1 → fieldImmS w = imm → r.build w = i) : Statement i := by
  have p := encS_parts imm rs2 rs1 funct3 opcode
  refine ⟨r, List.mem_of_getElem? hrow, hadm, ?_, fun _ => ?_⟩
  · rw [hmask, he]
    exact (maskI_iff _ _ hm.1).mpr ⟨p.2.2.2.1.trans hm.2.1, p.2.2.2.2.2.trans hm.2.2⟩
  · rw [he]
    exact hb _ (p.2.1) (p.2.2.1) (fieldImmS_encS _ _ _ _ _)

theorem fitsB {i : Instr} {rs2 rs1 : BitVec 5} {offset : BitVec 13} {funct3 : BitVec 3} {opcode : BitVec 7} (n : Nat) {r : Row}
    (hrow : opcodeTable[n]? = some r) (hadm : r.admitted = i.admitted) (hmask : r.mask = 0x0000707F)
    (he : encode i = encB offset rs2 rs1 funct3 opcode)
    (hev : i.offsetEven = !offset.getLsbD 0)
    (hm : r.mtch &&& 0x0000707F = r.mtch ∧ funct3 = r.mtch.extractLsb' 12 3 ∧ opcode = r.mtch.extractLsb' 0 7)
    (hb : ∀ w, fieldRs2 w = rs2 → fieldRs1 w = rs1 → fieldImmB w = offset → r.build w = i) : Statement i := by
  have p := encB_parts offset rs2 rs1 funct3 opcode
  refine ⟨r, List.mem_of_getElem? hrow, hadm, ?_, fun hoff => ?_⟩
  · rw [hmask, he]
    exact (maskI_iff _ _ hm.1).mpr ⟨p.2.2.2.2.1.trans hm.2.1, p.2.2.2.2.2.2.2.trans hm.2.2⟩
  · have ho : offset.getLsbD 0 = false := by rw [hev] at hoff; simpa using hoff
    rw [he]
    exact hb _ (p.2.2.1) (p.2.2.2.1) (fieldImmB_encB _ _ _ _ _ ho)

theorem fitsU {i : Instr} {rd : BitVec 5} {imm : BitVec 20} {opcode : BitVec 7} (n : Nat) {r : Row}
    (hrow : opcodeTable[n]? = some r) (hadm : r.admitted = i.admitted) (hmask : r.mask = 0x0000007F)
    (he : encode i = encU imm rd opcode)
    (hm : r.mtch &&& 0x0000007F = r.mtch ∧ opcode = r.mtch.extractLsb' 0 7)
    (hb : ∀ w, fieldRd w = rd → fieldImmU w = imm → r.build w = i) : Statement i := by
  have p := encU_parts imm rd opcode
  refine ⟨r, List.mem_of_getElem? hrow, hadm, ?_, fun _ => ?_⟩
  · rw [hmask, he]
    exact (maskU_iff _ _ hm.1).mpr (p.2.2.trans hm.2)
  · rw [he]
    exact hb _ (p.2.1) (p.1)

theorem fitsJ {i : Instr} {rd : BitVec 5} {offset : BitVec 21} {opcode : BitVec 7} (n : Nat) {r : Row}
    (hrow : opcodeTable[n]? = some r) (hadm : r.admitted = i.admitted) (hmask : r.mask = 0x0000007F)
    (he : encode i = encJ offset rd opcode)
    (hev : i.offsetEven = !offset.getLsbD 0)
    (hm : r.mtch &&& 0x0000007F = r.mtch ∧ opcode = r.mtch.extractLsb' 0 7)
    (hb : ∀ w, fieldRd w = rd → fieldImmJ w = offset → r.build w = i) : Statement i := by
  have p := encJ_parts offset rd opcode
  refine ⟨r, List.mem_of_getElem? hrow, hadm, ?_, fun hoff => ?_⟩
  · rw [hmask, he]
    exact (maskU_iff _ _ hm.1).mpr (p.2.2.2.2.2.trans hm.2)
  · have ho : offset.getLsbD 0 = false := by rw [hev] at hoff; simpa using hoff
    rw [he]
    exact hb _ (p.2.2.2.2.1) (fieldImmJ_encJ _ _ _ ho)

/-- The mask of `fence` keeps exactly what is fixed (R170). -/
theorem encode_fence (pred succ : BitVec 4) :
    encode (.fence pred succ) &&& 0xF00FFFFF = 0x0000000F ∧ fieldPred (encode (.fence pred succ)) = pred ∧
    fieldSucc (encode (.fence pred succ)) = succ := by
  revert pred succ; decide

/-! ## The instructions, in the order of the table -/

theorem lui (rd : RegId) (imm : BitVec 20) : Statement (.lui rd imm) :=
  fitsU 0 rfl rfl rfl rfl (by decide) (by rintro w rfl rfl; rfl)

theorem auipc (rd : RegId) (imm : BitVec 20) : Statement (.auipc rd imm) :=
  fitsU 1 rfl rfl rfl rfl (by decide) (by rintro w rfl rfl; rfl)

theorem jal (rd : RegId) (offset : BitVec 21) : Statement (.jal rd offset) :=
  fitsJ 2 rfl rfl rfl rfl rfl (by decide) (by rintro w rfl rfl; rfl)

theorem jalr (rd : RegId) (rs1 : RegId) (imm : BitVec 12) : Statement (.jalr rd rs1 imm) :=
  fitsI 3 rfl rfl rfl rfl (by decide) (by rintro w rfl rfl rfl; rfl)

theorem beq (rs1 : RegId) (rs2 : RegId) (offset : BitVec 13) : Statement (.beq rs1 rs2 offset) :=
  fitsB 4 rfl rfl rfl rfl rfl (by decide) (by rintro w rfl rfl rfl; rfl)

theorem bne (rs1 : RegId) (rs2 : RegId) (offset : BitVec 13) : Statement (.bne rs1 rs2 offset) :=
  fitsB 5 rfl rfl rfl rfl rfl (by decide) (by rintro w rfl rfl rfl; rfl)

theorem blt (rs1 : RegId) (rs2 : RegId) (offset : BitVec 13) : Statement (.blt rs1 rs2 offset) :=
  fitsB 6 rfl rfl rfl rfl rfl (by decide) (by rintro w rfl rfl rfl; rfl)

theorem bge (rs1 : RegId) (rs2 : RegId) (offset : BitVec 13) : Statement (.bge rs1 rs2 offset) :=
  fitsB 7 rfl rfl rfl rfl rfl (by decide) (by rintro w rfl rfl rfl; rfl)

theorem bltu (rs1 : RegId) (rs2 : RegId) (offset : BitVec 13) : Statement (.bltu rs1 rs2 offset) :=
  fitsB 8 rfl rfl rfl rfl rfl (by decide) (by rintro w rfl rfl rfl; rfl)

theorem bgeu (rs1 : RegId) (rs2 : RegId) (offset : BitVec 13) : Statement (.bgeu rs1 rs2 offset) :=
  fitsB 9 rfl rfl rfl rfl rfl (by decide) (by rintro w rfl rfl rfl; rfl)

theorem lb (rd : RegId) (rs1 : RegId) (imm : BitVec 12) : Statement (.lb rd rs1 imm) :=
  fitsI 10 rfl rfl rfl rfl (by decide) (by rintro w rfl rfl rfl; rfl)

theorem lh (rd : RegId) (rs1 : RegId) (imm : BitVec 12) : Statement (.lh rd rs1 imm) :=
  fitsI 11 rfl rfl rfl rfl (by decide) (by rintro w rfl rfl rfl; rfl)

theorem lw (rd : RegId) (rs1 : RegId) (imm : BitVec 12) : Statement (.lw rd rs1 imm) :=
  fitsI 12 rfl rfl rfl rfl (by decide) (by rintro w rfl rfl rfl; rfl)

theorem lbu (rd : RegId) (rs1 : RegId) (imm : BitVec 12) : Statement (.lbu rd rs1 imm) :=
  fitsI 13 rfl rfl rfl rfl (by decide) (by rintro w rfl rfl rfl; rfl)

theorem lhu (rd : RegId) (rs1 : RegId) (imm : BitVec 12) : Statement (.lhu rd rs1 imm) :=
  fitsI 14 rfl rfl rfl rfl (by decide) (by rintro w rfl rfl rfl; rfl)

theorem sb (rs2 : RegId) (rs1 : RegId) (imm : BitVec 12) : Statement (.sb rs2 rs1 imm) :=
  fitsS 15 rfl rfl rfl rfl (by decide) (by rintro w rfl rfl rfl; rfl)

theorem sh (rs2 : RegId) (rs1 : RegId) (imm : BitVec 12) : Statement (.sh rs2 rs1 imm) :=
  fitsS 16 rfl rfl rfl rfl (by decide) (by rintro w rfl rfl rfl; rfl)

theorem sw (rs2 : RegId) (rs1 : RegId) (imm : BitVec 12) : Statement (.sw rs2 rs1 imm) :=
  fitsS 17 rfl rfl rfl rfl (by decide) (by rintro w rfl rfl rfl; rfl)

theorem addi (rd : RegId) (rs1 : RegId) (imm : BitVec 12) : Statement (.addi rd rs1 imm) :=
  fitsI 18 rfl rfl rfl rfl (by decide) (by rintro w rfl rfl rfl; rfl)

theorem slti (rd : RegId) (rs1 : RegId) (imm : BitVec 12) : Statement (.slti rd rs1 imm) :=
  fitsI 19 rfl rfl rfl rfl (by decide) (by rintro w rfl rfl rfl; rfl)

theorem sltiu (rd : RegId) (rs1 : RegId) (imm : BitVec 12) : Statement (.sltiu rd rs1 imm) :=
  fitsI 20 rfl rfl rfl rfl (by decide) (by rintro w rfl rfl rfl; rfl)

theorem xori (rd : RegId) (rs1 : RegId) (imm : BitVec 12) : Statement (.xori rd rs1 imm) :=
  fitsI 21 rfl rfl rfl rfl (by decide) (by rintro w rfl rfl rfl; rfl)

theorem ori (rd : RegId) (rs1 : RegId) (imm : BitVec 12) : Statement (.ori rd rs1 imm) :=
  fitsI 22 rfl rfl rfl rfl (by decide) (by rintro w rfl rfl rfl; rfl)

theorem andi (rd : RegId) (rs1 : RegId) (imm : BitVec 12) : Statement (.andi rd rs1 imm) :=
  fitsI 23 rfl rfl rfl rfl (by decide) (by rintro w rfl rfl rfl; rfl)

theorem slli (rd : RegId) (rs1 : RegId) (shamt : BitVec 5) : Statement (.slli rd rs1 shamt) :=
  fitsR 24 rfl rfl rfl rfl (by decide) (by rintro w rfl rfl rfl; rfl)

theorem srli (rd : RegId) (rs1 : RegId) (shamt : BitVec 5) : Statement (.srli rd rs1 shamt) :=
  fitsR 25 rfl rfl rfl rfl (by decide) (by rintro w rfl rfl rfl; rfl)

theorem srai (rd : RegId) (rs1 : RegId) (shamt : BitVec 5) : Statement (.srai rd rs1 shamt) :=
  fitsR 26 rfl rfl rfl rfl (by decide) (by rintro w rfl rfl rfl; rfl)

theorem add (rd : RegId) (rs1 : RegId) (rs2 : RegId) : Statement (.add rd rs1 rs2) :=
  fitsR 27 rfl rfl rfl rfl (by decide) (by rintro w rfl rfl rfl; rfl)

theorem sub (rd : RegId) (rs1 : RegId) (rs2 : RegId) : Statement (.sub rd rs1 rs2) :=
  fitsR 28 rfl rfl rfl rfl (by decide) (by rintro w rfl rfl rfl; rfl)

theorem sll (rd : RegId) (rs1 : RegId) (rs2 : RegId) : Statement (.sll rd rs1 rs2) :=
  fitsR 29 rfl rfl rfl rfl (by decide) (by rintro w rfl rfl rfl; rfl)

theorem slt (rd : RegId) (rs1 : RegId) (rs2 : RegId) : Statement (.slt rd rs1 rs2) :=
  fitsR 30 rfl rfl rfl rfl (by decide) (by rintro w rfl rfl rfl; rfl)

theorem sltu (rd : RegId) (rs1 : RegId) (rs2 : RegId) : Statement (.sltu rd rs1 rs2) :=
  fitsR 31 rfl rfl rfl rfl (by decide) (by rintro w rfl rfl rfl; rfl)

theorem xor (rd : RegId) (rs1 : RegId) (rs2 : RegId) : Statement (.xor rd rs1 rs2) :=
  fitsR 32 rfl rfl rfl rfl (by decide) (by rintro w rfl rfl rfl; rfl)

theorem srl (rd : RegId) (rs1 : RegId) (rs2 : RegId) : Statement (.srl rd rs1 rs2) :=
  fitsR 33 rfl rfl rfl rfl (by decide) (by rintro w rfl rfl rfl; rfl)

theorem sra (rd : RegId) (rs1 : RegId) (rs2 : RegId) : Statement (.sra rd rs1 rs2) :=
  fitsR 34 rfl rfl rfl rfl (by decide) (by rintro w rfl rfl rfl; rfl)

theorem or (rd : RegId) (rs1 : RegId) (rs2 : RegId) : Statement (.or rd rs1 rs2) :=
  fitsR 35 rfl rfl rfl rfl (by decide) (by rintro w rfl rfl rfl; rfl)

theorem and (rd : RegId) (rs1 : RegId) (rs2 : RegId) : Statement (.and rd rs1 rs2) :=
  fitsR 36 rfl rfl rfl rfl (by decide) (by rintro w rfl rfl rfl; rfl)

theorem fence (pred : BitVec 4) (succ : BitVec 4) : Statement (.fence pred succ) :=
  ⟨_, List.mem_of_getElem? (i := 37) rfl, rfl, (encode_fence pred succ).1,
    fun _ => congrArg₂ Instr.fence (encode_fence pred succ).2.1 (encode_fence pred succ).2.2⟩

theorem fenceI : Statement (.fenceI) :=
  ⟨_, List.mem_of_getElem? (i := 38) rfl, rfl, rfl, fun _ => rfl⟩

theorem ecall : Statement (.ecall) :=
  ⟨_, List.mem_of_getElem? (i := 39) rfl, rfl, rfl, fun _ => rfl⟩

theorem ebreak : Statement (.ebreak) :=
  ⟨_, List.mem_of_getElem? (i := 40) rfl, rfl, rfl, fun _ => rfl⟩

theorem csrrw (rd : RegId) (csr : CsrAddr) (rs1 : RegId) : Statement (.csrrw rd csr rs1) :=
  fitsI 41 rfl rfl rfl rfl (by decide) (by rintro w rfl rfl rfl; rfl)

theorem csrrs (rd : RegId) (csr : CsrAddr) (rs1 : RegId) : Statement (.csrrs rd csr rs1) :=
  fitsI 42 rfl rfl rfl rfl (by decide) (by rintro w rfl rfl rfl; rfl)

theorem csrrc (rd : RegId) (csr : CsrAddr) (rs1 : RegId) : Statement (.csrrc rd csr rs1) :=
  fitsI 43 rfl rfl rfl rfl (by decide) (by rintro w rfl rfl rfl; rfl)

theorem csrrwi (rd : RegId) (csr : CsrAddr) (zimm : BitVec 5) : Statement (.csrrwi rd csr zimm) :=
  fitsI 44 rfl rfl rfl rfl (by decide) (by rintro w rfl rfl rfl; rfl)

theorem csrrsi (rd : RegId) (csr : CsrAddr) (zimm : BitVec 5) : Statement (.csrrsi rd csr zimm) :=
  fitsI 45 rfl rfl rfl rfl (by decide) (by rintro w rfl rfl rfl; rfl)

theorem csrrci (rd : RegId) (csr : CsrAddr) (zimm : BitVec 5) : Statement (.csrrci rd csr zimm) :=
  fitsI 46 rfl rfl rfl rfl (by decide) (by rintro w rfl rfl rfl; rfl)

theorem mul (rd : RegId) (rs1 : RegId) (rs2 : RegId) : Statement (.mul rd rs1 rs2) :=
  fitsR 47 rfl rfl rfl rfl (by decide) (by rintro w rfl rfl rfl; rfl)

theorem mulh (rd : RegId) (rs1 : RegId) (rs2 : RegId) : Statement (.mulh rd rs1 rs2) :=
  fitsR 48 rfl rfl rfl rfl (by decide) (by rintro w rfl rfl rfl; rfl)

theorem mulhsu (rd : RegId) (rs1 : RegId) (rs2 : RegId) : Statement (.mulhsu rd rs1 rs2) :=
  fitsR 49 rfl rfl rfl rfl (by decide) (by rintro w rfl rfl rfl; rfl)

theorem mulhu (rd : RegId) (rs1 : RegId) (rs2 : RegId) : Statement (.mulhu rd rs1 rs2) :=
  fitsR 50 rfl rfl rfl rfl (by decide) (by rintro w rfl rfl rfl; rfl)

theorem div (rd : RegId) (rs1 : RegId) (rs2 : RegId) : Statement (.div rd rs1 rs2) :=
  fitsR 51 rfl rfl rfl rfl (by decide) (by rintro w rfl rfl rfl; rfl)

theorem divu (rd : RegId) (rs1 : RegId) (rs2 : RegId) : Statement (.divu rd rs1 rs2) :=
  fitsR 52 rfl rfl rfl rfl (by decide) (by rintro w rfl rfl rfl; rfl)

theorem rem (rd : RegId) (rs1 : RegId) (rs2 : RegId) : Statement (.rem rd rs1 rs2) :=
  fitsR 53 rfl rfl rfl rfl (by decide) (by rintro w rfl rfl rfl; rfl)

theorem remu (rd : RegId) (rs1 : RegId) (rs2 : RegId) : Statement (.remu rd rs1 rs2) :=
  fitsR 54 rfl rfl rfl rfl (by decide) (by rintro w rfl rfl rfl; rfl)

theorem lwu (rd : RegId) (rs1 : RegId) (imm : BitVec 12) : Statement (.lwu rd rs1 imm) :=
  fitsI 55 rfl rfl rfl rfl (by decide) (by rintro w rfl rfl rfl; rfl)

theorem ld (rd : RegId) (rs1 : RegId) (imm : BitVec 12) : Statement (.ld rd rs1 imm) :=
  fitsI 56 rfl rfl rfl rfl (by decide) (by rintro w rfl rfl rfl; rfl)

theorem sd (rs2 : RegId) (rs1 : RegId) (imm : BitVec 12) : Statement (.sd rs2 rs1 imm) :=
  fitsS 57 rfl rfl rfl rfl (by decide) (by rintro w rfl rfl rfl; rfl)

theorem addiw (rd : RegId) (rs1 : RegId) (imm : BitVec 12) : Statement (.addiw rd rs1 imm) :=
  fitsI 58 rfl rfl rfl rfl (by decide) (by rintro w rfl rfl rfl; rfl)

end Sys2Proof.Laws.EncodingFitsRow
end

