-- ==== Sys2Proof/Tests/Slice0.lean ====
section
/-! SUPPORT. Tests: the ill-formed terms, a written-out word for every constructor, one step on a small state with the result the spec's
own vectors give (spec/95_test_vectors.md part 3, cited as 3.1 to 3.13), and for every statement a state and operands that meet its
hypotheses. The expected values come from spec/ and from hand calculation, none from the model. -/

namespace Sys2Proof.Tests

open Sys2Proof.Machine

/-! ## Well-formedness: one ill-formed term for each check -/

theorem test_wellFormed_refuses_lwu : (Instr.lwu 3 5 0).wellFormed = false := by decide
theorem test_wellFormed_refuses_ld : (Instr.ld 3 5 0).wellFormed = false := by decide
theorem test_wellFormed_refuses_sd : (Instr.sd 6 5 0).wellFormed = false := by decide
theorem test_wellFormed_refuses_addiw : (Instr.addiw 3 1 1).wellFormed = false := by decide
theorem test_wellFormed_refuses_odd_jal : (Instr.jal 1 17).wellFormed = false := by decide
theorem test_wellFormed_refuses_odd_branches :
    [Instr.beq 1 2 3, .bne 1 2 3, .blt 1 2 3, .bge 1 2 3, .bltu 1 2 3, .bgeu 1 2 3].all (fun i => !i.wellFormed) = true := by decide
theorem test_wellFormed_accepts : [Instr.jal 1 16, .beq 1 2 (-4096), .lw 3 5 (-4), .ecall].all Instr.wellFormed = true := by decide

/-! ## Decoding

First one word or more of each family with its bits written out from the encodings of spec/30_encoding.md and part 2.1 of
spec/95_test_vectors.md, then a word of every constructor. -/

/-- `add x3,x1,x2`: funct7, rs2, rs1, funct3, rd, opcode (R71). -/
theorem test_decode_bits_add : decode 0b0000000_00010_00001_000_00011_0110011 = .ok (.add 3 1 2) := by decide
/-- `mulhsu x3,x1,x2` (R71). -/
theorem test_decode_bits_mulhsu : decode 0b0000001_00010_00001_010_00011_0110011 = .ok (.mulhsu 3 1 2) := by decide
/-- `addi x5,x6,-1`: imm[11:0], rs1, funct3, rd, opcode (R72). -/
theorem test_decode_bits_addi : decode 0b111111111111_00110_000_00101_0010011 = .ok (.addi 5 6 (-1)) := by decide
/-- `srai x3,x1,4`: bit 30 set, shamt in bits 24:20 (R77). -/
theorem test_decode_bits_srai : decode 0b0100000_00100_00001_101_00011_0010011 = .ok (.srai 3 1 4) := by decide
/-- `lh x3,2(x5)` (R72). -/
theorem test_decode_bits_lh : decode 0b000000000010_00101_001_00011_0000011 = .ok (.lh 3 5 2) := by decide
/-- `sw x6,-4(x5)`: imm[11:5], rs2, rs1, funct3, imm[4:0], opcode (R73). -/
theorem test_decode_bits_sw : decode 0b1111111_00110_00101_010_11100_0100011 = .ok (.sw 6 5 (-4)) := by decide
/-- `bne x1,x2,-8`: imm[12], imm[10:5], rs2, rs1, funct3, imm[4:1], imm[11], opcode (R74). -/
theorem test_decode_bits_bne : decode 0b1_111111_00010_00001_001_1100_1_1100011 = .ok (.bne 1 2 (-8)) := by decide
/-- `beq x0,x0,2048`: only imm[11], instruction bit 7, is set (R74). -/
theorem test_decode_bits_beq : decode 0b0_000000_00000_00000_000_0000_1_1100011 = .ok (.beq 0 0 2048) := by decide
/-- `lui x5,0xDEADC`: imm[31:12], rd, opcode (R75). -/
theorem test_decode_bits_lui : decode 0b11011110101011011100_00101_0110111 = .ok (.lui 5 0xDEADC) := by decide
/-- `jal x1,2048`: only imm[11], instruction bit 20, is set (R76). -/
theorem test_decode_bits_jal : decode 0b0_0000000000_1_00000000_00001_1101111 = .ok (.jal 1 2048) := by decide
/-- `jal x0,4096`: only imm[12], instruction bit 12, is set (R76). -/
theorem test_decode_bits_jal_low : decode 0b0_0000000000_0_00000001_00000_1101111 = .ok (.jal 0 4096) := by decide
/-- `fence rw,rw`: 0000, pred, succ, zeros (R170). -/
theorem test_decode_bits_fence : decode 0b0000_0011_0011_00000_000_00000_0001111 = .ok (.fence 3 3) := by decide
/-- `csrrwi x5,0x340,17`: csr, zimm, funct3, rd, opcode (R174). -/
theorem test_decode_bits_csrrwi : decode 0b001101000000_10001_101_00101_1110011 = .ok (.csrrwi 5 0x340 17) := by decide

theorem test_decode_lui : decodeTableWord 32 0xDEADC2B7 = some (.lui 5 0xDEADC) := by decide
theorem test_decode_auipc : decodeTableWord 32 0x80000297 = some (.auipc 5 0x80000) := by decide
theorem test_decode_jal : decodeTableWord 32 0xFF1FF0EF = some (.jal 1 (-16)) := by decide
theorem test_decode_jalr : decodeTableWord 32 0x800280E7 = some (.jalr 1 5 (-2048)) := by decide
theorem test_decode_beq : decodeTableWord 32 0x80000063 = some (.beq 0 0 (-4096)) := by decide
theorem test_decode_bne : decodeTableWord 32 0xFE209CE3 = some (.bne 1 2 (-8)) := by decide
theorem test_decode_blt : decodeTableWord 32 0x0020C863 = some (.blt 1 2 16) := by decide
theorem test_decode_bge : decodeTableWord 32 0x00535863 = some (.bge 6 5 16) := by decide
theorem test_decode_bltu : decodeTableWord 32 0x0020E863 = some (.bltu 1 2 16) := by decide
theorem test_decode_bgeu : decodeTableWord 32 0x0020F863 = some (.bgeu 1 2 16) := by decide
theorem test_decode_lb : decodeTableWord 32 0x00128183 = some (.lb 3 5 1) := by decide
theorem test_decode_lh : decodeTableWord 32 0x00229183 = some (.lh 3 5 2) := by decide
theorem test_decode_lw : decodeTableWord 32 0xFFC2A183 = some (.lw 3 5 (-4)) := by decide
theorem test_decode_lbu : decodeTableWord 32 0x0032C183 = some (.lbu 3 5 3) := by decide
theorem test_decode_lhu : decodeTableWord 32 0x0032D183 = some (.lhu 3 5 3) := by decide
theorem test_decode_sb : decodeTableWord 32 0x006281A3 = some (.sb 6 5 3) := by decide
theorem test_decode_sh : decodeTableWord 32 0x00629123 = some (.sh 6 5 2) := by decide
theorem test_decode_sw : decodeTableWord 32 0x7E62AFA3 = some (.sw 6 5 2047) := by decide
theorem test_decode_addi : decodeTableWord 32 0x80030293 = some (.addi 5 6 (-2048)) := by decide
theorem test_decode_slti : decodeTableWord 32 0xFFF0A193 = some (.slti 3 1 (-1)) := by decide
theorem test_decode_sltiu : decodeTableWord 32 0x8000B193 = some (.sltiu 3 1 (-2048)) := by decide
theorem test_decode_xori : decodeTableWord 32 0x5550C193 = some (.xori 3 1 1365) := by decide
theorem test_decode_ori : decodeTableWord 32 0x7FF0E193 = some (.ori 3 1 2047) := by decide
theorem test_decode_andi : decodeTableWord 32 0xFF00F193 = some (.andi 3 1 (-16)) := by decide
theorem test_decode_slli : decodeTableWord 32 0x01F09193 = some (.slli 3 1 31) := by decide
theorem test_decode_srli : decodeTableWord 32 0x0040D193 = some (.srli 3 1 4) := by decide
theorem test_decode_srai : decodeTableWord 32 0x41F0D193 = some (.srai 3 1 31) := by decide
theorem test_decode_add : decodeTableWord 32 0x002081B3 = some (.add 3 1 2) := by decide
theorem test_decode_sub : decodeTableWord 32 0x402081B3 = some (.sub 3 1 2) := by decide
theorem test_decode_sll : decodeTableWord 32 0x002091B3 = some (.sll 3 1 2) := by decide
theorem test_decode_slt : decodeTableWord 32 0x0020A1B3 = some (.slt 3 1 2) := by decide
theorem test_decode_sltu : decodeTableWord 32 0x0020B1B3 = some (.sltu 3 1 2) := by decide
theorem test_decode_xor : decodeTableWord 32 0x0020C1B3 = some (.xor 3 1 2) := by decide
theorem test_decode_srl : decodeTableWord 32 0x0020D1B3 = some (.srl 3 1 2) := by decide
theorem test_decode_sra : decodeTableWord 32 0x4020D1B3 = some (.sra 3 1 2) := by decide
theorem test_decode_or : decodeTableWord 32 0x0020E1B3 = some (.or 3 1 2) := by decide
theorem test_decode_and : decodeTableWord 32 0x0020F1B3 = some (.and 3 1 2) := by decide
theorem test_decode_fence : decodeTableWord 32 0x0FF0000F = some (.fence 15 15) := by decide
theorem test_decode_fenceI : decodeTableWord 32 0x0000100F = some (.fenceI) := by decide
theorem test_decode_ecall : decodeTableWord 32 0x00000073 = some (.ecall) := by decide
theorem test_decode_ebreak : decodeTableWord 32 0x00100073 = some (.ebreak) := by decide
theorem test_decode_csrrw : decodeTableWord 32 0x340312F3 = some (.csrrw 5 0x340 6) := by decide
theorem test_decode_csrrs : decodeTableWord 32 0xC00022F3 = some (.csrrs 5 0xC00 0) := by decide
theorem test_decode_csrrc : decodeTableWord 32 0x300332F3 = some (.csrrc 5 0x300 6) := by decide
theorem test_decode_csrrwi : decodeTableWord 32 0x340FD073 = some (.csrrwi 0 0x340 31) := by decide
theorem test_decode_csrrsi : decodeTableWord 32 0x300462F3 = some (.csrrsi 5 0x300 8) := by decide
theorem test_decode_csrrci : decodeTableWord 32 0x300472F3 = some (.csrrci 5 0x300 8) := by decide
theorem test_decode_mul : decodeTableWord 32 0x022081B3 = some (.mul 3 1 2) := by decide
theorem test_decode_mulh : decodeTableWord 32 0x022091B3 = some (.mulh 3 1 2) := by decide
theorem test_decode_mulhsu : decodeTableWord 32 0x0220A1B3 = some (.mulhsu 3 1 2) := by decide
theorem test_decode_mulhu : decodeTableWord 32 0x0220B1B3 = some (.mulhu 3 1 2) := by decide
theorem test_decode_div : decodeTableWord 32 0x0220C1B3 = some (.div 3 1 2) := by decide
theorem test_decode_divu : decodeTableWord 32 0x0220D1B3 = some (.divu 3 1 2) := by decide
theorem test_decode_rem : decodeTableWord 32 0x0220E1B3 = some (.rem 3 1 2) := by decide
theorem test_decode_remu : decodeTableWord 32 0x0220F1B3 = some (.remu 3 1 2) := by decide

/-- The words of the four RV64I rows decode to nothing (3.13). -/
theorem test_decode_rv64_rows :
    [0x0002E183, 0x0002B183, 0x0062B023, 0x0010819B].all (fun w => (decodeTableWord 32 w).isNone) = true := by decide
/-- Reserved neighbours of admitted rows decode to nothing: funct3 011 of a branch, funct7 0100000 of sll, a fence with rd, `wfi` (3.7,
3.10, 3.12). -/
theorem test_decode_reserved :
    [0x00003463, 0x402091B3, 0x0FF0008F, 0x10500073].all (fun w => (decodeTableWord 32 w).isNone) = true := by decide
/-- A word of each floating-point opcode refuses, and the all-ones word is illegal (3.13). -/
theorem test_decode_floatingPoint :
    [0x00002007, 0x00002027, 0x00000043, 0x00000047, 0x0000004B, 0x0000004F, 0x00000053].all
      (fun w => decide (decode w = .error .floatingPointNotSpecified)) = true := by decide
theorem test_decode_all_ones : decode 0xFFFFFFFF = .error (.illegalInstruction 0xFFFFFFFF) := by decide
/-- Three bytes are no instruction, and a fourth byte is left for the next. -/
theorem test_decodeBytes_truncated : decodeBytes [0x13, 0, 0] = .error .truncated := by decide
theorem test_decodeBytes_rest : decodeBytes [0xB3, 0x81, 0x20, 0x00, 0x7F] = .ok (.add 3 1 2, [0x7F]) := by decide
/-- The encoder gives the words the spec prints (2.1, 3.9). -/
theorem test_encode : encode (.sw 6 5 (-4)) = 0xFE62AE23 ∧ encode (.jal 1 (-16)) = 0xFF1FF0EF ∧ encode (.csrrs 5 0xC00 0) = 0xC00022F3 := by
  decide

/-! ## One step

A state has a pc, registers, bytes of memory and a limit below which every byte is backed; the word is placed at the pc. -/

/-- A small state. -/
def before (pc : Word) (rs : List (RegId × Word)) (ms : List (Nat × List Byte) := []) (limit : Nat := 2 ^ 32) : State :=
  let s := rs.foldl (fun s p => s.writeReg p.1 p.2) (State.reset.setPc pc)
  { s with
    mem := ms.foldl (fun m p => m.setBytes p.1 p.2) s.mem
    config := { s.config with memMap := [{ base := 0, size := limit }] } }

/-- The state with that word at its pc. -/
def placed (s : State) (w : Nat) : State := s.withFetchWord 32 w

/-- The step gives a next state with this pc, these registers and these bytes. -/
def gives (o : Host.Outcome State Fault Refusal) (pc : Word) (rs : List (RegId × Word)) (ms : List (Nat × List Byte) := []) : Bool :=
  match o with
  | .next t => t.pc == pc && rs.all (fun p => t.readReg p.1 == p.2) && ms.all fun p => t.mem.getBytes p.1 p.2.length == p.2
  | _ => false

/-- The step raises this exception. -/
def raises (o : Host.Outcome State Fault Refusal) (f : Fault) : Bool :=
  match o with
  | .fault g => decide (g = f)
  | _ => false

/-- The bytes at 0x2000 of 3.8. -/
def loadBytes : List (Nat × List Byte) := [(0x2000, [0x78, 0x80, 0x34, 0xF2])]

/-! 3.1 -/

theorem test_step_add :
    gives (step (placed (before 0x1000 [(1, 0xFFFFFFFF), (2, 0x00000001)]) 0x002081B3)) 0x00001004 [(3, 0x00000000)] = true := by decide
theorem test_step_add_second :
    gives (step (placed (before 0x1000 [(1, 0x00000005), (2, 0x00000006)]) 0x00208033)) 0x00001004 [(0, 0)] = true := by decide
theorem test_step_sub :
    gives (step (placed (before 0x1000 [(1, 0x00000000), (2, 0x00000001)]) 0x402081B3)) 0x00001004 [(3, 0xFFFFFFFF)] = true := by decide
theorem test_step_sub_second :
    gives (step (placed (before 0x1000 [(2, 0x80000000)]) 0x402001B3)) 0x00001004 [(3, 0x80000000)] = true := by decide
theorem test_step_and :
    gives (step (placed (before 0x1000 [(1, 0xF0F0A5A5), (2, 0x0FF0FFFF)]) 0x0020F1B3)) 0x00001004 [(3, 0x00F0A5A5)] = true := by decide
theorem test_step_or :
    gives (step (placed (before 0x1000 [(1, 0xF0F00000), (2, 0x0FF0000F)]) 0x0020E1B3)) 0x00001004 [(3, 0xFFF0000F)] = true := by decide
theorem test_step_xor :
    gives (step (placed (before 0x1000 [(1, 0xFFFF0000), (2, 0x0FF00FF0)]) 0x0020C1B3)) 0x00001004 [(3, 0xF00F0FF0)] = true := by decide
/-! 3.2 -/

theorem test_step_addi :
    gives (step (placed (before 0x1000 [(6, 0x7FFFF801)]) 0x7FF30293)) 0x00001004 [(5, 0x80000000)] = true := by decide
theorem test_step_addi_second :
    gives (step (placed (before 0x1000 [(6, 0x00000800)]) 0x80030293)) 0x00001004 [(5, 0x00000000)] = true := by decide
theorem test_step_andi :
    gives (step (placed (before 0x1000 [(1, 0x12345678)]) 0xFF00F193)) 0x00001004 [(3, 0x12345670)] = true := by decide
theorem test_step_ori :
    gives (step (placed (before 0x1000 [(1, 0x00000001)]) 0x8000E193)) 0x00001004 [(3, 0xFFFFF801)] = true := by decide
theorem test_step_xori :
    gives (step (placed (before 0x1000 [(1, 0x12345678)]) 0xFFF0C193)) 0x00001004 [(3, 0xEDCBA987)] = true := by decide
/-! 3.3 -/

theorem test_step_slt :
    gives (step (placed (before 0x1000 [(1, 0xFFFFFFFF), (2, 0x00000001)]) 0x0020A1B3)) 0x00001004 [(3, 0x00000001)] = true := by decide
theorem test_step_slt_second :
    gives (step (placed (before 0x1000 [(1, 0x00000001), (2, 0xFFFFFFFF)]) 0x0020A1B3)) 0x00001004 [(3, 0x00000000)] = true := by decide
theorem test_step_sltu :
    gives (step (placed (before 0x1000 [(1, 0xFFFFFFFF), (2, 0x00000001)]) 0x0020B1B3)) 0x00001004 [(3, 0x00000000)] = true := by decide
theorem test_step_sltu_second :
    gives (step (placed (before 0x1000 [(1, 0x00000001), (2, 0xFFFFFFFF)]) 0x0020B1B3)) 0x00001004 [(3, 0x00000001)] = true := by decide
theorem test_step_slti :
    gives (step (placed (before 0x1000 [(1, 0xFFFFFFFE)]) 0xFFF0A193)) 0x00001004 [(3, 0x00000001)] = true := by decide
theorem test_step_slti_second :
    gives (step (placed (before 0x1000 [(1, 0x00000000)]) 0x8000A193)) 0x00001004 [(3, 0x00000000)] = true := by decide
theorem test_step_sltiu :
    gives (step (placed (before 0x1000 [(1, 0xFFFFFFFE)]) 0xFFF0B193)) 0x00001004 [(3, 0x00000001)] = true := by decide
theorem test_step_sltiu_second :
    gives (step (placed (before 0x1000 [(1, 0x00000800)]) 0x8000B193)) 0x00001004 [(3, 0x00000001)] = true := by decide
/-! 3.4 -/

theorem test_step_sll :
    gives (step (placed (before 0x1000 [(1, 0x80000001), (2, 0x00000021)]) 0x002091B3)) 0x00001004 [(3, 0x00000002)] = true := by decide
theorem test_step_sll_second :
    gives (step (placed (before 0x1000 [(1, 0xDEADBEEF), (2, 0x00000020)]) 0x002091B3)) 0x00001004 [(3, 0xDEADBEEF)] = true := by decide
theorem test_step_srl :
    gives (step (placed (before 0x1000 [(1, 0x80000000), (2, 0xFFFFFFE4)]) 0x0020D1B3)) 0x00001004 [(3, 0x08000000)] = true := by decide
theorem test_step_sra :
    gives (step (placed (before 0x1000 [(1, 0xF0000000), (2, 0x00000024)]) 0x4020D1B3)) 0x00001004 [(3, 0xFF000000)] = true := by decide
theorem test_step_sra_second :
    gives (step (placed (before 0x1000 [(1, 0x7FFFFFFF), (2, 0x0000001F)]) 0x4020D1B3)) 0x00001004 [(3, 0x00000000)] = true := by decide
theorem test_step_slli :
    gives (step (placed (before 0x1000 [(1, 0xF0000001)]) 0x00409193)) 0x00001004 [(3, 0x00000010)] = true := by decide
theorem test_step_slli_second :
    raises (step (placed (before 0x1000 [(1, 0x00000001)]) 0x02009193)) (.illegalInstruction 0x02009193) = true := by decide
theorem test_step_srli :
    gives (step (placed (before 0x1000 [(1, 0xF0000001)]) 0x0040D193)) 0x00001004 [(3, 0x0F000000)] = true := by decide
theorem test_step_srli_second :
    raises (step (placed (before 0x1000 [(1, 0x00000001)]) 0x0200D193)) (.illegalInstruction 0x0200D193) = true := by decide
theorem test_step_srai :
    gives (step (placed (before 0x1000 [(1, 0xF0000001)]) 0x4040D193)) 0x00001004 [(3, 0xFF000000)] = true := by decide
theorem test_step_srai_second :
    raises (step (placed (before 0x1000 [(1, 0x00000001)]) 0x4210D193)) (.illegalInstruction 0x4210D193) = true := by decide
/-! 3.5 -/

theorem test_step_lui :
    gives (step (placed (before 0x1000 []) 0xDEADC2B7)) 0x00001004 [(5, 0xDEADC000)] = true := by decide
theorem test_step_auipc :
    gives (step (placed (before 0x80001000 []) 0x80000297)) 0x80001004 [(5, 0x00001000)] = true := by decide
/-! 3.6 -/

theorem test_step_jal :
    gives (step (placed (before 0x1000 []) 0xFF1FF0EF)) 0x00000FF0 [(1, 0x00001004)] = true := by decide
theorem test_step_jal_second :
    raises (step (placed (before 0x1000 [(1, 0x11111111)]) 0x002000EF)) (.instructionAddressMisaligned 0x00001002) = true := by decide
theorem test_step_jalr :
    gives (step (placed (before 0x1000 [(1, 0x00002000)]) 0x000080E7)) 0x00002000 [(1, 0x00001004)] = true := by decide
theorem test_step_jalr_second :
    gives (step (placed (before 0x1000 [(5, 0x00002001)]) 0xFFF280E7)) 0x00002000 [(1, 0x00001004)] = true := by decide
/-! 3.7 -/

theorem test_step_beq :
    gives (step (placed (before 0x2000 []) 0x80000063)) 0x00001000 [] = true := by decide
theorem test_step_beq_second :
    raises (step (placed (before 0x1000 []) 0x00000163)) (.instructionAddressMisaligned 0x00001002) = true := by decide
theorem test_step_bne :
    gives (step (placed (before 0x1000 [(1, 0x00000005), (2, 0x00000006)]) 0xFE209CE3)) 0x00000FF8 [] = true := by decide
theorem test_step_bne_second :
    gives (step (placed (before 0x1000 []) 0x00001163)) 0x00001004 [] = true := by decide
theorem test_step_blt :
    gives (step (placed (before 0x1000 [(1, 0xFFFFFFFF), (2, 0x00000001)]) 0x0020C863)) 0x00001010 [] = true := by decide
theorem test_step_blt_second :
    gives (step (placed (before 0x1000 [(1, 0x00000003), (2, 0x00000003)]) 0x0020C863)) 0x00001004 [] = true := by decide
theorem test_step_bge :
    gives (step (placed (before 0x1000 [(1, 0x00000003), (2, 0x00000003)]) 0x0020D863)) 0x00001010 [] = true := by decide
theorem test_step_bge_second :
    gives (step (placed (before 0x1000 [(1, 0x80000000), (2, 0x00000000)]) 0x0020D863)) 0x00001004 [] = true := by decide
theorem test_step_bltu :
    gives (step (placed (before 0x1000 [(1, 0x00000001), (2, 0xFFFFFFFF)]) 0x0020E863)) 0x00001010 [] = true := by decide
theorem test_step_bltu_second :
    gives (step (placed (before 0x1000 [(1, 0xFFFFFFFF), (2, 0x00000001)]) 0x0020E863)) 0x00001004 [] = true := by decide
theorem test_step_bgeu :
    gives (step (placed (before 0x1000 [(1, 0x00000003), (2, 0x00000003)]) 0x0020F863)) 0x00001010 [] = true := by decide
theorem test_step_bgeu_second :
    gives (step (placed (before 0x1000 [(1, 0x00000001), (2, 0xFFFFFFFF)]) 0x0020F863)) 0x00001004 [] = true := by decide
/-! 3.8 -/

theorem test_step_lw :
    gives (step (placed (before 0x1000 [(5, 0x00002000)] loadBytes) 0x0002A283)) 0x00001004 [(5, 0xF2348078)] = true := by decide
theorem test_step_lw_second :
    raises (step (placed (before 0x1000 [(5, 0x00009000)] loadBytes 0x8000) 0x0012A183)) (.loadAddressMisaligned 0x00009001) = true := by
  decide
theorem test_step_lh :
    gives (step (placed (before 0x1000 [(5, 0x00002000)] loadBytes) 0x00229183)) 0x00001004 [(3, 0xFFFFF234)] = true := by decide
theorem test_step_lh_second :
    raises (step (placed (before 0x1000 [(5, 0x00002000)] loadBytes) 0x00129183)) (.loadAddressMisaligned 0x00002001) = true := by
  decide
theorem test_step_lhu :
    gives (step (placed (before 0x1000 [(5, 0x00002000)] loadBytes) 0x0022D183)) 0x00001004 [(3, 0x0000F234)] = true := by decide
theorem test_step_lhu_second :
    raises (step (placed (before 0x1000 [(5, 0x00002000)] loadBytes) 0x0032D183)) (.loadAddressMisaligned 0x00002003) = true := by
  decide
theorem test_step_lb :
    gives (step (placed (before 0x1000 [(5, 0x00002000)] loadBytes) 0x00128183)) 0x00001004 [(3, 0xFFFFFF80)] = true := by decide
theorem test_step_lbu :
    gives (step (placed (before 0x1000 [(5, 0x00002000)] loadBytes) 0x0032C183)) 0x00001004 [(3, 0x000000F2)] = true := by decide
/-! 3.9 -/

theorem test_step_sw :
    gives (step (placed (before 0x1000 [(5, 0x00002001), (6, 0x01020304)]) 0x7E62AFA3)) 0x00001004 [] [(0x2800, [0x04, 0x03, 0x02, 0x01])] = true := by
  decide
theorem test_step_sw_second :
    raises (step (placed (before 0x1000 [(5, 0x00009000), (6, 0x00000001)] [] 0x8000) 0x0062A023)) (.storeAccessFault 0x00009000) = true := by
  decide
theorem test_step_sh :
    raises (step (placed (before 0x1000 [(5, 0x00002000), (6, 0x00000001)]) 0x006290A3)) (.storeAddressMisaligned 0x00002001) = true := by
  decide
theorem test_step_sb :
    gives (step (placed (before 0x1000 [(5, 0x00002000)] [(0x2000, [0xFF])]) 0x00028023)) 0x00001004 [] [(0x2000, [0x00])] = true := by
  decide
theorem test_step_sb_second :
    gives (step (placed (before 0x1000 [(5, 0x00002000), (6, 0x12345678)]) 0x006281A3)) 0x00001004 [] [(0x2003, [0x78])] = true := by
  decide
/-! 3.10 -/

theorem test_step_fence :
    gives (step (placed (before 0x1000 []) 0x0FF0000F)) 0x00001004 [] = true := by decide
theorem test_step_fence_second :
    raises (step (placed (before 0x1000 []) 0x8330000F)) (.illegalInstruction 0x8330000F) = true := by decide
theorem test_step_fenceI :
    raises (step (placed (before 0x1000 []) 0x0010100F)) (.illegalInstruction 0x0010100F) = true := by decide
theorem test_step_ecall :
    raises (step (placed (before 0x1000 []) 0x00000073)) (.environmentCall 0x00000000) = true := by decide
theorem test_step_ebreak :
    raises (step (placed (before 0x1000 []) 0x00100073)) (.breakpoint 0x00001000) = true := by decide
theorem test_step_csrrw :
    raises (step (placed (before 0x1000 [(6, 0x00000001)]) 0x340312F3)) (.illegalInstruction 0x340312F3) = true := by decide
theorem test_step_csrrs :
    raises (step (placed (before 0x1000 []) 0xC00022F3)) (.illegalInstruction 0xC00022F3) = true := by decide
theorem test_step_csrrc :
    raises (step (placed (before 0x1000 [(6, 0x00000008)]) 0x300332F3)) (.illegalInstruction 0x300332F3) = true := by decide
theorem test_step_csrrwi :
    raises (step (placed (before 0x1000 []) 0x340FD073)) (.illegalInstruction 0x340FD073) = true := by decide
theorem test_step_csrrsi :
    raises (step (placed (before 0x1000 []) 0x300462F3)) (.illegalInstruction 0x300462F3) = true := by decide
theorem test_step_csrrci :
    raises (step (placed (before 0x1000 []) 0x300472F3)) (.illegalInstruction 0x300472F3) = true := by decide
/-! 3.11 -/

theorem test_step_mul :
    gives (step (placed (before 0x1000 [(1, 0x12345678), (2, 0x9ABCDEF0)]) 0x022081B3)) 0x00001004 [(3, 0x242D2080)] = true := by decide
theorem test_step_mulh :
    gives (step (placed (before 0x1000 [(1, 0x12345678), (2, 0x9ABCDEF0)]) 0x022091B3)) 0x00001004 [(3, 0xF8CC93D6)] = true := by decide
theorem test_step_mulh_second :
    gives (step (placed (before 0x1000 [(1, 0xFFFFFFFF), (2, 0xFFFFFFFF)]) 0x022091B3)) 0x00001004 [(3, 0x00000000)] = true := by decide
theorem test_step_mulhu :
    gives (step (placed (before 0x1000 [(1, 0x12345678), (2, 0x9ABCDEF0)]) 0x0220B1B3)) 0x00001004 [(3, 0x0B00EA4E)] = true := by decide
theorem test_step_mulhsu :
    gives (step (placed (before 0x1000 [(1, 0x80000000), (2, 0xFFFFFFFF)]) 0x0220A1B3)) 0x00001004 [(3, 0x80000000)] = true := by decide
theorem test_step_mulhsu_second :
    gives (step (placed (before 0x1000 [(1, 0x00000001), (2, 0xFFFFFFFF)]) 0x0220A1B3)) 0x00001004 [(3, 0x00000000)] = true := by decide
/-! 3.12 -/

theorem test_step_div :
    gives (step (placed (before 0x1000 [(1, 0xFFFFFFF9), (2, 0x00000003)]) 0x0220C1B3)) 0x00001004 [(3, 0xFFFFFFFE)] = true := by decide
theorem test_step_div_second :
    gives (step (placed (before 0x1000 [(1, 0x80000000), (2, 0xFFFFFFFF)]) 0x0220C1B3)) 0x00001004 [(3, 0x80000000)] = true := by decide
theorem test_step_divu :
    gives (step (placed (before 0x1000 [(1, 0xFFFFFFF9), (2, 0x00000003)]) 0x0220D1B3)) 0x00001004 [(3, 0x55555553)] = true := by decide
theorem test_step_divu_second :
    gives (step (placed (before 0x1000 [(1, 0x00000005), (2, 0x00000000)]) 0x0220D1B3)) 0x00001004 [(3, 0xFFFFFFFF)] = true := by decide
theorem test_step_rem :
    gives (step (placed (before 0x1000 [(1, 0xFFFFFFF9), (2, 0x00000003)]) 0x0220E1B3)) 0x00001004 [(3, 0xFFFFFFFF)] = true := by decide
theorem test_step_rem_second :
    gives (step (placed (before 0x1000 [(1, 0x80000000), (2, 0xFFFFFFFF)]) 0x0220E1B3)) 0x00001004 [(3, 0x00000000)] = true := by decide
theorem test_step_remu :
    gives (step (placed (before 0x1000 [(1, 0x80000000), (2, 0xFFFFFFFF)]) 0x0220F1B3)) 0x00001004 [(3, 0x80000000)] = true := by decide
theorem test_step_remu_second :
    gives (step (placed (before 0x1000 [(1, 0x00000005), (2, 0x00000000)]) 0x0220F1B3)) 0x00001004 [(3, 0x00000005)] = true := by decide
/-! 3.8 -/

theorem test_step_lwu :
    raises (step (placed (before 0x1000 [(5, 0x00002000)] loadBytes) 0x0002E183)) (.illegalInstruction 0x0002E183) = true := by decide
theorem test_step_ld :
    raises (step (placed (before 0x1000 [(5, 0x00002000)] loadBytes) 0x0002B183)) (.illegalInstruction 0x0002B183) = true := by decide
/-! 3.9 -/

theorem test_step_sd :
    raises (step (placed (before 0x1000 [(5, 0x00002000), (6, 0x00000001)]) 0x0062B023)) (.illegalInstruction 0x0062B023) = true := by
  decide
/-! 3.13 -/

theorem test_step_addiw :
    raises (step (placed (before 0x1000 [(1, 0x00000001)]) 0x0010819B)) (.illegalInstruction 0x0010819B) = true := by decide

/-! 3.13: the fetch -/

/-- At 0xFFFFFFFC an instruction executes and pc wraps to 0 (R25). -/
theorem test_step_at_the_top : gives (step (placed (before 0xFFFFFFFC []) 0x00000013)) 0 [] = true := by decide
theorem test_step_misaligned_pc : raises (step (before 0x1002 [])) (.instructionAddressMisaligned 0x1002) = true := by decide
theorem test_step_partly_backed_fetch : raises (step (before 0x7FFC [] [] 0x7FFE)) (.instructionAccessFault 0x7FFC) = true := by decide
theorem test_step_stale : raises (step { before 0x1000 [] with stale := [0x1003] }) (.staleFetch 0x1000) = true := by decide
/-- `fence.i` empties StaleSet (R171). -/
theorem test_step_fenceI_empties :
    (match step (placed { before 0x1000 [] with stale := [0x2000, 0x2001] } 0x0000100F) with
      | .next t => t.stale == []
      | _ => false) = true := by decide
/-- `sh x6,2(x5)` (3.9) stores the low half and marks exactly its bytes (R44). -/
theorem test_step_sh_marks :
    (match step (placed (before 0x1000 [(5, 0x2000), (6, 0x12345678)]) 0x00629123) with
      | .next t => t.mem.getBytes 0x2002 2 == [0x78, 0x56] && t.stale == [0x2002, 0x2003]
      | _ => false) = true := by decide
/-- A floating-point word refuses (R203). -/
theorem test_step_floatingPoint :
    (match step (placed State.reset 0x00002007) with
      | .refused r => decide (r = .floatingPointNotSpecified)
      | _ => false) = true := by decide
/-- From reset with nothing loaded the first word is 0, which is illegal (log 7). -/
theorem test_step_from_reset : raises (step State.reset) (.illegalInstruction 0) = true := by decide

/-! 43_system.md section 3: a machine that is handed a CSR file -/

/-- A writable CSR 0x340 holding 7 and a read-only CSR 0xC00 holding 9. -/
def withCsrs : State :=
  { before 0x1000 [(5, 0x11), (6, 0x22)] with
    csrs := [{ addr := 0x340, readOnly := false, value := 7 }, { addr := 0xC00, readOnly := true, value := 9 }] }

theorem test_csrrw_reads_then_writes : ∃ t, exec (.csrrw 6 0x340 6) withCsrs = .next t ∧
    t.readReg 6 = Config.csrRead 0x340 7 ∧
    t.findCsr 0x340 = some ⟨0x340, false, Config.csrWrite 0x340 (Config.csrAfterRead 0x340 7) 0x22⟩ := ⟨_, rfl, rfl, rfl⟩
/-- With rd = x0 there is no read (R175). -/
theorem test_csrrwi_without_read : ∃ t, exec (.csrrwi 0 0x340 17) withCsrs = .next t ∧
    t.findCsr 0x340 = some ⟨0x340, false, Config.csrWrite 0x340 7 17⟩ := ⟨_, rfl, rfl⟩
/-- With rs1 = x0 there is no write (R176). -/
theorem test_csrrs_reads_readOnly : ∃ t, exec (.csrrs 5 0xC00 0) withCsrs = .next t ∧
    t.readReg 5 = Config.csrRead 0xC00 9 := ⟨_, rfl, rfl⟩
theorem test_csrrc_clears : ∃ t, exec (.csrrc 5 0x340 6) withCsrs = .next t ∧
    t.findCsr 0x340 = some ⟨0x340, false,
      Config.csrWrite 0x340 (Config.csrAfterRead 0x340 7) (Config.csrRead 0x340 7 &&& ~~~0x22)⟩ := ⟨_, rfl, rfl⟩
theorem test_csrrci_readOnly : raises (exec (.csrrci 5 0xC00 8) withCsrs) (.illegalInstruction 0xC00472F3) = true := by decide

/-! ## Witnesses: a state and operands that meet the hypotheses of each statement, clause by clause, at boundary values -/

/-- 0x1000 and the words at it are backed; the limit falls inside the halfword at 0x7FFE. -/
def small : State := before 0x1000 [(1, 0x2000), (2, 0x12345678), (5, 0x7FFE)] [] 0x7FFF

theorem witness_StepRunsTheDecodedInstruction :
    let s := placed (before 0xFFFFFFFC []) 0x002081B3
    s.pc.toNat % 4 = 0 ∧ AllBacked s s.pc.toNat 4 ∧ (∀ k, k < 4 → s.pc.toNat + k ∉ s.stale) ∧
    decode (s.mem.get (s.pc.toNat + 3) ++ s.mem.get (s.pc.toNat + 2) ++ s.mem.get (s.pc.toNat + 1) ++ s.mem.get s.pc.toNat) =
      .ok (.add 3 1 2) := by
  unfold AllBacked; decide
theorem witness_FetchChecksComeInOrder_misaligned : (before 0x1002 []).pc.toNat % 4 ≠ 0 := by decide
theorem witness_FetchChecksComeInOrder_unbacked :
    (before 0x7FFC [] [] 0x7FFF).pc.toNat % 4 = 0 ∧
    ¬AllBacked (before 0x7FFC [] [] 0x7FFF) (before 0x7FFC [] [] 0x7FFF).pc.toNat 4 := by
  unfold AllBacked; decide
theorem witness_FetchChecksComeInOrder_stale :
    let s : State := { before 0x7FFC [] [] 0x8000 with stale := [0x7FFF] }
    s.pc.toNat % 4 = 0 ∧ AllBacked s s.pc.toNat 4 ∧ ∃ k, k < 4 ∧ s.pc.toNat + k ∈ s.stale := by
  unfold AllBacked; decide
theorem witness_FetchChecksComeInOrder_fetched :
    let s : State := { before 0x7FFC [] [] 0x8000 with stale := [0x7FFB, 0x8000] }
    s.pc.toNat % 4 = 0 ∧ AllBacked s s.pc.toNat 4 ∧ ∀ k, k < 4 → s.pc.toNat + k ∉ s.stale := by
  unfold AllBacked; decide
theorem witness_FetchExceptionsExactly_jump :
    let s := before 0x1000 [] [] 0x1FFF
    isTransfer (.jal 1 0xFFC) = true ∧ s.pc.toNat % 4 = 0 ∧
    ∃ t, exec (.jal 1 0xFFC) s = .next t ∧ ¬AllBacked s t.pc.toNat 4 := by
  unfold AllBacked; exact ⟨rfl, by decide, _, rfl, by decide⟩
theorem witness_FetchExceptionsExactly_jal :
    let s := before 0x1000 [] [] 0x1FFF
    (jalTarget s 0xFFC).toNat % 4 = 0 ∧ ¬AllBacked s (jalTarget s 0xFFC).toNat 4 := by unfold AllBacked; decide
theorem witness_FetchExceptionsExactly_jalr :
    (jalrTarget small 5 (-1)).toNat % 4 = 0 ∧ ¬AllBacked small (jalrTarget small 5 (-1)).toNat 4 := by unfold AllBacked; decide
theorem witness_FetchExceptionsExactly_branch :
    let s := before 0x1000 [(1, 0x80000000), (2, 0x7FFFFFFF)] [] 0x1FFF
    (branchTarget s 0xFFC).toNat % 4 = 0 ∧ ¬AllBacked s (branchTarget s 0xFFC).toNat 4 ∧
    s.readReg 1 = s.readReg 1 ∧ s.readReg 1 ≠ s.readReg 2 ∧ (s.readReg 1).toInt < (s.readReg 2).toInt ∧
    (s.readReg 1).toInt ≥ (s.readReg 1).toInt ∧ (s.readReg 2).toNat < (s.readReg 1).toNat ∧
    (s.readReg 1).toNat ≥ (s.readReg 1).toNat := by unfold AllBacked; decide
theorem witness_FetchExceptionsExactly_next : ∃ t, exec (.sw 2 1 0) small = .next t := ⟨_, rfl⟩
theorem witness_FetchExceptionsExactly_coherent :
    let s : State := { small with config := { small.config with ifetchCoherent := true } }
    s.config.ifetchCoherent = true ∧ s.Inv := by decide
theorem witness_UnmatchedWordsAreIllegalOrRefused_floating :
    fetch (placed small 0x00002027) = .ok 0x00002027 ∧ (0x00002027 : Word).extractLsb' 0 7 = 0b0100111#7 := by decide
theorem witness_UnmatchedWordsAreIllegalOrRefused_illegal :
    fetch (placed small 0xFFFFFFFF) = .ok 0xFFFFFFFF ∧
    (0xFFFFFFFF : Word).extractLsb' 0 7 ∉
      [0b0000111#7, 0b0100111#7, 0b1000011#7, 0b1000111#7, 0b1001011#7, 0b1001111#7, 0b1010011#7] ∧
    ∀ r ∈ opcodeTable, r.admitted = true → (0xFFFFFFFF : Word) &&& r.mask ≠ r.mtch := by decide
theorem witness_DecodeAfterEncodeGivesTheInstruction : (Instr.bgeu 31 30 4094).wellFormed = true := by decide
theorem witness_EncodeAfterDecodeGivesTheWord : decode 0x7E000FE3 = .ok (.beq 0 0 4094) := by decide
theorem witness_AtMostOneRowFits :
    ∃ r1 r2, r1 ∈ opcodeTable ∧ r2 ∈ opcodeTable ∧ (0x4020D1B3 : Word) &&& r1.mask = r1.mtch ∧ (0x4020D1B3 : Word) &&& r2.mask = r2.mtch :=
  ⟨rowR "sra" 0x40005033 .sra, rowR "sra" 0x40005033 .sra, by unfold opcodeTable registerRows; simp,
    by unfold opcodeTable registerRows; simp, by decide, by decide⟩
theorem witness_DecodeFollowsTheOpcodeTable :
    decode 0x4020D1B3 = .ok (.sra 3 1 2) ∧ ∃ r ∈ opcodeTable, r.admitted = true ∧ (0x4020D1B3 : Word) &&& r.mask = r.mtch :=
  ⟨by decide, rowR "sra" 0x40005033 .sra, by unfold opcodeTable registerRows; simp, rfl, by decide⟩
theorem witness_ShiftImmediates_slli : fetch (placed small 0x02009193) = .ok 0x02009193 ∧
    (0x02009193 : Word).extractLsb' 0 7 = 0b0010011#7 ∧ (0x02009193 : Word).extractLsb' 12 3 = 0b001#3 ∧
    (0x02009193 : Word).getLsbD 25 = true := by decide
theorem witness_ShiftImmediates_srai : fetch (placed small 0x4200D193) = .ok 0x4200D193 ∧
    (0x4200D193 : Word).extractLsb' 0 7 = 0b0010011#7 ∧ (0x4200D193 : Word).extractLsb' 12 3 = 0b101#3 ∧
    (0x4200D193 : Word).getLsbD 25 = true := by decide
/-- The farthest aligned offset, the farthest offset, and the farthest backward one. -/
theorem witness_JumpAndLink :
    (1048572 : BitVec 21).getLsbD 0 = false ∧
    (BitVec.ofInt 32 ((before 0x1000 []).pc.toNat + (1048572 : BitVec 21).toInt)).toNat % 4 = 0 ∧
    (BitVec.ofInt 32 ((before 0x1000 []).pc.toNat + (1048574 : BitVec 21).toInt)).toNat % 4 ≠ 0 ∧
    (BitVec.ofInt 32 ((before 0x1000 []).pc.toNat + (-1048576 : BitVec 21).toInt)).toNat % 4 = 0 := by decide
theorem witness_JumpAndLinkRegister :
    let s := before 0x1000 [(5, 0x2000), (6, 0x7FF)]
    (BitVec.ofNat 32 ((BitVec.ofInt 32 ((s.readReg 6).toInt + (-2048 : BitVec 12).toInt)).toNat / 2 * 2)).toNat % 4 ≠ 0 ∧
    (BitVec.ofNat 32 ((BitVec.ofInt 32 ((s.readReg 5).toInt + (2045 : BitVec 12).toInt)).toNat / 2 * 2)).toNat % 4 = 0 := by
  decide
/-- The operands are ordered one way as signed and the other way as unsigned values. -/
def branchState : State := before 0x1000 [(1, 0xFFFFFFFF), (2, 1)]
/-- The farthest forward offset gives a misaligned target, the farthest backward one an aligned target. -/
def BothTargets (s : State) : Prop :=
  (4094 : BitVec 13).getLsbD 0 = false ∧ (BitVec.ofInt 32 (s.pc.toNat + (4094 : BitVec 13).toInt)).toNat % 4 ≠ 0 ∧
  (-4096 : BitVec 13).getLsbD 0 = false ∧ (BitVec.ofInt 32 (s.pc.toNat + (-4096 : BitVec 13).toInt)).toNat % 4 = 0
theorem witness_BranchOnEqual :
    branchState.readReg 1 = branchState.readReg 1 ∧ branchState.readReg 1 ≠ branchState.readReg 2 ∧ BothTargets branchState := by
  unfold BothTargets; decide
theorem witness_BranchOnSignedOrder :
    (branchState.readReg 1).slt (branchState.readReg 2) = true ∧ ¬(branchState.readReg 2).slt (branchState.readReg 1) = true ∧
    (branchState.readReg 1).sle (branchState.readReg 2) = true ∧ ¬(branchState.readReg 2).sle (branchState.readReg 1) = true ∧
    (branchState.readReg 2).sle (branchState.readReg 2) = true ∧ BothTargets branchState := by
  unfold BothTargets; decide
theorem witness_BranchOnUnsignedOrder :
    (branchState.readReg 2).ult (branchState.readReg 1) = true ∧ ¬(branchState.readReg 1).ult (branchState.readReg 2) = true ∧
    (branchState.readReg 2).ule (branchState.readReg 1) = true ∧ ¬(branchState.readReg 1).ule (branchState.readReg 2) = true ∧
    (branchState.readReg 1).ule (branchState.readReg 1) = true ∧ BothTargets branchState := by
  unfold BothTargets; decide
theorem witness_SwappedBranchesMeanTheReverseOrder :
    (branchState.readReg 1).toInt ≤ (branchState.readReg 2).toInt ∧ ¬(branchState.readReg 1).toInt > (branchState.readReg 2).toInt ∧
    (branchState.readReg 1).toNat > (branchState.readReg 2).toNat ∧ ¬(branchState.readReg 1).toNat ≤ (branchState.readReg 2).toNat ∧
    branchState.readReg 3 = 0 ∧ (branchState.readReg 1).msb = true ∧
    (branchTarget branchState 4092).toNat % 4 = 0 ∧ (branchTarget branchState 4094).toNat % 4 ≠ 0 := by decide
/-- The byte at 0x7FFE is backed and the byte at 0x7FFF is not. -/
theorem witness_LoadByte :
    ((loadAddress small 5 0).toNat % 1 = 0 ∧ AllBacked small (loadAddress small 5 0).toNat 1) ∧
    ((loadAddress small 5 1).toNat % 1 = 0 ∧ ¬AllBacked small (loadAddress small 5 1).toNat 1) := by
  unfold AllBacked; decide
/-- The halfword at 0x7FFC is backed, the one at 0x7FFE only in part, the one at 0x2001 is misaligned. -/
theorem witness_LoadHalfword :
    ((loadAddress small 5 (-2)).toNat % 2 = 0 ∧ AllBacked small (loadAddress small 5 (-2)).toNat 2) ∧
    (loadAddress small 1 1).toNat % 2 ≠ 0 ∧
    ((loadAddress small 5 0).toNat % 2 = 0 ∧ ¬AllBacked small (loadAddress small 5 0).toNat 2) := by
  unfold AllBacked; decide
/-- The word at 0x7FF8 is backed, the one at 0x7FFC only in part, the one at 0x2002 is misaligned. -/
theorem witness_LoadWord :
    ((loadAddress small 5 (-6)).toNat % 4 = 0 ∧ AllBacked small (loadAddress small 5 (-6)).toNat 4) ∧
    (loadAddress small 1 2).toNat % 4 ≠ 0 ∧
    ((loadAddress small 5 (-2)).toNat % 4 = 0 ∧ ¬AllBacked small (loadAddress small 5 (-2)).toNat 4) := by
  unfold AllBacked; decide
theorem witness_StoresWriteTheLowBytes :
    small.config.ifetchCoherent = false ∧
    AllBacked small (storeAddress small 5 0).toNat 1 ∧ ¬AllBacked small (storeAddress small 5 1).toNat 1 ∧
    ((storeAddress small 5 (-2)).toNat % 2 = 0 ∧ AllBacked small (storeAddress small 5 (-2)).toNat 2) ∧
    (storeAddress small 1 1).toNat % 2 ≠ 0 ∧
    ((storeAddress small 5 0).toNat % 2 = 0 ∧ ¬AllBacked small (storeAddress small 5 0).toNat 2) ∧
    ((storeAddress small 5 (-6)).toNat % 4 = 0 ∧ AllBacked small (storeAddress small 5 (-6)).toNat 4) ∧
    (storeAddress small 1 2).toNat % 4 ≠ 0 ∧
    ((storeAddress small 5 (-2)).toNat % 4 = 0 ∧ ¬AllBacked small (storeAddress small 5 (-2)).toNat 4) := by
  unfold AllBacked; decide
theorem witness_StoresWriteTheLowBytes_coherent :
    let s : State := { small with config := { small.config with ifetchCoherent := true } }
    s.config.ifetchCoherent = true ∧ (storeAddress s 1 0).toNat % 4 = 0 ∧ AllBacked s (storeAddress s 1 0).toNat 4 := by
  unfold AllBacked; decide
/-- Each of the two exceptions of a load, and of a store, is raised at some address. -/
theorem witness_LoadExceptionsExactly :
    exec (.lw 0 1 2) small = .fault (.loadAddressMisaligned 0x2002) ∧ exec (.lb 0 5 1) small = .fault (.loadAccessFault 0x7FFF) :=
  ⟨rfl, rfl⟩
theorem witness_StoreExceptionsExactly :
    exec (.sw 2 1 2) small = .fault (.storeAddressMisaligned 0x2002) ∧ exec (.sb 2 5 1) small = .fault (.storeAccessFault 0x7FFF) :=
  ⟨rfl, rfl⟩
theorem witness_FenceChangesOnlyPc :
    [0x8330000F, 0x0FF0800F, 0x0FF0008F].all (fun w : Word => decide (fetch (placed small w.toNat) = .ok w ∧
      w.extractLsb' 0 7 = 0b0001111#7 ∧ w.extractLsb' 12 3 = 0b000#3 ∧
      (w.extractLsb' 28 4 ≠ 0 ∨ w.extractLsb' 15 5 ≠ 0 ∨ w.extractLsb' 7 5 ≠ 0))) = true := by decide
theorem witness_FenceIEmptiesStaleSet : fetch (placed small 0x0010100F) = .ok 0x0010100F ∧
    (0x0010100F : Word).extractLsb' 0 7 = 0b0001111#7 ∧ (0x0010100F : Word).extractLsb' 12 3 = 0b001#3 ∧
    (0x0010100F : Word) ≠ 0x0000100F := by decide
theorem witness_EnvironmentCallAndBreakpointStop :
    exec .ecall small = .fault (.environmentCall 0) ∧ exec .ebreak small = .fault (.breakpoint 0x1000) := ⟨rfl, rfl⟩
theorem witness_CsrAbsentOrReadOnlyIsIllegal :
    withCsrs.findCsr 0xFFF = none ∧
    ∃ c, withCsrs.findCsr 0xC00 = some c ∧ c.readOnly = true ∧ (1 : BitVec 5) ≠ 0 := ⟨rfl, _, rfl, rfl, by decide⟩
theorem witness_CsrReadAndWrite : ∃ c, withCsrs.findCsr 0x340 = some c ∧ c.readOnly = false := ⟨_, rfl, rfl⟩
theorem witness_CsrSetAndClearBits :
    ∃ c, withCsrs.findCsr 0x340 = some c ∧ (0 : BitVec 5) = 0 ∧ (31 : BitVec 5) ≠ 0 ∧ c.readOnly = false :=
  ⟨_, rfl, rfl, by decide, rfl⟩
theorem witness_QuotientTimesDivisorPlusRemainder : (3 : RegId) ≠ 0 ∧ ∃ t u t' u',
    exec (.div 3 1 2) small = .next t ∧ exec (.rem 3 1 2) small = .next u ∧
    exec (.divu 3 1 2) small = .next t' ∧ exec (.remu 3 1 2) small = .next u' := ⟨by decide, _, _, _, _, rfl, rfl, rfl, rfl⟩
theorem witness_OnlyStoresWriteMemory : isStore (.lw 3 1 0) = false ∧ ∃ t, exec (.lw 3 1 0) small = .next t := ⟨rfl, _, rfl⟩
theorem witness_OnlyTransfersSetPc :
    (isTransfer (.add 3 1 2) = false ∧ ∃ t, exec (.add 3 1 2) small = .next t) ∧
    ∃ t, exec (.bne 1 2 (-8)) small = .next t := ⟨⟨rfl, _, rfl⟩, _, rfl⟩
theorem witness_OnlyTheDestinationRegisterChanges :
    destination (.jalr 1 1 0) ≠ some 2 ∧ ∃ t, exec (.jalr 1 1 0) small = .next t := ⟨by decide, _, rfl⟩
theorem witness_OnlyStoresAndFenceITouchStaleSet :
    let s : State := { small with stale := [0x3000] }
    (∃ t, exec .fenceI s = .next t) ∧ (isStore (.fence 0 0) = false ∧ Instr.fence 0 0 ≠ .fenceI ∧ ∃ t, exec (.fence 0 0) s = .next t) ∧
    (isStore (.sb 2 1 0) = true ∧ 0x3000 ∈ s.stale ∧ ∃ t, exec (.sb 2 1 0) s = .next t) :=
  ⟨⟨_, rfl⟩, ⟨rfl, by decide, _, rfl⟩, rfl, by decide, _, rfl⟩
theorem witness_CsrFileKeepsItsShape :
    (∃ t, exec (.csrrs 5 0xC00 0) withCsrs = .next t) ∧ (∃ c, withCsrs.findCsr 0xC00 = some c ∧ c.readOnly = true) ∧
    isCsr (.add 3 1 2) = false ∧ ∃ t, exec (.add 3 1 2) withCsrs = .next t := ⟨⟨_, rfl⟩, ⟨_, rfl, rfl⟩, rfl, _, rfl⟩
theorem witness_InstructionsRaiseOnlyTheirCodes : exec (.sh 2 1 1) small = .fault (.storeAddressMisaligned 0x2001) := rfl
/-- Parameters other than the default ones: a program image, a region that ends inside a word, coherent fetches, one CSR. -/
def params : ResetParams where
  resetPc := 0x1000
  initRegs := Vector.replicate 31 0xFFFFFFFF
  initMem := [(0x1000, 0x13)]
  csrFile := [{ addr := 0x340, readOnly := false, value := 7 }]
  config := { memMap := [{ base := 0x1000, size := 0x1003 }], ifetchCoherent := true }
theorem witness_ResetMeetsTheInvariant : params.Valid := by decide
theorem witness_EveryStepKeepsTheInvariant :
    let s : State := { placed small 0x0020A023 with stale := [0x1FFF, 0x2001] }
    s.Inv ∧ ∃ t, step s = .next t := ⟨by decide, _, rfl⟩
theorem witness_EveryReachableStateKeepsTheInvariant :
    params.Valid ∧ params.config.ifetchCoherent = true ∧ ∃ t, Sys2Proof.core.run 1 (State.resetFrom params) = .next t :=
  ⟨by decide, rfl, _, rfl⟩
/-- `sb x1,9(x1)` is the first instruction of the image, x1 is 0xFFFFFFFF: the step stores to byte 8, the next word is at bytes 4 to 7. -/
def storing : ResetParams where
  resetPc := 0
  initRegs := Vector.replicate 31 0xFFFFFFFF
  initMem := [(0, 0xA3), (1, 0x84), (2, 0x10)]
  csrFile := []
  config := { memMap := [{ base := 0, size := 9 }], ifetchCoherent := false }
theorem test_storing_fetches : fetch (State.resetFrom storing) = .ok 0x001084A3 ∧
    decode 0x001084A3 = .ok (.sb 1 1 9) ∧ (storeAddress (State.resetFrom storing) 1 9).toNat = 8 := by decide
theorem test_storedWithin : ∀ a, StoredWithin storing 1 a ↔ a = 8 := by
  intro a
  obtain ⟨hf, hd, ha⟩ := test_storing_fetches
  constructor
  · rintro ⟨k, s, i, hk, hr, ⟨w, hw, hi⟩, hs⟩
    obtain rfl : k = 0 := by omega
    cases hr
    cases hf.symm.trans hw
    cases hd.symm.trans hi
    change (storeAddress _ 1 9).toNat ≤ a ∧ a < (storeAddress _ 1 9).toNat + 1 at hs
    omega
  · rintro rfl
    refine ⟨0, _, .sb 1 1 9, by decide, rfl, ⟨_, hf, hd⟩, ?_⟩
    change (storeAddress _ 1 9).toNat ≤ 8 ∧ 8 < (storeAddress _ 1 9).toNat + 1
    omega
theorem witness_ResetLeavesStaleSetAndCsrFileEmpty :
    ∃ t, Sys2Proof.core.run 1 (State.resetFrom storing) = .next t ∧ t.stale = [8] ∧
      (∀ k, k < 4 → ¬StoredWithin storing 1 (t.pc.toNat + k)) ∧ t.pc.toNat % 4 = 0 ∧ AllBacked t t.pc.toNat 4 := by
  refine ⟨_, rfl, by decide, fun k hk h => ?_, by decide, by unfold AllBacked; decide⟩
  have := (test_storedWithin _).mp h
  change 4 + k = 8 at this
  omega
theorem witness_ZeroRegisterReadsZeroAndDiscards_next :
    destination (.jal 1 (-16)) = some 1 ∧ withDestination (.jal 1 (-16)) 0 = .jal 0 (-16) ∧
    (∃ t, exec (.jal 1 (-16)) small = .next t) ∧ ∃ u, exec (.jal 0 (-16)) small = .next u := ⟨rfl, rfl, ⟨_, rfl⟩, _, rfl⟩
theorem witness_ZeroRegisterReadsZeroAndDiscards_fault :
    destination (.lw 3 5 0) = some 3 ∧ isCsr (.lw 3 5 0) = false ∧
    exec (.lw 3 5 0) small = .fault (.loadAddressMisaligned 0x7FFE) ∧
    exec (.lw 0 5 0) small = .fault (.loadAddressMisaligned 0x7FFE) := ⟨rfl, rfl, rfl, rfl⟩
theorem witness_ZeroRegisterReadsZeroAndDiscards_csr :
    destination (.csrrw 6 0x340 6) = some 6 ∧ (∃ c, withCsrs.findCsr 0x340 = some c) ∧
    (∃ t, exec (.csrrw 6 0x340 6) withCsrs = .next t) ∧ isCsr (.csrrw 6 0x341 6) = true ∧
    exec (.csrrw 6 0x341 6) withCsrs = .fault (.illegalInstruction 0x34131373) := ⟨rfl, ⟨_, rfl⟩, ⟨_, rfl⟩, rfl, rfl⟩
theorem witness_StoredWordReadsLittleEndian : (3 : RegId) ≠ 0 ∧ ∃ t, exec (.sw 2 1 0) small = .next t := ⟨by decide, _, rfl⟩
/-- The byte stored is the last of the word fetched, and the word is the last one backed. -/
theorem witness_StoredCodeNeedsFenceI :
    let s := before 0x1000 [(1, 0x7FFF), (2, 0xFF)] [] 0x8000
    (∃ t, exec (.sb 2 1 0) s = .next t) ∧ (0x7FFC : Word).toNat % 4 = 0 ∧ AllBacked s (0x7FFC : Word).toNat 4 ∧
    (∃ k, k < 4 ∧ storesTo (.sb 2 1 0) s ((0x7FFC : Word).toNat + k)) ∧ s.config.ifetchCoherent = false := by
  unfold AllBacked storesTo; exact ⟨⟨_, rfl⟩, by decide, by decide, ⟨3, by decide⟩, rfl⟩
theorem witness_StoredCodeNeedsFenceI_coherent :
    let s : State := { small with config := { small.config with ifetchCoherent := true } }
    (∃ t, exec (.sw 2 1 0) s = .next t) ∧ (0x2000 : Word).toNat % 4 = 0 ∧ AllBacked s (0x2000 : Word).toNat 4 ∧
    (∃ k, k < 4 ∧ storesTo (.sw 2 1 0) s ((0x2000 : Word).toNat + k)) ∧ s.config.ifetchCoherent = true ∧ s.Inv := by
  unfold AllBacked storesTo; exact ⟨⟨_, rfl⟩, by decide, by decide, ⟨0, by decide⟩, rfl, by decide⟩
theorem witness_BytesReadAsLastWritten :
    Memory.wf [(3, 1), (0xFFFFFFFF, 2)] = true ∧ (0xFFFFFFFF : Nat) < 2 ^ 32 ∧
    Memory.wf ((Memory.set [] 0xFFFFFFFF 2).set 3 1) = true ∧ Memory.wf ((Memory.set [] 3 1).set 0xFFFFFFFF 2) = true ∧
    Memory.wf [(3, 0)] = false ∧ Memory.wf [(4, 1), (3, 1)] = false ∧
    Memory.wf [(0x100000000, 1)] = false := by decide
theorem witness_LuiAddiBuildsAnyConstant : (31 : RegId) ≠ 0 := by decide
theorem witness_LuiJalrReachesAnyAddress : (31 : RegId) ≠ 0 ∧ (0xFFFFFFFC : Word).toNat % 4 = 0 := by decide
theorem witness_CarryOutBySetLessThan : (5 : RegId) ≠ 0 ∧ (5 : RegId) ≠ 1 ∧ (6 : RegId) ≠ 0 ∧
    ∃ t u, exec (.add 5 1 2) small = .next t ∧ exec (.sltu 6 5 1) t = .next u := ⟨by decide, by decide, by decide, _, _, rfl, rfl⟩
theorem witness_PlacedWordIsTheNextInstruction :
    let s := before 0xFFFFFFFC []
    s.pc.toNat % 4 = 0 ∧ AllBacked s s.pc.toNat 4 ∧ ∀ k, k < 4 → s.pc.toNat + k ∉ s.stale := by
  unfold AllBacked; decide

end Sys2Proof.Tests
end

section
/-! PROOFS of the scope family. What a step is when its fetch and its decode succeed (R10), and what placing a word for the next fetch
changes (log 7). Both statements turn on one lemma, the fetch at an aligned pc whose four bytes are backed and not stale (R45). -/

namespace Sys2Proof.Machine

/-! ## Bytes written and read back (R42) -/

/-- Byte `k` of a run of bytes just written. -/
theorem Memory.get_setBytes_add (m : Memory) (a : Nat) (bs : List Byte) (k : Nat) (h : k < bs.length) :
    (m.setBytes a bs).get (a + k) = bs[k] := by
  rw [Memory.get_setBytes, dif_pos ⟨by omega, by omega⟩]
  simp

/-- A byte outside a run of bytes just written. -/
theorem Memory.get_setBytes_of_outside (m : Memory) (a b : Nat) (bs : List Byte) (h : b < a ∨ a + bs.length ≤ b) :
    (m.setBytes a bs).get b = m.get b := by
  rw [Memory.get_setBytes, dif_neg (by omega)]

/-- The low four bytes of a number, appended from the most significant down, are the number modulo 2^32. -/
theorem append_bytes_eq_ofNat (w : Nat) :
    BitVec.ofNat 8 (w / 256 ^ 3) ++ BitVec.ofNat 8 (w / 256 ^ 2) ++ BitVec.ofNat 8 (w / 256 ^ 1) ++ BitVec.ofNat 8 (w / 256 ^ 0) =
      BitVec.ofNat 32 w := by
  apply BitVec.eq_of_toNat_eq
  simp only [toNat_append_add, BitVec.toNat_ofNat]
  omega

/-! ## The fetch and the step that succeed (R10, R45) -/

/-- The bytes of the next fetch, highest address first, as one word. -/
def State.fetchBytes (s : State) : Word :=
  s.mem.get (s.pc.toNat + 3) ++ s.mem.get (s.pc.toNat + 2) ++ s.mem.get (s.pc.toNat + 1) ++ s.mem.get s.pc.toNat

/-- When none of R45's three checks raises, the fetch is the little-endian word at pc. -/
theorem fetch_eq_ok {s : State} (ha : s.pc.toNat % 4 = 0) (hb : AllBacked s s.pc.toNat 4)
    (hs : ∀ k, k < 4 → s.pc.toNat + k ∉ s.stale) : fetch s = .ok s.fetchBytes := by
  rcases fetch_cases s with ⟨hn, _⟩ | ⟨_, hn, _⟩ | ⟨_, _, ⟨k, hk, hn⟩, _⟩ | ⟨_, _, _, h⟩
  · exact absurd ha hn
  · exact absurd hb hn
  · exact absurd hn (hs k hk)
  · exact h

/-- A step whose fetch and decode succeed is the meaning of the instruction (R10 steps 3 and 4). -/
theorem step_eq_exec {s : State} {w : Word} {i : Instr} (hw : fetch s = .ok w) (hi : decode w = .ok i) : step s = exec i s := by
  unfold step
  rw [hw]
  simp only [hi]

/-- Settles O1: the fetch passes its checks and gives the word that decodes. -/
theorem stepRunsTheDecodedInstruction : Obligations.StepRunsTheDecodedInstruction :=
  fun _ _ ha hb hs hi => step_eq_exec (fetch_eq_ok ha hb hs) hi

/-! ## Placing a word (log 7): what each field holds afterwards -/

@[simp] theorem State.placeWord_regs (s : State) (w : Nat) : (s.placeWord w).regs = s.regs := rfl
@[simp] theorem State.placeWord_csrs (s : State) (w : Nat) : (s.placeWord w).csrs = s.csrs := rfl

/-- The pc is rounded down to a multiple of 4. -/
@[simp] theorem State.placeWord_pc_toNat (s : State) (w : Nat) : (s.placeWord w).pc.toNat = 4 * (s.pc.toNat / 4) := by
  have hlt := s.pc.isLt
  exact Nat.mod_eq_of_lt (by omega)

/-- The bytes placed are those of `w`, least significant first. -/
theorem State.get_placeWord (s : State) (w k : Nat) (hk : k < 4) :
    (s.placeWord w).mem.get (4 * (s.pc.toNat / 4) + k) = BitVec.ofNat 8 (w / 256 ^ k) := by
  have hk' : k < (toBytesLE 4 w).length := by rwa [length_toBytesLE]
  calc (s.placeWord w).mem.get (4 * (s.pc.toNat / 4) + k)
      = (toBytesLE 4 w)[k] := Memory.get_setBytes_add _ _ _ _ hk'
    _ = BitVec.ofNat 8 (w / 256 ^ k) := getElem_toBytesLE _ _ _ hk'

/-- Every byte outside the four is left alone. -/
theorem State.get_placeWord_of_outside (s : State) (w b : Nat)
    (h : b < 4 * (s.pc.toNat / 4) ∨ 4 * (s.pc.toNat / 4) + 4 ≤ b) : (s.placeWord w).mem.get b = s.mem.get b :=
  Memory.get_setBytes_of_outside _ _ _ _ (by rwa [length_toBytesLE])

/-- `StaleSet` loses the four bytes and nothing else. -/
theorem State.mem_stale_placeWord (s : State) (w b : Nat) :
    b ∈ (s.placeWord w).stale ↔ b ∈ s.stale ∧ (b < 4 * (s.pc.toNat / 4) ∨ 4 * (s.pc.toNat / 4) + 4 ≤ b) := by
  simp [State.placeWord]

/-- The parameters are kept where the four bytes were backed already. -/
theorem State.placeWord_config_of_backed {s : State} (w : Nat) (h : AllBacked s (4 * (s.pc.toNat / 4)) 4) :
    (s.placeWord w).config = s.config :=
  if_pos ((allBacked_iff s _ 4).mpr h)

/-- Else a region of just those four bytes is put in front of the memory map. -/
theorem State.placeWord_config_of_not_backed {s : State} (w : Nat) (h : ¬AllBacked s (4 * (s.pc.toNat / 4)) 4) :
    (s.placeWord w).config = { s.config with memMap := ⟨4 * (s.pc.toNat / 4), 4⟩ :: s.config.memMap } :=
  if_neg (mt (allBacked_iff s _ 4).mp h)

/-- `IFETCH_COHERENT` is kept whether or not the bytes were backed. -/
theorem State.placeWord_ifetchCoherent (s : State) (w : Nat) :
    (s.placeWord w).config.ifetchCoherent = s.config.ifetchCoherent := by
  by_cases h : AllBacked s (4 * (s.pc.toNat / 4)) 4
  · rw [State.placeWord_config_of_backed w h]
  · rw [State.placeWord_config_of_not_backed w h]

/-- The four bytes are backed afterwards, by the map as it was or by the region put in front of it. -/
theorem State.allBacked_placeWord (s : State) (w : Nat) : AllBacked (s.placeWord w) (4 * (s.pc.toNat / 4)) 4 := by
  intro k hk
  by_cases h : AllBacked s (4 * (s.pc.toNat / 4)) 4
  · rw [State.placeWord_config_of_backed w h]
    exact h k hk
  · rw [State.placeWord_config_of_not_backed w h]
    simp [backed, hk]

/-! ## The placed word is the word fetched -/

/-- The fetch after placing a word passes R45's checks and gives the word, at every state. -/
theorem fetch_placeWord (s : State) (w : Nat) : fetch (s.placeWord w) = .ok (BitVec.ofNat 32 w) := by
  have haligned : (s.placeWord w).pc.toNat % 4 = 0 := by simp
  have hbacked : AllBacked (s.placeWord w) (s.placeWord w).pc.toNat 4 := by
    rw [State.placeWord_pc_toNat]
    exact s.allBacked_placeWord w
  have hfresh : ∀ k, k < 4 → (s.placeWord w).pc.toNat + k ∉ (s.placeWord w).stale := by
    intro k hk
    rw [State.mem_stale_placeWord, State.placeWord_pc_toNat]
    omega
  have hbytes : (s.placeWord w).fetchBytes = BitVec.ofNat 32 w := by
    have hget := s.get_placeWord w
    rw [State.fetchBytes, State.placeWord_pc_toNat, hget 3 (by omega), hget 2 (by omega), hget 1 (by omega)]
    exact (congrArg _ (hget 0 (by omega))).trans (append_bytes_eq_ofNat w)
  rw [fetch_eq_ok haligned hbacked hfresh, hbytes]

/-! ## An aligned pc with its four bytes backed and not stale: only those bytes change -/

theorem State.placeWord_pc_of_aligned {s : State} (w : Nat) (h : s.pc.toNat % 4 = 0) : (s.placeWord w).pc = s.pc := by
  apply BitVec.eq_of_toNat_eq
  rw [State.placeWord_pc_toNat]
  omega

theorem State.placeWord_stale_of_fresh {s : State} (w : Nat) (h : ∀ k, k < 4 → 4 * (s.pc.toNat / 4) + k ∉ s.stale) :
    (s.placeWord w).stale = s.stale := by
  refine List.filter_eq_self.mpr fun b hb => ?_
  have hout : ¬(4 * (s.pc.toNat / 4) ≤ b ∧ b < 4 * (s.pc.toNat / 4) + 4) := fun ⟨hle, hlt⟩ =>
    h (b - 4 * (s.pc.toNat / 4)) (by omega) (by rwa [Nat.add_sub_cancel' hle])
  simp only [Bool.or_eq_true, decide_eq_true_iff]
  omega

/-- Settles O60: `withFetchWord 32 w` places `w` modulo 2^32, which is the same word. -/
theorem placedWordIsTheNextInstruction : Obligations.PlacedWordIsTheNextInstruction := by
  intro s w
  have hword : BitVec.ofNat 32 (w % 2 ^ 32) = BitVec.ofNat 32 w := by
    apply BitVec.eq_of_toNat_eq
    simp
  refine ⟨(fetch_placeWord s _).trans (congrArg _ hword), s.placeWord_regs _, s.placeWord_csrs _,
    s.placeWord_ifetchCoherent _, fun ha hb hs => ?_⟩
  have hpc : 4 * (s.pc.toNat / 4) = s.pc.toNat := by omega
  have hbacked : AllBacked s (4 * (s.pc.toNat / 4)) 4 := by rwa [hpc]
  have hfresh : ∀ k, k < 4 → 4 * (s.pc.toNat / 4) + k ∉ s.stale := by rwa [hpc]
  exact ⟨State.placeWord_pc_of_aligned _ ha, State.placeWord_stale_of_fresh _ hfresh,
    State.placeWord_config_of_backed _ hbacked, fun a hout => s.get_placeWord_of_outside _ a (by rwa [hpc])⟩

end Sys2Proof.Machine
end

section
/-! PROOFS of the state family: what every instruction leaves of the state (R20 to R30), and the invariant along steps and runs
(R240). Each rests on `exec_next`, which says once what a next state can be: the invariant is kept because every next state is
composed of operations on the state, each of which keeps it. -/

namespace Sys2Proof.Machine

/-! ## Single pieces of the state after an instruction -/

/-- Equal CSR files answer every lookup alike. -/
theorem findCsr_congr {s t : State} (h : t.csrs = s.csrs) (a : CsrAddr) : t.findCsr a = s.findCsr a := by
  rw [State.findCsr, State.findCsr, h]

/-- The parameters stay (R3). -/
theorem exec_config {i : Instr} {s t : State} (h : exec i s = .next t) : t.config = s.config := by
  cases exec_next h with
  | result | csr | store | jump | branch | fence | fenceI => simp [*]

/-- Only a CSR instruction changes the CSR file (R27). -/
theorem exec_csrs_of_not_csr {i : Instr} {s t : State} (h : exec i s = .next t) (hi : isCsr i = false) : t.csrs = s.csrs := by
  cases exec_next h with
  | csr _ _ _ _ _ _ _ _ hc => rw [hi] at hc; cases hc
  | result | store | jump | branch | fence | fenceI => simp [*]

/-- Which CSRs exist and which are read-only stays (R27). -/
theorem exec_csr_shape {i : Instr} {s t : State} (h : exec i s = .next t) :
    t.csrs.map (fun c => (c.addr, c.readOnly)) = s.csrs.map fun c => (c.addr, c.readOnly) := by
  cases exec_next h with
  | csr _ a _ held _ _ _ _ _ _ _ _ e =>
    subst e
    simpa using setCsr_shape s a held
  | result | store | jump | branch | fence | fenceI => simp [*]

/-- A read-only CSR is at most read (R27, R174). -/
theorem exec_readOnly_csr {i : Instr} {s t : State} {a : CsrAddr} {c : Csr} (h : exec i s = .next t)
    (hc : s.findCsr a = some c) (hro : c.readOnly = true) :
    t.findCsr a = some c ∨ t.findCsr a = some { c with value := Config.csrAfterRead a c.value } := by
  cases hi : isCsr i with
  | false => exact .inl ((findCsr_congr (exec_csrs_of_not_csr h hi) a).trans hc)
  | true =>
    cases exec_next h with
    | csr rd b d held v _ _ _ _ _ hd hheld e =>
      subst e
      rw [State.advance_findCsr, State.writeReg_findCsr]
      by_cases hab : a = b
      · subst hab
        obtain rfl : c = d := Option.some.inj (hc.symm.trans hd)
        rw [findCsr_setCsr_self held hc]
        rcases hheld hro with rfl | rfl
        · exact .inl rfl
        · exact .inr rfl
      · exact .inl ((findCsr_setCsr_of_ne s held hab).trans hc)
    | result _ _ _ _ _ hn | store _ _ _ _ _ _ hn | jump _ _ _ _ _ hn | branch _ _ _ _ hn => rw [hi] at hn; cases hn
    | fence _ _ hf | fenceI hf => subst hf; cases hi

/-- A register that the `rd` field does not name reads as before (R20). -/
theorem exec_readReg_of_not_destination {i : Instr} {s t : State} {r : RegId} (h : exec i s = .next t)
    (hr : destination i ≠ some r) : t.readReg r = s.readReg r := by
  have hne : ∀ {rd}, destination i = some rd → r ≠ rd := fun hd e => hr (e ▸ hd)
  cases exec_next h with
  | result rd v hd _ _ _ _ e =>
    subst e
    exact State.readReg_writeReg_of_ne s rd r v (hne hd)
  | csr rd a _ held v hd _ _ _ _ _ _ e =>
    subst e
    exact State.readReg_writeReg_of_ne (s.setCsr a held) rd r v (hne hd)
  | jump rd _ hd _ _ _ _ _ e =>
    subst e
    exact State.readReg_writeReg_of_ne s rd r s.nextPc (hne hd)
  | store _ _ _ _ _ _ _ _ _ _ _ _ e => subst e; rfl
  | branch _ _ _ _ _ _ _ e => subst e; rfl
  | fence _ _ _ e => subst e; rfl
  | fenceI _ e => subst e; rfl

/-- An instruction that is no control transfer goes on to the next one (R25). -/
theorem exec_pc_of_not_transfer {i : Instr} {s t : State} (h : exec i s = .next t) (hi : isTransfer i = false) : t.pc = s.pc + 4 := by
  cases exec_next h with
  | jump _ _ _ _ ht | branch _ _ _ ht => rw [hi] at ht; cases ht
  | result | csr | store | fence | fenceI => simp [*]

/-- `i` is one of the six branches with this byte offset (R134). -/
def BranchesBy (i : Instr) (offset : BitVec 13) : Prop :=
  ∃ rs1 rs2, i = .beq rs1 rs2 offset ∨ i = .bne rs1 rs2 offset ∨ i = .blt rs1 rs2 offset ∨ i = .bge rs1 rs2 offset ∨
    i = .bltu rs1 rs2 offset ∨ i = .bgeu rs1 rs2 offset

/-- A branch is a control transfer that writes no register. -/
theorem BranchesBy.kind {i : Instr} {offset : BitVec 13} (h : BranchesBy i offset) : isTransfer i = true ∧ destination i = none := by
  obtain ⟨rs1, rs2, rfl | rfl | rfl | rfl | rfl | rfl⟩ := h <;> exact ⟨rfl, rfl⟩

/-- A branch that completes goes on or to its target (R134). -/
theorem exec_pc_of_branch {i : Instr} {s t : State} {offset : BitVec 13} (h : exec i s = .next t) (hi : BranchesBy i offset) :
    t.pc = s.pc + 4 ∨ t.pc = branchTarget s offset := by
  cases ht : isTransfer i with
  | false => exact .inl (exec_pc_of_not_transfer h ht)
  | true =>
    cases exec_next h with
    | branch p _ _ _ _ _ hp e =>
      subst e
      obtain ⟨rs1, rs2, hbranch⟩ := hi
      exact hp.imp id fun ⟨_, htarget⟩ => htarget rs1 rs2 offset hbranch
    | jump _ _ hd => rw [hi.kind.2] at hd; cases hd
    | result _ _ _ _ hn | csr _ _ _ _ _ _ _ hn | store _ _ _ _ _ hn => rw [ht] at hn; cases hn
    | fence _ _ hf | fenceI hf => subst hf; cases ht

/-- Only a store or `fence.i` changes `StaleSet` (R30). -/
theorem exec_stale_of_not_store {i : Instr} {s t : State} (h : exec i s = .next t) (hs : isStore i = false) (hf : i ≠ .fenceI) :
    t.stale = s.stale := by
  cases exec_next h with
  | store _ _ _ _ hn => rw [hs] at hn; cases hn
  | fenceI hi => exact absurd hi hf
  | result | csr | jump | branch | fence => simp [*]

/-- A store removes nothing from `StaleSet` (R44, R54). -/
theorem exec_stale_of_store {i : Instr} {s t : State} {a : Nat} (h : exec i s = .next t) (hs : isStore i = true) (ha : a ∈ s.stale) :
    a ∈ t.stale := by
  cases exec_next h with
  | store _ _ _ _ _ _ _ _ _ _ _ _ e =>
    subst e
    exact (mem_staleAfterStore s _ _ a).mpr (.inl ha)
  | fenceI hi => subst hi; cases hs
  | result | csr | jump | branch | fence => simp [*]

/-- `fence.i` empties `StaleSet` (R171). -/
theorem execFenceI_stale {s t : State} (h : exec .fenceI s = .next t) : t.stale = [] := by
  cases h
  rfl

/-- Settles O43. -/
theorem onlyTransfersSetPc : Obligations.OnlyTransfersSetPc :=
  fun _ _ _ h => ⟨exec_pc_of_not_transfer h, fun rs1 rs2 _ hi => exec_pc_of_branch h ⟨rs1, rs2, hi⟩⟩

/-- Settles O44. -/
theorem onlyTheDestinationRegisterChanges : Obligations.OnlyTheDestinationRegisterChanges :=
  fun _ s t h => ⟨fun _ hr => exec_readReg_of_not_destination h hr, s.readReg_zero, t.readReg_zero⟩

/-- Settles O45. -/
theorem onlyStoresAndFenceITouchStaleSet : Obligations.OnlyStoresAndFenceITouchStaleSet :=
  fun _ _ _ h => ⟨fun hi => execFenceI_stale (hi ▸ h), exec_stale_of_not_store h, fun hs _ ha => exec_stale_of_store h hs ha⟩

/-- Settles O46. -/
theorem csrFileKeepsItsShape : Obligations.CsrFileKeepsItsShape :=
  fun _ _ _ h => ⟨exec_csr_shape h, exec_csrs_of_not_csr h, fun _ _ hc hro => exec_readOnly_csr h hc hro, exec_config h⟩

/-! ## The invariant after each operation on the state -/

/-- The next address of an aligned pc is aligned, also where it wraps (R25). -/
theorem add_four_aligned {p : Word} (h : p.toNat % 4 = 0) : (p + 4).toNat % 4 = 0 := by
  rw [BitVec.toNat_add]
  change (p.toNat + 4) % 2 ^ 32 % 4 = 0
  omega

theorem State.Inv.setPc {s : State} {p : Word} (h : s.Inv) (hp : p.toNat % 4 = 0) : (s.setPc p).Inv := by
  obtain ⟨hwf, hmem, hrising, hstale, hcoherent, _, hcsrs⟩ := h
  exact ⟨hwf, hmem, hrising, hstale, hcoherent, hp, hcsrs⟩

theorem State.Inv.pc_aligned {s : State} (h : s.Inv) : s.pc.toNat % 4 = 0 := by
  obtain ⟨_, _, _, _, _, hpc, _⟩ := h
  exact hpc

theorem State.Inv.stale_of_coherent {s : State} (h : s.Inv) (hc : s.config.ifetchCoherent = true) : s.stale = [] := by
  obtain ⟨_, _, _, _, hcoherent, _, _⟩ := h
  exact hcoherent hc

theorem State.Inv.advance {s : State} (h : s.Inv) : s.advance.Inv :=
  h.setPc (add_four_aligned h.pc_aligned)

theorem State.Inv.writeReg {s : State} (h : s.Inv) (r : RegId) (v : Word) : (s.writeReg r v).Inv := by
  simpa only [State.Inv, State.writeReg_mem, State.writeReg_config, State.writeReg_stale, State.writeReg_pc,
    State.writeReg_csrs] using h

/-- The CSR addresses, which is all the invariant says of a CSR, stay. -/
theorem State.Inv.setCsr {s : State} (h : s.Inv) (a : CsrAddr) (v : Word) : (s.setCsr a v).Inv := by
  obtain ⟨hwf, hmem, hrising, hstale, hcoherent, hpc, hcsrs⟩ := h
  have haddr := congrArg (List.map fun c => c.1.toNat) (setCsr_shape s a v)
  simp only [List.map_map, Function.comp_def] at haddr
  exact ⟨hwf, hmem, hrising, hstale, hcoherent, hpc, by rwa [haddr]⟩

theorem State.Inv.clearStale {s : State} (h : s.Inv) : ({ s with stale := [] } : State).Inv := by
  obtain ⟨hwf, hmem, _, _, _, hpc, hcsrs⟩ := h
  exact ⟨hwf, hmem, rfl, rfl, fun _ => rfl, hpc, hcsrs⟩

/-- The bytes of a backed range are backed, named by their addresses. -/
theorem AllBacked.backed_of_mem {s : State} {a n b : Nat} (h : AllBacked s a n) (hle : a ≤ b) (hlt : b < a + n) :
    backed s.config b = true := by
  have hb := h (b - a) (by omega)
  rwa [Nat.add_sub_cancel' hle] at hb

/-- An aligned access of 1, 2 or 4 bytes does not wrap past 2^32 (log 13). -/
theorem aligned_access_le {addr : Word} {n : Nat} (hn : n = 1 ∨ n = 2 ∨ n = 4) (ha : addr.toNat % n = 0) :
    addr.toNat + n ≤ 2 ^ 32 := by
  have hlt := addr.isLt
  rcases hn with rfl | rfl | rfl <;> omega

/-- A store keeps `StaleSet` a rising list (log 11), coherent fetches or not. -/
theorem rising_staleAfterStore {s : State} (a n : Nat) (h : rising s.stale = true) : rising (s.staleAfterStore a n) = true := by
  unfold State.staleAfterStore
  split
  · exact h
  · exact rising_addStaleRange n a h

/-- Writing bytes in a backed range below 2^32, and marking them stale, keeps the invariant (R44). -/
theorem State.Inv.storeBytes {s : State} (h : s.Inv) {a : Nat} {bs : List Byte} (hle : a + bs.length ≤ 2 ^ 32)
    (hb : AllBacked s a bs.length) :
    ({ s with mem := s.mem.setBytes a bs, stale := s.staleAfterStore a bs.length } : State).Inv := by
  obtain ⟨hwf, hmem, hrising, hstale, hcoherent, hpc, hcsrs⟩ := h
  rw [List.all_eq_true] at hmem hstale
  refine ⟨Memory.wf_setBytes hwf hle, List.all_eq_true.mpr fun c hc => ?_, rising_staleAfterStore a _ hrising,
    List.all_eq_true.mpr fun b hmark => ?_, fun hc => ?_, hpc, hcsrs⟩
  · rcases Memory.mem_setBytes hc with hold | ⟨hle, hlt⟩
    · exact hmem c hold
    · exact hb.backed_of_mem hle hlt
  · rcases (mem_staleAfterStore s a _ b).mp hmark with hold | ⟨_, hle, hlt⟩
    · exact hstale b hold
    · exact hb.backed_of_mem hle hlt
  · exact (if_pos hc).trans (hcoherent hc)

/-- Every instruction that completes keeps the invariant. -/
theorem exec_keeps_inv {i : Instr} {s t : State} (hs : s.Inv) (h : exec i s = .next t) : t.Inv := by
  cases exec_next h with
  | result rd v _ _ _ _ _ e => exact e ▸ (hs.writeReg rd v).advance
  | csr rd a _ held v _ _ _ _ _ _ _ e => exact e ▸ ((hs.setCsr a held).writeReg rd v).advance
  | store addr n v _ _ _ _ _ hn ha hb _ e =>
    have hlen := length_toBytesLE n (v.extractLsb' 0 (8 * n)).toNat
    have hstored := hs.storeBytes (by rw [hlen]; exact aligned_access_le hn ha) (by rwa [hlen])
    rw [hlen] at hstored
    exact e ▸ hstored.advance
  | jump rd _ _ _ _ _ _ hp e => exact e ▸ (hs.writeReg rd s.nextPc).setPc hp
  | branch p _ _ _ _ _ hp e =>
    have haligned : p.toNat % 4 = 0 := by
      rcases hp with rfl | ⟨hp, _⟩
      · exact add_four_aligned hs.pc_aligned
      · exact hp
    exact e ▸ hs.setPc haligned
  | fence _ _ _ e => exact e ▸ hs.advance
  | fenceI _ e => exact e ▸ hs.clearStale.advance

/-- Settles O49: a step that completes is an instruction that completes. -/
theorem everyStepKeepsTheInvariant : Obligations.EveryStepKeepsTheInvariant := by
  intro s t hs h
  obtain ⟨_, _, _, _, hexec⟩ := step_next h
  exact exec_keeps_inv hs hexec

/-! ## Runs -/

/-- What holds at the start and is kept by every step holds wherever a run arrives. -/
theorem core_run_induction {P : State → Prop} (hstep : ∀ s t, P s → step s = .next t → P t) {n : Nat} {s t : State} (hs : P s)
    (h : core.run n s = .next t) : P t := by
  induction n generalizing t with
  | zero => cases h; exact hs
  | succ n ih =>
    obtain ⟨u, hu, ht⟩ := run_succ_last h
    exact hstep u t (ih hu) ht

theorem step_config {s t : State} (h : step s = .next t) : t.config = s.config := by
  obtain ⟨_, _, _, _, hexec⟩ := step_next h
  exact exec_config hexec

theorem run_config {n : Nat} {s t : State} (h : core.run n s = .next t) : t.config = s.config :=
  core_run_induction (P := fun u => u.config = s.config) (fun _ _ hu ht => (step_config ht).trans hu) rfl h

/-- A reset at valid parameters meets the invariant (R240, R242, R243). -/
theorem State.resetFrom_inv {p : ResetParams} (h : p.Valid) : (State.resetFrom p).Inv := by
  obtain ⟨hpc, hwf, hmem, hcsrs⟩ := h
  exact ⟨hwf, hmem, rfl, rfl, fun _ => rfl, hpc, hcsrs⟩

/-- Settles O50, by induction on the steps from the reset. -/
theorem everyReachableStateKeepsTheInvariant : Obligations.EveryReachableStateKeepsTheInvariant := by
  intro p n t hp h
  have ht : t.Inv := core_run_induction everyStepKeepsTheInvariant (State.resetFrom_inv hp) h
  have hconfig : t.config = p.config := run_config h
  exact ⟨ht, ht.pc_aligned, fun hc => ht.stale_of_coherent (by rwa [hconfig])⟩

end Sys2Proof.Machine
end

section
/-! PROOFS of the state family, `x0` as destination (R21). The key is to see an instruction as a function of its `rd` field: whatever
the field, it raises alike, or it makes the same change and then writes its result to the register the field names. Only `csrrw` and
`csrrwi` let the field decide more, namely whether the CSR is read (R175, R178). -/

namespace Sys2Proof.Machine

/-! ## The `rd` field -/

/-- Putting the destination an instruction has into its `rd` field changes nothing. -/
theorem withDestination_self {i : Instr} {rd : RegId} (h : destination i = some rd) : withDestination i rd = i := by
  cases i <;> cases h <;> rfl

/-- `i` writes `v` to a CSR and reads it only for the sake of `rd`: `csrrw` and `csrrwi` (R175, R178). -/
def Swaps (i : Instr) (s : State) (rd : RegId) (csr : CsrAddr) (v : Word) : Prop :=
  ∃ src, (i = .csrrw rd csr src ∧ v = s.readReg src) ∨ (i = .csrrwi rd csr src ∧ v = BitVec.ofNat 32 src.toNat)

/-- `i` is one of the two instructions that `Swaps` speaks of. -/
def isSwap : Instr → Bool
  | .csrrw .. | .csrrwi .. => true
  | _ => false

theorem Swaps.isSwap {i : Instr} {s : State} {rd : RegId} {csr : CsrAddr} {v : Word} (h : Swaps i s rd csr v) :
    isSwap i = true := by
  obtain ⟨src, ⟨rfl, _⟩ | ⟨rfl, _⟩⟩ := h <;> rfl

theorem Swaps.destination {i : Instr} {s : State} {rd : RegId} {csr : CsrAddr} {v : Word} (h : Swaps i s rd csr v) :
    destination i = some rd := by
  obtain ⟨src, ⟨rfl, _⟩ | ⟨rfl, _⟩⟩ := h <;> rfl

/-- The instruction determines the CSR and the value. -/
theorem Swaps.unique {i : Instr} {s : State} {rd : RegId} {a b : CsrAddr} {v w : Word} (h : Swaps i s rd a v)
    (h' : Swaps i s rd b w) : a = b ∧ v = w := by
  obtain ⟨src, ⟨rfl, rfl⟩ | ⟨rfl, rfl⟩⟩ := h
  · obtain ⟨src', ⟨e, rfl⟩ | ⟨e, _⟩⟩ := h'
    · cases e; exact ⟨rfl, rfl⟩
    · cases e
  · obtain ⟨src', ⟨e, _⟩ | ⟨e, rfl⟩⟩ := h'
    · cases e
    · cases e; exact ⟨rfl, rfl⟩

/-! ## The CSR access as a function of the `rd` field -/

/-- The value a CSR access gives to `x[rd]` (R174). -/
def Csr.valueRead (c : Csr) (a : CsrAddr) (reads : Bool) : Word := if reads then Config.csrRead a c.value else 0

/-- What the CSR holds once it was read, where it is (log 5). -/
def Csr.afterRead (c : Csr) (a : CsrAddr) (reads : Bool) : Word := if reads then Config.csrAfterRead a c.value else c.value

/-- What the CSR holds after the access (R174: read, then written). -/
def Csr.afterAccess (c : Csr) (a : CsrAddr) (reads : Bool) : Option (Word → Word) → Word
  | none => c.afterRead a reads
  | some f => Config.csrWrite a (c.afterRead a reads) (f (c.valueRead a reads))

/-- Whether a CSR access raises depends on the CSR and on whether it writes, and neither on `rd` nor on whether it reads (R174). -/
theorem csrAccess_uniform (s : State) (a : CsrAddr) (update : Option (Word → Word)) :
    (∀ word r reads, csrAccess s word r a reads update = .fault (.illegalInstruction word)) ∨
    ∃ c, s.findCsr a = some c ∧ ∀ word r reads,
      csrAccess s word r a reads update = writeResult (s.setCsr a (c.afterAccess a reads update)) r (c.valueRead a reads) := by
  by_cases hok : ∃ c, s.findCsr a = some c ∧ (update.isSome = true → c.readOnly = false)
  · obtain ⟨c, hc, hw⟩ := hok
    refine .inr ⟨c, hc, fun word r reads => ?_⟩
    rcases csrAccess_cases s word r a reads update with ⟨hn, _⟩ | ⟨d, hd, hu, hro, _⟩ | ⟨d, held, hd, _, hheld, e⟩
    · cases hn.symm.trans hc
    · cases hd.symm.trans hc
      cases (hw hu).symm.trans hro
    · cases hd.symm.trans hc
      subst hheld
      cases update <;> exact e
  · refine .inl fun word r reads => ?_
    rcases csrAccess_cases s word r a reads update with ⟨_, e⟩ | ⟨_, _, _, _, e⟩ | ⟨c, _, hc, hw, _, _⟩
    · exact e
    · exact e
    · exact absurd ⟨c, hc, hw⟩ hok

/-! ## Every instruction as a function of its `rd` field -/

/-- What an instruction that writes a register answers at `s`, for every register `r` in its `rd` field. -/
inductive ByDestination (i : Instr) (s : State) : Prop where
  /-- The same change of state other than the registers, then a write of the same value to `r`. -/
  | result (s' : State) (v p : Word) (hregs : s'.regs = s.regs) (hi : isSwap i = false)
      (h : ∀ r, exec (withDestination i r) s = .next ((s'.writeReg r v).setPc p))
  /-- `csrrw` or `csrrwi`, which read the CSR only if `r` is not `x0` (R175, R178). -/
  | swap (rd : RegId) (a : CsrAddr) (c : Csr) (v : Word) (hi : Swaps i s rd a v) (hc : s.findCsr a = some c)
      (h : ∀ r, exec (withDestination i r) s =
        writeResult (s.setCsr a (Config.csrWrite a (c.afterRead a (r != 0)) v)) r (c.valueRead a (r != 0)))
  /-- The same exception (R130, R150). -/
  | raises (f : Fault) (hi : isCsr i = false) (h : ∀ r, exec (withDestination i r) s = .fault f)
  /-- A CSR instruction that raises with its own word (R174, R213). -/
  | illegal (hi : isCsr i = true) (h : ∀ r, exec (withDestination i r) s = .fault (.illegalInstruction (encode (withDestination i r))))

/-- Computations, `lui`, `auipc`. -/
theorem ByDestination.of_writeResult {i : Instr} {s : State} {v : Word} (hi : isSwap i = false)
    (h : ∀ r, exec (withDestination i r) s = writeResult s r v) : ByDestination i s :=
  .result s v (s.pc + 4) rfl hi fun r => by
    rw [h, writeResult, State.advance, State.nextPc, State.writeReg_pc]

/-- Loads: what memory answers does not depend on `rd`. -/
theorem ByDestination.of_load {i : Instr} {s : State} {addr : Word} {n : Nat} {extend : BitVec (8 * n) → Word}
    (hi : isSwap i = false) (hc : isCsr i = false) (h : ∀ r, exec (withDestination i r) s = load s r addr n extend) :
    ByDestination i s := by
  cases hread : memRead s addr n with
  | ok v => exact .of_writeResult (v := extend v) hi fun r => by simp only [h, load, hread]
  | error f => exact .raises f hc fun r => by simp only [h, load, hread, raise]

/-- `jal` and `jalr`. -/
theorem ByDestination.of_transfer {i : Instr} {s : State} {t : Word} (hi : isSwap i = false) (hc : isCsr i = false)
    (h : ∀ r, exec (withDestination i r) s = transfer s t (some (r, s.nextPc))) : ByDestination i s := by
  by_cases ht : t.toNat % 4 = 0
  · exact .result s s.nextPc t rfl hi fun r => (h r).trans (if_neg (not_not_intro ht))
  · exact .raises (.instructionAddressMisaligned t) hc fun r => (h r).trans (if_pos ht)

/-- The CSR instructions that read whatever `rd` is: `csrrs`, `csrrc`, `csrrsi`, `csrrci`. -/
theorem ByDestination.of_csrAccess {i : Instr} {s : State} {a : CsrAddr} {update : Option (Word → Word)} (hi : isSwap i = false)
    (hc : isCsr i = true)
    (h : ∀ r, exec (withDestination i r) s = csrAccess s (encode (withDestination i r)) r a true update) : ByDestination i s := by
  rcases csrAccess_uniform s a update with hraise | ⟨c, _, hnext⟩
  · exact .illegal hc fun r => (h r).trans (hraise _ r true)
  · refine .result (s.setCsr a (c.afterAccess a true update)) (c.valueRead a true) (s.pc + 4) rfl hi fun r => ?_
    rw [h, hnext, writeResult, State.advance, State.nextPc, State.writeReg_pc, State.setCsr_pc]

/-- `csrrw` and `csrrwi`. -/
theorem ByDestination.of_swap {i : Instr} {s : State} {rd : RegId} {a : CsrAddr} {v : Word} (hi : Swaps i s rd a v)
    (hc : isCsr i = true)
    (h : ∀ r, exec (withDestination i r) s = csrAccess s (encode (withDestination i r)) r a (r != 0) (some fun _ => v)) :
    ByDestination i s := by
  rcases csrAccess_uniform s a (some fun _ => v) with hraise | ⟨c, hfind, hnext⟩
  · exact .illegal hc fun r => (h r).trans (hraise _ r _)
  · exact .swap rd a c v hi hfind fun r => (h r).trans (hnext _ r _)

/-- `zext_32(zimm)` as a number (R79). -/
theorem immZ_eq_ofNat (zimm : BitVec 5) : immZ zimm = BitVec.ofNat 32 zimm.toNat := by
  simp [immZ]

/-- Every instruction that writes a register. -/
theorem exec_byDestination {i : Instr} {rd : RegId} (s : State) (hd : destination i = some rd) : ByDestination i s := by
  cases i with
  | lui | auipc | addi | slti | sltiu | xori | ori | andi | slli | srli | srai => exact .of_writeResult rfl fun _ => rfl
  | add | sub | sll | slt | sltu | xor | srl | sra | or | and => exact .of_writeResult rfl fun _ => rfl
  | mul | mulh | mulhsu | mulhu | div | divu | rem | remu => exact .of_writeResult rfl fun _ => rfl
  | lb | lh | lw | lbu | lhu => exact .of_load rfl rfl fun _ => rfl
  | jal | jalr => exact .of_transfer rfl rfl fun _ => rfl
  | csrrs | csrrc | csrrsi | csrrci => exact .of_csrAccess rfl rfl fun _ => rfl
  | csrrw rd csr rs1 => exact .of_swap (rd := rd) ⟨rs1, .inl ⟨rfl, rfl⟩⟩ rfl fun _ => rfl
  | csrrwi rd csr zimm => exact .of_swap (rd := rd) ⟨zimm, .inr ⟨rfl, immZ_eq_ofNat zimm⟩⟩ rfl fun _ => rfl
  | beq | bne | blt | bge | bltu | bgeu | sb | sh | sw | fence | fenceI | ecall | ebreak | lwu | ld | sd | addiw => cases hd

/-! ## The instruction and its form with `x0` -/

/-- `u`, what the form with `x0` answers, beside `t`, what the instruction answers (R21). -/
def DiscardsOnly (i : Instr) (s t u : State) (rd : RegId) : Prop :=
  u.regs = s.regs ∧ u.pc = t.pc ∧ u.mem = t.mem ∧ u.stale = t.stale ∧ u.config = t.config ∧
  ((∀ csr v, ¬Swaps i s rd csr v) → u.csrs = t.csrs) ∧
  ∀ csr v, Swaps i s rd csr v →
    (∀ c, s.findCsr csr = some c → u.findCsr csr = some { c with value := Config.csrWrite csr c.value v }) ∧
    ∀ a, a ≠ csr → u.findCsr a = t.findCsr a

/-- Where the change before the register write is the same, the two states differ in the register alone. -/
theorem discardsOnly_of_result {i : Instr} {s s' : State} {rd : RegId} {v p : Word} (hregs : s'.regs = s.regs)
    (hi : isSwap i = false) : DiscardsOnly i s ((s'.writeReg rd v).setPc p) ((s'.writeReg 0 v).setPc p) rd := by
  refine ⟨hregs, rfl, by simp, by simp, by simp, fun _ => by simp, fun csr w hw => ?_⟩
  rw [hw.isSwap] at hi
  cases hi

/-- `csrrw` and `csrrwi` with `x0` write the CSR without the read. -/
theorem discardsOnly_of_swap {i : Instr} {s : State} {rd : RegId} {a : CsrAddr} {c : Csr} {v held r r' : Word}
    (hi : Swaps i s rd a v) (hc : s.findCsr a = some c) :
    DiscardsOnly i s ((s.setCsr a held).writeReg rd r).advance
      ((s.setCsr a (Config.csrWrite a c.value v)).writeReg 0 r').advance rd := by
  refine ⟨rfl, by simp, by simp, by simp, by simp, fun hn => absurd hi (hn a v), fun csr w hw => ?_⟩
  obtain ⟨rfl, rfl⟩ := hi.unique hw
  simp only [State.advance_findCsr, State.writeReg_findCsr]
  refine ⟨fun d hd => ?_, fun b hb => ?_⟩
  · cases hc.symm.trans hd
    exact findCsr_setCsr_self _ hc
  · rw [findCsr_setCsr_of_ne s _ hb, findCsr_setCsr_of_ne s _ hb]

/-- An instruction and its form with `x0` complete together, or raise alike, or raise each with its own word (R21, R213). -/
theorem exec_withDestination_zero {i : Instr} {rd : RegId} (s : State) (hd : destination i = some rd) :
    (∃ t u, exec i s = .next t ∧ exec (withDestination i 0) s = .next u ∧ DiscardsOnly i s t u rd) ∨
    (∃ f, isCsr i = false ∧ exec i s = .fault f ∧ exec (withDestination i 0) s = .fault f) ∨
    (isCsr i = true ∧ exec i s = .fault (.illegalInstruction (encode i)) ∧
      exec (withDestination i 0) s = .fault (.illegalInstruction (encode (withDestination i 0)))) := by
  have hself : exec i s = exec (withDestination i rd) s := by rw [withDestination_self hd]
  cases exec_byDestination s hd with
  | result s' v p hregs hi h =>
    exact .inl ⟨_, _, hself.trans (h rd), h 0, discardsOnly_of_result hregs hi⟩
  | swap rd' a c v hi hc h =>
    obtain rfl : rd' = rd := Option.some.inj (hi.destination.symm.trans hd)
    exact .inl ⟨_, _, hself.trans (h rd'), h 0, discardsOnly_of_swap hi hc⟩
  | raises f hi h =>
    exact .inr (.inl ⟨f, hi, hself.trans (h rd), h 0⟩)
  | illegal hi h =>
    have hrd := hself.trans (h rd)
    rw [withDestination_self hd] at hrd
    exact .inr (.inr ⟨hi, hrd, h 0⟩)

/-- Settles O52, by the three ways an instruction and its form with `x0` can end. -/
theorem zeroRegisterReadsZeroAndDiscards : Obligations.ZeroRegisterReadsZeroAndDiscards := by
  intro s
  refine ⟨s.readReg_zero, s.writeReg_zero, fun i rd hd => ?_⟩
  rcases exec_withDestination_zero s hd with ⟨t, u, hi, hj, hdiscards⟩ | ⟨f, hc, hi, hj⟩ | ⟨hc, hi, hj⟩
  · refine ⟨fun t' ht' => ?_, fun _ _ => ⟨t, hi⟩, fun f hf => ?_, fun _ f hf => ?_, fun g hg => ?_⟩
    · cases hi.symm.trans ht'
      exact ⟨u, hj, hdiscards⟩
    · cases hi.symm.trans hf
    · cases hi.symm.trans hf
    · cases hj.symm.trans hg
  · refine ⟨fun t ht => ?_, fun u hu => ?_, fun g hg => ?_, fun hcsr => ?_, fun _ _ => ⟨f, hi⟩⟩
    · cases hi.symm.trans ht
    · cases hj.symm.trans hu
    · cases hi.symm.trans hg
      simpa [hc] using hj
    · cases hc.symm.trans hcsr
  · refine ⟨fun t ht => ?_, fun u hu => ?_, fun g hg => ?_, fun _ g hg => ?_, fun _ _ => ⟨_, hi⟩⟩
    · cases hi.symm.trans ht
    · cases hj.symm.trans hu
    · cases hi.symm.trans hg
      simpa [hc] using hj
    · cases hi.symm.trans hg
      rfl

end Sys2Proof.Machine
end

section
/-! PROOFS of the memory family: what a byte reads as (R49), who writes one (R40), the byte order that stores, loads and the fetch share
(R42), and the checks of the fetch with the part `StaleSet` plays in them (R45, R54, R247). -/

namespace Sys2Proof.Machine

/-! ## The checks of the fetch, in order (R45) -/

/-- A fetch that raises ends the step (R10). -/
theorem step_eq_fault_of_fetch {s : State} {f : Fault} (h : fetch s = .error f) : step s = .fault f := by
  unfold step
  rw [h]
  rfl

/-- The alignment of pc is checked before anything else. -/
theorem fetch_eq_misaligned {s : State} (ha : s.pc.toNat % 4 ≠ 0) : fetch s = .error (.instructionAddressMisaligned s.pc) := by
  rcases fetch_cases s with ⟨_, h⟩ | ⟨hn, _⟩ | ⟨hn, _⟩ | ⟨hn, _⟩
  · exact h
  all_goals exact absurd hn ha

/-- The backing is checked next. -/
theorem fetch_eq_unbacked {s : State} (ha : s.pc.toNat % 4 = 0) (hb : ¬AllBacked s s.pc.toNat 4) :
    fetch s = .error (.instructionAccessFault s.pc) := by
  rcases fetch_cases s with ⟨hn, _⟩ | ⟨_, _, h⟩ | ⟨_, hn, _⟩ | ⟨_, hn, _⟩
  · exact absurd ha hn
  · exact h
  all_goals exact absurd hn hb

/-- `StaleSet` is checked last. -/
theorem fetch_eq_stale {s : State} (ha : s.pc.toNat % 4 = 0) (hb : AllBacked s s.pc.toNat 4)
    (hs : ∃ k, k < 4 ∧ s.pc.toNat + k ∈ s.stale) : fetch s = .error (.staleFetch s.pc) := by
  rcases fetch_cases s with ⟨hn, _⟩ | ⟨_, hn, _⟩ | ⟨_, _, _, h⟩ | ⟨_, _, hn, _⟩
  · exact absurd ha hn
  · exact absurd hb hn
  · exact h
  · obtain ⟨k, hk, hmem⟩ := hs
    exact absurd hmem (hn k hk)

/-- Settles O2, check by check. -/
theorem fetchChecksComeInOrder : Obligations.FetchChecksComeInOrder :=
  fun _ => ⟨fun ha => step_eq_fault_of_fetch (fetch_eq_misaligned ha),
    fun ha hb => step_eq_fault_of_fetch (fetch_eq_unbacked ha hb),
    fun ha hb hs => step_eq_fault_of_fetch (fetch_eq_stale ha hb hs),
    fun ha hb hs => fetch_eq_ok ha hb hs⟩

/-! ## Who writes memory (R40) -/

/-- Only a store changes memory (R40). -/
theorem exec_mem_of_not_store {i : Instr} {s t : State} (h : exec i s = .next t) (hs : isStore i = false) : t.mem = s.mem := by
  cases exec_next h with
  | store _ _ _ _ hn => rw [hs] at hn; cases hn
  | result | csr | jump | branch | fence | fenceI => simp [*]

/-- Settles O42. -/
theorem onlyStoresWriteMemory : Obligations.OnlyStoresWriteMemory := by
  intro i s t hs h
  have hmem := exec_mem_of_not_store h hs
  exact ⟨hmem, fun a => by rw [hmem]⟩

/-! ## The memory list is no more than its bytes (log 3) -/

/-- A pair listed at rising addresses is what its address reads as. -/
theorem Memory.get_of_mem {m : Memory} {c : Host.Cell} (hm : (m.map Prod.fst).Pairwise (· < ·)) (hc : c ∈ m) : m.get c.1 = c.2 := by
  induction m with
  | nil => cases hc
  | cons d m ih =>
    rw [List.map_cons, List.pairwise_cons] at hm
    rw [Memory.get]
    rcases List.mem_cons.mp hc with rfl | hc
    · exact if_pos rfl
    · have hlt : d.1 < c.1 := hm.1 _ (List.mem_map_of_mem hc)
      rw [if_neg (Nat.ne_of_lt hlt), ih hm.2 hc]

/-- An address that reads as anything but the unlisted byte is listed. -/
theorem Memory.mem_of_get_ne {m : Memory} {a : Nat} (h : m.get a ≠ unlistedByte) : (a, m.get a) ∈ m := by
  induction m with
  | nil => exact absurd rfl h
  | cons d m ih =>
    rw [Memory.get] at h ⊢
    split at h
    · next hd =>
      subst hd
      simp
    · next hd =>
      rw [if_neg hd]
      exact List.mem_cons_of_mem _ (ih h)

/-- In the canonical form the listed pairs are exactly the bytes that are not the unlisted byte. -/
theorem Memory.mem_iff_get {m : Memory} (hm : m.wf = true) (c : Host.Cell) : c ∈ m ↔ m.get c.1 = c.2 ∧ c.2 ≠ unlistedByte := by
  obtain ⟨hrising, hlisted⟩ := (Memory.wf_iff m).mp hm
  constructor
  · exact fun hc => ⟨Memory.get_of_mem hrising hc, (hlisted c hc).2⟩
  · rintro ⟨hget, hne⟩
    rw [← hget] at hne
    have hmem := Memory.mem_of_get_ne hne
    rwa [hget] at hmem

/-- Two memories in canonical form whose bytes all read alike list the same pairs, in the same order. -/
theorem Memory.ext_of_wf {m m' : Memory} (hm : m.wf = true) (hm' : m'.wf = true) (h : ∀ a, m.get a = m'.get a) : m = m' := by
  have hsame : ∀ c, c ∈ m ↔ c ∈ m' := fun c => by rw [Memory.mem_iff_get hm, Memory.mem_iff_get hm', h]
  have hrising := ((Memory.wf_iff m).mp hm).1
  have hrising' := ((Memory.wf_iff m').mp hm').1
  have hperm : m.Perm m' := (List.perm_ext_iff_of_nodup hrising.nodup.of_map hrising'.nodup.of_map).mpr hsame
  exact hperm.eq_of_pairwise (le := fun c d => c.1 < d.1) (fun c d _ _ hlt hgt => absurd hgt (Nat.lt_asymm hlt))
    (List.pairwise_map.mp hrising) (List.pairwise_map.mp hrising')

/-- Settles O55. -/
theorem bytesReadAsLastWritten : Obligations.BytesReadAsLastWritten :=
  ⟨fun m a b v => m.get_set a b v, fun _ _ _ hm ha => Memory.wf_set hm ha, fun _ _ hm hm' h => Memory.ext_of_wf hm hm' h⟩

/-! ## Backed ranges -/

/-- What is backed depends on the parameters alone (R50). -/
theorem AllBacked.of_config {s t : State} {a n : Nat} (h : AllBacked s a n) (hc : t.config = s.config) : AllBacked t a n :=
  fun k hk => by rw [hc]; exact h k hk

/-- A part of a backed range is backed. -/
theorem AllBacked.part {s : State} {a n k m : Nat} (h : AllBacked s a n) (hle : k + m ≤ n) : AllBacked s (a + k) m :=
  fun j hj => by rw [Nat.add_assoc]; exact h (k + j) (by omega)

/-! ## The bytes of a stored value (R42, R156) -/

/-- The `n` bytes from `a` on are the low bytes of `v`, the least significant at the lowest address (R42). -/
def HoldsBytes (s : State) (a n : Nat) (v : Word) : Prop :=
  ∀ k, k < n → s.mem.get (a + k) = v.extractLsb' (8 * k) 8

/-- What a store that completed says: its checks passed, its bytes are there, the registers are as before (R44, R156). -/
theorem Stores.of_next {i : Instr} {s t : State} {addr : Word} {n : Nat} {v : Word} (h : Stores i s addr n v)
    (ht : exec i s = .next t) :
    addr.toNat % n = 0 ∧ AllBacked t addr.toNat n ∧ SameRegs s t ∧ HoldsBytes t addr.toNat n v := by
  obtain ⟨hstores, hmisaligned, hunbacked⟩ := h
  by_cases ha : addr.toNat % n = 0
  · by_cases hb : AllBacked s addr.toNat n
    · obtain ⟨u, hu, hregs, _, _, hconfig, hbytes, _⟩ := hstores ha hb
      cases ht.symm.trans hu
      exact ⟨ha, hb.of_config hconfig, hregs, hbytes⟩
    · cases ht.symm.trans (hunbacked ha hb)
  · cases ht.symm.trans (hmisaligned ha)

/-- Two neighbouring bytes of a value are 16 of its bits. -/
theorem HoldsBytes.half {s : State} {a n : Nat} {v : Word} (h : HoldsBytes s a n v) {k : Nat} (hk : k + 1 < n) :
    s.mem.get (a + k + 1) ++ s.mem.get (a + k) = v.extractLsb' (8 * k) 16 := by
  rw [Nat.add_assoc, h (k + 1) hk, h k (by omega)]
  exact BitVec.extractLsb'_append_extractLsb'_eq_extractLsb' (by omega)

/-- All four bytes of a value are the value. -/
theorem HoldsBytes.word {s : State} {a : Nat} {v : Word} (h : HoldsBytes s a 4 v) :
    s.mem.get (a + 3) ++ s.mem.get (a + 2) ++ s.mem.get (a + 1) ++ s.mem.get a = v := by
  have h0 : s.mem.get a = v.extractLsb' 0 8 := h 0 (by omega)
  rw [h 3 (by omega), h 2 (by omega), h 1 (by omega), h0]
  calc v.extractLsb' 24 8 ++ v.extractLsb' 16 8 ++ v.extractLsb' 8 8 ++ v.extractLsb' 0 8
      = v.extractLsb' 16 16 ++ v.extractLsb' 8 8 ++ v.extractLsb' 0 8 := by
        rw [BitVec.extractLsb'_append_extractLsb'_eq_extractLsb' (by omega)]
    _ = v.extractLsb' 8 24 ++ v.extractLsb' 0 8 := by rw [BitVec.extractLsb'_append_extractLsb'_eq_extractLsb' (by omega)]
    _ = v.extractLsb' 0 32 := BitVec.extractLsb'_append_extractLsb'_eq_extractLsb' (by omega)
    _ = v := BitVec.extractLsb'_eq_self

/-! ## Loads of bytes that are known (R42, R150) -/

theorem lbu_loads (s : State) (rd rs1 : RegId) (imm : BitVec 12) :
    Loads (.lbu rd rs1 imm) s rd (loadAddress s rs1 imm) 1 ((s.mem.get (loadAddress s rs1 imm).toNat).zeroExtend 32) :=
  load_loads (n := 1) (extend := fun v => v.zeroExtend 32) rfl (congrArg (·.zeroExtend 32) (ofBytesLE_one _).symm)

theorem lhu_loads (s : State) (rd rs1 : RegId) (imm : BitVec 12) :
    Loads (.lhu rd rs1 imm) s rd (loadAddress s rs1 imm) 2
      ((s.mem.get ((loadAddress s rs1 imm).toNat + 1) ++ s.mem.get (loadAddress s rs1 imm).toNat).zeroExtend 32) :=
  load_loads (n := 2) (extend := fun v => v.zeroExtend 32) rfl (congrArg (·.zeroExtend 32) (ofBytesLE_two _ _).symm)

theorem lw_loads (s : State) (rd rs1 : RegId) (imm : BitVec 12) :
    Loads (.lw rd rs1 imm) s rd (loadAddress s rs1 imm) 4
      (s.mem.get ((loadAddress s rs1 imm).toNat + 3) ++ s.mem.get ((loadAddress s rs1 imm).toNat + 2) ++
        s.mem.get ((loadAddress s rs1 imm).toNat + 1) ++ s.mem.get (loadAddress s rs1 imm).toNat) :=
  load_loads (n := 4) (extend := fun v => v) rfl (ofBytesLE_four _ _ _ _).symm

/-- A load whose checks pass leaves its value in the destination (R150). -/
theorem Loads.completes {i : Instr} {s : State} {rd : RegId} {addr : Word} {n : Nat} {v : Word} (h : Loads i s rd addr n v)
    (hrd : rd ≠ 0) (ha : addr.toNat % n = 0) (hb : AllBacked s addr.toNat n) :
    ∃ u, exec i s = .next u ∧ u.readReg rd = v := by
  obtain ⟨u, hu, hregs, _⟩ := h.1 ha hb
  exact ⟨u, hu, by rw [hregs rd, if_neg hrd, if_pos rfl]⟩

/-- A small offset above an aligned address is added without wrapping (R41). -/
theorem loadAddress_ofNat_toNat {s : State} {rs1 : RegId} {k : Nat} (ha : (s.readReg rs1).toNat % 4 = 0) (hk : k < 4) :
    (loadAddress s rs1 (BitVec.ofNat 12 k)).toNat = (s.readReg rs1).toNat + k := by
  have himm : immI (BitVec.ofNat 12 k) = BitVec.ofNat 32 k := by
    interval_cases k <;> rfl
  have hlt := (s.readReg rs1).isLt
  rw [loadAddress, himm, BitVec.toNat_add, BitVec.toNat_ofNat]
  omega

/-- `lbu` of a byte of a word that memory holds. -/
theorem lbu_of_holdsBytes {s : State} {rd rs1 : RegId} {v : Word} {k : Nat} (hrd : rd ≠ 0) (hk : k < 4)
    (ha : (s.readReg rs1).toNat % 4 = 0) (hb : AllBacked s (s.readReg rs1).toNat 4) (hv : HoldsBytes s (s.readReg rs1).toNat 4 v) :
    ∃ u, exec (.lbu rd rs1 (BitVec.ofNat 12 k)) s = .next u ∧ u.readReg rd = (v.extractLsb' (8 * k) 8).zeroExtend 32 := by
  have hload := lbu_loads s rd rs1 (BitVec.ofNat 12 k)
  have haddr := loadAddress_ofNat_toNat ha hk
  rw [haddr, hv k hk] at hload
  exact hload.completes hrd (Nat.mod_one _) (by rw [haddr]; exact hb.part (by omega))

/-- `lhu` of a half of a word that memory holds. -/
theorem lhu_of_holdsBytes {s : State} {rd rs1 : RegId} {v : Word} {k : Nat} (hrd : rd ≠ 0) (hk : k < 2)
    (ha : (s.readReg rs1).toNat % 4 = 0) (hb : AllBacked s (s.readReg rs1).toNat 4) (hv : HoldsBytes s (s.readReg rs1).toNat 4 v) :
    ∃ u, exec (.lhu rd rs1 (BitVec.ofNat 12 (2 * k))) s = .next u ∧
      u.readReg rd = (v.extractLsb' (16 * k) 16).zeroExtend 32 := by
  have hload := lhu_loads s rd rs1 (BitVec.ofNat 12 (2 * k))
  have haddr := loadAddress_ofNat_toNat ha (k := 2 * k) (by omega)
  rw [haddr, hv.half (k := 2 * k) (by omega), show 8 * (2 * k) = 16 * k by omega] at hload
  exact hload.completes hrd (by omega) (by rw [haddr]; exact hb.part (by omega))

/-- `lw` of a word that memory holds. -/
theorem lw_of_holdsBytes {s : State} {rd rs1 : RegId} {v : Word} (hrd : rd ≠ 0)
    (ha : (s.readReg rs1).toNat % 4 = 0) (hb : AllBacked s (s.readReg rs1).toNat 4) (hv : HoldsBytes s (s.readReg rs1).toNat 4 v) :
    ∃ u, exec (.lw rd rs1 0) s = .next u ∧ u.readReg rd = v := by
  have hload := lw_loads s rd rs1 0
  have haddr : (loadAddress s rs1 0).toNat = (s.readReg rs1).toNat := loadAddress_ofNat_toNat ha (k := 0) (by omega)
  rw [haddr, hv.word] at hload
  exact hload.completes hrd (by rwa [haddr]) (by rwa [haddr])

/-! ## The fetch after `fence.i` (R171) -/

/-- With nothing stale, an aligned and backed pc fetches the bytes memory holds there. -/
theorem fetch_setPc_of_stale_nil {s : State} {p : Word} (hs : s.stale = []) (hp : p.toNat % 4 = 0) (hb : AllBacked s p.toNat 4) :
    fetch (s.setPc p) = .ok (s.setPc p).fetchBytes :=
  fetch_eq_ok hp hb fun k _ => by simp [hs]

/-- `fence.i` always completes, and then every aligned and backed fetch gives the bytes of memory. -/
theorem fenceI_then_fetch {s : State} {p : Word} (hp : p.toNat % 4 = 0) (hb : AllBacked s p.toNat 4) :
    ∃ u, exec .fenceI s = .next u ∧ u.stale = [] ∧ fetch (u.setPc p) = .ok (s.setPc p).fetchBytes :=
  ⟨_, rfl, rfl, fetch_setPc_of_stale_nil rfl hp hb⟩

/-- Settles O53: the four bytes are there after the store, and each load and the fetch read their part of them. -/
theorem storedWordReadsLittleEndian : Obligations.StoredWordReadsLittleEndian := by
  intro s t rs1 rs2 rd hrd h
  have haddr : storeAddress s rs1 0 = s.readReg rs1 := BitVec.add_zero _
  obtain ⟨ha, hb, hregs, hv⟩ := (store_stores (i := .sw rs2 rs1 0) (n := 4) rfl).of_next h
  rw [haddr] at ha hb hv
  obtain ⟨u, hu, _, hfetch⟩ := fenceI_then_fetch ha hb
  have hword : (t.setPc (s.readReg rs1)).fetchBytes = s.readReg rs2 := hv.word
  rw [hword] at hfetch
  rw [← hregs rs1] at ha hb hv
  exact ⟨fun _ hk => lbu_of_holdsBytes hrd hk ha hb hv, fun _ hk => lhu_of_holdsBytes hrd hk ha hb hv,
    lw_of_holdsBytes hrd ha hb hv, u, hu, hfetch⟩

/-! ## What a store leaves stale (R44, R54) -/

/-- Only a store stores to anything (R40). -/
theorem isStore_of_storesTo {i : Instr} {s : State} {a : Nat} (h : storesTo i s a) : isStore i = true := by
  cases i with
  | sb | sh | sw => rfl
  | _ => exact h.elim

/-- A store that completes adds exactly the bytes it stores to, unless fetches are coherent (R44, R54). -/
theorem mem_stale_iff_of_store {i : Instr} {s t : State} (h : exec i s = .next t) (hs : isStore i = true) (a : Nat) :
    a ∈ t.stale ↔ a ∈ s.stale ∨ (s.config.ifetchCoherent = false ∧ storesTo i s a) := by
  cases exec_next h with
  | store addr n _ _ _ _ _ _ _ _ _ hto e =>
    subst e
    rw [hto]
    exact mem_staleAfterStore s addr.toNat n a
  | result _ _ _ hn | csr _ _ _ _ _ _ hn | jump _ _ _ hn | branch _ _ hn => rw [hs] at hn; cases hn
  | fence _ _ hi | fenceI hi => subst hi; cases hs

/-- With coherent fetches a store leaves `StaleSet` alone (R54). -/
theorem exec_stale_of_store_coherent {i : Instr} {s t : State} (h : exec i s = .next t) (hs : isStore i = true)
    (hc : s.config.ifetchCoherent = true) : t.stale = s.stale := by
  cases exec_next h with
  | store _ _ _ _ _ _ _ _ _ _ _ _ e =>
    subst e
    exact if_pos hc
  | fenceI hi => subst hi; cases hs
  | result | csr | jump | branch | fence => simp [*]

/-- A step at an aligned, backed pc with a stale byte raises `StaleFetch` (R45, R54). -/
theorem step_setPc_of_stale {s : State} {p : Word} (hp : p.toNat % 4 = 0) (hb : AllBacked s p.toNat 4)
    (hs : ∃ k, k < 4 ∧ p.toNat + k ∈ s.stale) : step (s.setPc p) = .fault (.staleFetch p) :=
  step_eq_fault_of_fetch (fetch_eq_stale (s := s.setPc p) hp hb hs)

/-- Settles O54: the stored byte of the word at `p` is stale exactly when fetches are not coherent, `fence` keeps it so and
`fence.i` does not. -/
theorem storedCodeNeedsFenceI : Obligations.StoredCodeNeedsFenceI := by
  refine ⟨State.resetFrom_stale, fun s t i p h hp hbacked ⟨k, hk, hto⟩ => ?_⟩
  have hstore := isStore_of_storesTo hto
  have hb : AllBacked t p.toNat 4 := hbacked.of_config (exec_config h)
  refine ⟨fun hc => ?_, fenceI_then_fetch hp hb, fun hc => ?_⟩
  · have hmarked : ∀ a, storesTo i s a → a ∈ t.stale := fun a ha => (mem_stale_iff_of_store h hstore a).mpr (.inr ⟨hc, ha⟩)
    have hstale : ∃ k, k < 4 ∧ p.toNat + k ∈ t.stale := ⟨k, hk, hmarked _ hto⟩
    exact ⟨hmarked, step_setPc_of_stale hp hb hstale,
      fun _ _ => ⟨t.advance, rfl, step_setPc_of_stale (s := t.advance) hp hb hstale⟩⟩
  · have hsame := exec_stale_of_store_coherent h hstore hc
    exact ⟨hsame, fun hinv => fetch_setPc_of_stale_nil (hsame.trans (hinv.stale_of_coherent hc)) hp hb⟩

end Sys2Proof.Machine
end

section
/-! PROOFS of the encoding family: the decoder against the opcode table, and the two round trips of decoder and encoder (R70 to R83,
R203). Everything turns on what a word with fixed bits (`w &&& mask = mtch`) has: each fixed bit and field is the pattern's, and two
patterns of one word agree where both fix a bit. No two rows of the table agree, so at most one row fits a word. -/

namespace Sys2Proof

/-! ## Words with fixed bits (R81) -/

/-- Two patterns of fixed bits that one word has agree where both fix a bit. -/
theorem patterns_agree {w mask mtch mask' mtch' : Word} (h : w &&& mask = mtch) (h' : w &&& mask' = mtch') :
    mtch &&& mask' = mtch' &&& mask := by
  rw [← h, ← h', BitVec.and_assoc, BitVec.and_assoc, BitVec.and_comm mask]

/-- A field whose bits are all fixed reads as the pattern has it. -/
theorem field_of_pattern {w mask mtch : Word} (h : w &&& mask = mtch) (start len : Nat)
    (hfixed : mask.extractLsb' start len = BitVec.allOnes len) : w.extractLsb' start len = mtch.extractLsb' start len := by
  rw [← h, BitVec.extractLsb'_and, hfixed, BitVec.and_allOnes]

/-- A bit that is fixed reads as the pattern has it. -/
theorem bit_of_pattern {w mask mtch : Word} (h : w &&& mask = mtch) (k : Nat) (hfixed : mask.getLsbD k = true) :
    w.getLsbD k = mtch.getLsbD k := by
  rw [← h, BitVec.getLsbD_and, hfixed, Bool.and_true]

/-! ## At most one row fits a word (R81) -/

/-- Any two rows fix some bit to different values. -/
theorem opcodeTable_pairwise_disagree :
    opcodeTable.Pairwise fun r q => r.mtch &&& q.mask ≠ q.mtch &&& r.mask := by decide

theorem fitting_row_unique {w : Word} {r q : Row} (hr : r ∈ opcodeTable) (hq : q ∈ opcodeTable)
    (hfits : w &&& r.mask = r.mtch) (hfits' : w &&& q.mask = q.mtch) : r = q := by
  have hsymm : Std.Symm fun r q : Row => r.mtch &&& q.mask ≠ q.mtch &&& r.mask := ⟨fun _ _ h => h.symm⟩
  by_contra hne
  exact opcodeTable_pairwise_disagree.forall hr hq hne (patterns_agree hfits hfits')

/-- Settles O8. -/
theorem atMostOneRowFits : Obligations.AtMostOneRowFits :=
  fun _ _ _ hr hq hfits hfits' => fitting_row_unique hr hq hfits hfits'

/-! ## What decode answers (R81, R82, R203) -/

theorem Row.fits_iff (r : Row) (w : Word) : r.fits w = true ↔ w &&& r.mask = r.mtch := beq_iff_eq

/-- The search through the table finds the admitted row that fits. -/
theorem decode_of_fits {w : Word} {r : Row} (hr : r ∈ opcodeTable) (hadm : r.admitted = true) (hfits : w &&& r.mask = r.mtch) :
    decode w = .ok (r.build w) := by
  have hfound : opcodeTable.find? (fun r => r.admitted && r.fits w) = some r := by
    cases hq : opcodeTable.find? (fun r => r.admitted && r.fits w) with
    | none => exact absurd ((Row.fits_iff r w).mpr hfits) (by simpa [hadm] using List.find?_eq_none.mp hq r hr)
    | some q =>
      have hq' := List.find?_some hq
      rw [Bool.and_eq_true, Row.fits_iff] at hq'
      rw [fitting_row_unique (List.mem_of_find?_eq_some hq) hr hq'.2 hfits]
  rw [decode, hfound]

/-- A word that fits no admitted row is refused or illegal, by its major opcode. -/
theorem decode_of_no_fit {w : Word} (h : ∀ r ∈ opcodeTable, r.admitted = true → w &&& r.mask ≠ r.mtch) :
    decode w = if fieldOpcode w ∈ floatingPointOpcodes then .error .floatingPointNotSpecified
      else .error (.illegalInstruction w) := by
  have hnone : opcodeTable.find? (fun r => r.admitted && r.fits w) = none :=
    List.find?_eq_none.mpr fun r hr hboth => by
      rw [Bool.and_eq_true, Row.fits_iff] at hboth
      exact h r hr hboth.1 hboth.2
  rw [decode, hnone]
  simp only [List.contains_iff_mem]

theorem decode_eq_ok_iff (w : Word) (i : Instr) :
    decode w = .ok i ↔ ∃ r ∈ opcodeTable, r.admitted = true ∧ w &&& r.mask = r.mtch ∧ r.build w = i := by
  constructor
  · intro h
    by_contra hnone
    have hno : ∀ r ∈ opcodeTable, r.admitted = true → w &&& r.mask ≠ r.mtch := fun r hr hadm hfits =>
      hnone ⟨r, hr, hadm, hfits, Except.ok.inj ((decode_of_fits hr hadm hfits).symm.trans h)⟩
    rw [decode_of_no_fit hno] at h
    split at h <;> cases h
  · rintro ⟨r, hr, hadm, hfits, rfl⟩
    exact decode_of_fits hr hadm hfits

/-- Settles O9. -/
theorem decodeFollowsTheOpcodeTable : Obligations.DecodeFollowsTheOpcodeTable := decode_eq_ok_iff

/-! ## Encoding, then decoding -/

open Laws.EncodingFitsRow in
/-- Every instruction's word fits its row of the table. -/
theorem encode_fits_row : ∀ i : Instr, Statement i
  | .lui .. => lui ..
  | .auipc .. => auipc ..
  | .jal .. => jal ..
  | .jalr .. => jalr ..
  | .beq .. => beq ..
  | .bne .. => bne ..
  | .blt .. => blt ..
  | .bge .. => bge ..
  | .bltu .. => bltu ..
  | .bgeu .. => bgeu ..
  | .lb .. => lb ..
  | .lh .. => lh ..
  | .lw .. => lw ..
  | .lbu .. => lbu ..
  | .lhu .. => lhu ..
  | .sb .. => sb ..
  | .sh .. => sh ..
  | .sw .. => sw ..
  | .addi .. => addi ..
  | .slti .. => slti ..
  | .sltiu .. => sltiu ..
  | .xori .. => xori ..
  | .ori .. => ori ..
  | .andi .. => andi ..
  | .slli .. => slli ..
  | .srli .. => srli ..
  | .srai .. => srai ..
  | .add .. => add ..
  | .sub .. => sub ..
  | .sll .. => sll ..
  | .slt .. => slt ..
  | .sltu .. => sltu ..
  | .xor .. => xor ..
  | .srl .. => srl ..
  | .sra .. => sra ..
  | .or .. => or ..
  | .and .. => and ..
  | .fence .. => fence ..
  | .fenceI => fenceI
  | .ecall => ecall
  | .ebreak => ebreak
  | .csrrw .. => csrrw ..
  | .csrrs .. => csrrs ..
  | .csrrc .. => csrrc ..
  | .csrrwi .. => csrrwi ..
  | .csrrsi .. => csrrsi ..
  | .csrrci .. => csrrci ..
  | .mul .. => mul ..
  | .mulh .. => mulh ..
  | .mulhsu .. => mulhsu ..
  | .mulhu .. => mulhu ..
  | .div .. => div ..
  | .divu .. => divu ..
  | .rem .. => rem ..
  | .remu .. => remu ..
  | .lwu .. => lwu ..
  | .ld .. => ld ..
  | .sd .. => sd ..
  | .addiw .. => addiw ..

theorem decode_encode {i : Instr} (h : i.wellFormed = true) : decode (encode i) = .ok i := by
  obtain ⟨hadm, heven⟩ := Bool.and_eq_true_iff.mp h
  obtain ⟨r, hr, hsame, hfits, hbuild⟩ := encode_fits_row i
  exact (decode_eq_ok_iff _ i).mpr ⟨r, hr, hsame.trans hadm, hfits, hbuild heven⟩

/-- Settles O6: the word fits the instruction's row, no other row fits it, and the row reads the fields back. -/
theorem decodeAfterEncodeGivesTheInstruction : Obligations.DecodeAfterEncodeGivesTheInstruction :=
  fun _ h => decode_encode h

theorem decode_eq_of_encode_eq {w : Word} {i : Instr} (h : i.wellFormed = true) (hw : encode i = w) : decode w = .ok i :=
  hw ▸ decode_encode h

/-- Settles O10: each word is the encoding of its instruction. -/
theorem writtenOutWordsDecode : Obligations.WrittenOutWordsDecode := by
  unfold Obligations.WrittenOutWordsDecode
  and_intros <;> exact decode_eq_of_encode_eq rfl (by decide)

/-! ## Decoding, then encoding

One lemma per format: a word with a row's fixed bits is the encoding of its fields, the fixed ones taken from the row's match. -/

theorem encR_of_pattern {w mtch : Word} (h : w &&& 0xFE00707F = mtch) :
    encR (mtch.extractLsb' 25 7) (fieldRs2 w) (fieldRs1 w) (mtch.extractLsb' 12 3) (fieldRd w) (mtch.extractLsb' 0 7) = w := by
  rw [← field_of_pattern h 25 7 (by decide), ← field_of_pattern h 12 3 (by decide), ← field_of_pattern h 0 7 (by decide)]
  exact encR_fields w

theorem encI_of_pattern {w mtch : Word} (h : w &&& 0x0000707F = mtch) :
    encI (fieldImmI w) (fieldRs1 w) (mtch.extractLsb' 12 3) (fieldRd w) (mtch.extractLsb' 0 7) = w := by
  rw [← field_of_pattern h 12 3 (by decide), ← field_of_pattern h 0 7 (by decide)]
  exact encI_fields w

theorem encS_of_pattern {w mtch : Word} (h : w &&& 0x0000707F = mtch) :
    encS (fieldImmS w) (fieldRs2 w) (fieldRs1 w) (mtch.extractLsb' 12 3) (mtch.extractLsb' 0 7) = w := by
  rw [← field_of_pattern h 12 3 (by decide), ← field_of_pattern h 0 7 (by decide)]
  exact encS_fields w

theorem encB_of_pattern {w mtch : Word} (h : w &&& 0x0000707F = mtch) :
    encB (fieldImmB w) (fieldRs2 w) (fieldRs1 w) (mtch.extractLsb' 12 3) (mtch.extractLsb' 0 7) = w := by
  rw [← field_of_pattern h 12 3 (by decide), ← field_of_pattern h 0 7 (by decide)]
  exact encB_fields w

theorem encU_of_pattern {w mtch : Word} (h : w &&& 0x0000007F = mtch) :
    encU (fieldImmU w) (fieldRd w) (mtch.extractLsb' 0 7) = w := by
  rw [← field_of_pattern h 0 7 (by decide)]
  exact encU_fields w

theorem encJ_of_pattern {w mtch : Word} (h : w &&& 0x0000007F = mtch) :
    encJ (fieldImmJ w) (fieldRd w) (mtch.extractLsb' 0 7) = w := by
  rw [← field_of_pattern h 0 7 (by decide)]
  exact encJ_fields w

/-- `fence` fixes every bit but `pred` and `succ` (R170). -/
theorem encode_fence_of_pattern {w : Word} (h : w &&& 0xF00FFFFF = 0x0000000F) :
    encode (.fence (fieldPred w) (fieldSucc w)) = w := by
  have hzero : w.extractLsb' 28 4 = 0b0000#4 := field_of_pattern h 28 4 (by decide)
  have hrs1 : fieldRs1 w = 0 := field_of_pattern h 15 5 (by decide)
  have hfunct3 : w.extractLsb' 12 3 = 0b000#3 := field_of_pattern h 12 3 (by decide)
  have hrd : fieldRd w = 0 := field_of_pattern h 7 5 (by decide)
  have hopcode : fieldOpcode w = 0b0001111#7 := field_of_pattern h 0 7 (by decide)
  have himm : 0b0000#4 ++ fieldPred w ++ fieldSucc w = fieldImmI w := by
    rw [← hzero, fieldPred, fieldSucc, BitVec.extractLsb'_append_extractLsb'_eq_extractLsb' (by omega),
      BitVec.extractLsb'_append_extractLsb'_eq_extractLsb' (by omega), fieldImmI]
  calc encode (.fence (fieldPred w) (fieldSucc w))
      = encI (0b0000#4 ++ fieldPred w ++ fieldSucc w) 0 0b000#3 0 0b0001111#7 := rfl
    _ = encI (fieldImmI w) (fieldRs1 w) (w.extractLsb' 12 3) (fieldRd w) (fieldOpcode w) := by
      rw [himm, hrs1, hfunct3, hrd, hopcode]
    _ = w := encI_fields w

/-- A pattern that fixes every bit is one word. -/
theorem eq_of_full_pattern {w mtch : Word} (h : w &&& 0xFFFFFFFF = mtch) : w = mtch := BitVec.and_allOnes.symm.trans h

/-! ### The rows of the table, group by group -/

/-- What the row, if admitted, builds from a word that fits it is well-formed and has that word as its encoding. -/
def Row.Inverts (r : Row) : Prop :=
  r.admitted = true → ∀ w, w &&& r.mask = r.mtch → (r.build w).wellFormed = true ∧ encode (r.build w) = w

theorem upperAndJumpRows_invert : ∀ r ∈ upperAndJumpRows, r.Inverts := by
  intro r hr
  fin_cases hr
  iterate 2 exact fun _ _ h => ⟨rfl, (encU_of_pattern h :)⟩
  · exact fun _ w h => ⟨congrArg not (fieldImmJ_even w), (encJ_of_pattern h :)⟩
  · exact fun _ _ h => ⟨rfl, (encI_of_pattern h :)⟩

theorem branchRows_invert : ∀ r ∈ branchRows, r.Inverts := by
  intro r hr
  fin_cases hr <;> exact fun _ w h => ⟨congrArg not (fieldImmB_even w), (encB_of_pattern h :)⟩

theorem loadStoreRows_invert : ∀ r ∈ loadStoreRows, r.Inverts := by
  intro r hr
  fin_cases hr
  iterate 5 exact fun _ _ h => ⟨rfl, (encI_of_pattern h :)⟩
  iterate 3 exact fun _ _ h => ⟨rfl, (encS_of_pattern h :)⟩

/-- The shift immediates have the fixed fields of the R format (R77). -/
theorem immediateRows_invert : ∀ r ∈ immediateRows, r.Inverts := by
  intro r hr
  fin_cases hr
  iterate 6 exact fun _ _ h => ⟨rfl, (encI_of_pattern h :)⟩
  iterate 3 exact fun _ _ h => ⟨rfl, (encR_of_pattern h :)⟩

theorem registerRows_invert : ∀ r ∈ registerRows, r.Inverts := by
  intro r hr
  fin_cases hr <;> exact fun _ _ h => ⟨rfl, (encR_of_pattern h :)⟩

theorem systemRows_invert : ∀ r ∈ systemRows, r.Inverts := by
  intro r hr
  fin_cases hr
  · exact fun _ _ h => ⟨rfl, encode_fence_of_pattern h⟩
  iterate 3 exact fun _ _ h => ⟨rfl, (eq_of_full_pattern h).symm⟩
  iterate 6 exact fun _ _ h => ⟨rfl, (encI_of_pattern h :)⟩

theorem mulDivRows_invert : ∀ r ∈ mulDivRows, r.Inverts := by
  intro r hr
  fin_cases hr <;> exact fun _ _ h => ⟨rfl, (encR_of_pattern h :)⟩

/-- The decoder skips these rows. -/
theorem rv64Rows_invert : ∀ r ∈ rv64Rows, r.Inverts := by
  intro r hr
  fin_cases hr <;> exact nofun

theorem opcodeTable_inverts : ∀ r ∈ opcodeTable, r.Inverts := by
  simp only [opcodeTable, List.forall_mem_append]
  exact ⟨⟨⟨⟨⟨⟨⟨upperAndJumpRows_invert, branchRows_invert⟩, loadStoreRows_invert⟩, immediateRows_invert⟩, registerRows_invert⟩,
    systemRows_invert⟩, mulDivRows_invert⟩, rv64Rows_invert⟩

theorem encode_of_decode {w : Word} {i : Instr} (h : decode w = .ok i) : i.wellFormed = true ∧ encode i = w := by
  obtain ⟨r, hr, hadm, hfits, rfl⟩ := (decode_eq_ok_iff w i).mp h
  exact opcodeTable_inverts r hr hadm w hfits

/-- Settles O7: the row that the word fits takes apart what its format puts together. -/
theorem encodeAfterDecodeGivesTheWord : Obligations.EncodeAfterDecodeGivesTheWord :=
  fun _ _ h => encode_of_decode h

/-! ## Words that are no instruction (R82, R83, R203) -/

/-- Every row fixes the major opcode, to none of the seven of floating point. -/
theorem opcodeTable_opcode : ∀ r ∈ opcodeTable,
    r.mask.extractLsb' 0 7 = BitVec.allOnes 7 ∧ r.mtch.extractLsb' 0 7 ∉ floatingPointOpcodes := by decide

theorem fieldOpcode_of_fits {w : Word} {r : Row} (hr : r ∈ opcodeTable) (hfits : w &&& r.mask = r.mtch) :
    fieldOpcode w = r.mtch.extractLsb' 0 7 :=
  field_of_pattern hfits 0 7 (opcodeTable_opcode r hr).1

theorem decode_of_floatingPoint {w : Word} (h : fieldOpcode w ∈ floatingPointOpcodes) :
    decode w = .error .floatingPointNotSpecified := by
  have hno : ∀ r ∈ opcodeTable, r.admitted = true → w &&& r.mask ≠ r.mtch := fun r hr _ hfits =>
    (opcodeTable_opcode r hr).2 (fieldOpcode_of_fits hr hfits ▸ h)
  rw [decode_of_no_fit hno, if_pos h]

/-- Every row of the opcode 0010011 fixes funct3, and the rows of the shift immediates fix bit 25 to 0 (R83). -/
theorem opcodeTable_shiftSlot : ∀ r ∈ opcodeTable, r.mtch.extractLsb' 0 7 = 0b0010011#7 →
    r.mask.extractLsb' 12 3 = BitVec.allOnes 3 ∧
    (r.mtch.extractLsb' 12 3 = 0b001#3 ∨ r.mtch.extractLsb' 12 3 = 0b101#3 →
      r.mask.getLsbD 25 = true ∧ r.mtch.getLsbD 25 = false) := by decide

/-- A shift immediate with bit 25 set is no instruction (R83). -/
theorem decode_of_shiftSlot {w : Word} (hopcode : fieldOpcode w = 0b0010011#7)
    (hfunct3 : w.extractLsb' 12 3 = 0b001#3 ∨ w.extractLsb' 12 3 = 0b101#3) (hbit : w.getLsbD 25 = true) :
    decode w = .error (.illegalInstruction w) := by
  have hno : ∀ r ∈ opcodeTable, r.admitted = true → w &&& r.mask ≠ r.mtch := by
    intro r hr _ hfits
    obtain ⟨hfixed, hrow⟩ := opcodeTable_shiftSlot r hr ((fieldOpcode_of_fits hr hfits).symm.trans hopcode)
    rw [field_of_pattern hfits 12 3 hfixed] at hfunct3
    obtain ⟨hfixed25, hzero⟩ := hrow hfunct3
    rw [bit_of_pattern hfits 25 hfixed25, hzero] at hbit
    cases hbit
  have hnot : fieldOpcode w ∉ floatingPointOpcodes := by
    rw [hopcode]
    decide
  rw [decode_of_no_fit hno, if_neg hnot]

end Sys2Proof

namespace Sys2Proof.Machine

/-- A step whose fetch succeeds and whose decode does not answers for the word (R10 step 3). -/
theorem step_eq_rejectOutcome {s : State} {w : Word} {e : Reject} (hw : fetch s = .ok w) (he : decode w = .error e) :
    step s = rejectOutcome e := by
  unfold step
  rw [hw]
  simp only [he]

/-- Settles O4. -/
theorem unmatchedWordsAreIllegalOrRefused : Obligations.UnmatchedWordsAreIllegalOrRefused := by
  intro s w hw floating
  refine ⟨fun h => step_eq_rejectOutcome hw (decode_of_floatingPoint h), fun h hno => ?_⟩
  exact step_eq_rejectOutcome hw ((decode_of_no_fit hno).trans (if_neg h))

/-! ## The shift immediates (R83, R114, R116, R118) -/

theorem shiftLeft_eq_ofNat (v : Word) (n : Nat) : v <<< n = BitVec.ofNat 32 (v.toNat * 2 ^ n) := by
  apply BitVec.eq_of_toNat_eq
  simp [Nat.shiftLeft_eq]

theorem ushiftRight_eq_ofNat (v : Word) (n : Nat) : v >>> n = BitVec.ofNat 32 (v.toNat / 2 ^ n) := by
  rw [← Nat.shiftRight_eq_div_pow, ← BitVec.toNat_ushiftRight, BitVec.ofNat_toNat, BitVec.setWidth_eq]

theorem sshiftRight_eq_ofInt (v : Word) (n : Nat) : v.sshiftRight n = BitVec.ofInt 32 (v.toInt / 2 ^ n) := by
  rw [BitVec.sshiftRight, Int.shiftRight_eq_div_pow]
  norm_cast

theorem slli_computes (s : State) (rd rs1 : RegId) (shamt : BitVec 5) :
    Computes (.slli rd rs1 shamt) s rd (BitVec.ofNat 32 ((s.readReg rs1).toNat * 2 ^ shamt.toNat)) :=
  shiftLeft_eq_ofNat _ _ ▸ writeResult_computes rfl

theorem srli_computes (s : State) (rd rs1 : RegId) (shamt : BitVec 5) :
    Computes (.srli rd rs1 shamt) s rd (BitVec.ofNat 32 ((s.readReg rs1).toNat / 2 ^ shamt.toNat)) :=
  ushiftRight_eq_ofNat _ _ ▸ writeResult_computes rfl

theorem srai_computes (s : State) (rd rs1 : RegId) (shamt : BitVec 5) :
    Computes (.srai rd rs1 shamt) s rd (BitVec.ofInt 32 ((s.readReg rs1).toInt / 2 ^ shamt.toNat)) :=
  sshiftRight_eq_ofInt _ _ ▸ writeResult_computes rfl

/-- Settles O18: the three words are encodings, and a word of their slots with bit 25 set fits no row. -/
theorem shiftImmediates : Obligations.ShiftImmediates :=
  fun s rd rs1 shamt => ⟨⟨decode_encode (i := .slli rd rs1 shamt) rfl, slli_computes s rd rs1 shamt⟩,
    ⟨decode_encode (i := .srli rd rs1 shamt) rfl, srli_computes s rd rs1 shamt⟩,
    ⟨decode_encode (i := .srai rd rs1 shamt) rfl, srai_computes s rd rs1 shamt⟩,
    fun _ hw hopcode hfunct3 hbit => step_eq_rejectOutcome hw (decode_of_shiftSlot hopcode hfunct3 hbit)⟩

/-! ## The swapped branches (R87) -/

/-- Settles O59: each condition is the branch's own, with the registers in the other order. -/
theorem swappedBranchesMeanTheReverseOrder : Obligations.SwappedBranchesMeanTheReverseOrder := by
  intro s rs1 rs2 offset t
  refine ⟨branch_branches rfl ?_, branch_branches rfl (lessSigned_iff _ _), branch_branches rfl ?_,
    branch_branches rfl (lessUnsigned_iff _ _), branch_branches rfl beq_iff_eq, branch_branches rfl ?_⟩
  · rw [Bool.not_eq_true', ← Bool.not_eq_true, lessSigned_iff, Int.not_lt]
  · rw [Bool.not_eq_true', ← Bool.not_eq_true, lessUnsigned_iff, Nat.not_lt]
  · rw [lessSigned_iff, State.readReg_zero, BitVec.msb_eq_toInt, decide_eq_true_iff]
    rfl

end Sys2Proof.Machine
end

section
/-! PROOFS of the integer computational family (40_integer_computational.md): the results of R100 to R120 as integer arithmetic, and
the two idioms of section 5. Each instruction is one `writeResult`, so completion and frame are `writeResult_computes`; what is left
is that the model's word operation is the arithmetic the rule states. -/

namespace Sys2Proof.Machine

/-! ## Word operations as arithmetic -/

theorem add_eq_ofNat (a b : Word) : a + b = BitVec.ofNat 32 (a.toNat + b.toNat) := by
  apply BitVec.eq_of_toNat_eq
  rw [BitVec.toNat_add, BitVec.toNat_ofNat]

theorem sub_eq_ofInt (a b : Word) : a - b = BitVec.ofInt 32 ((a.toNat : Int) - b.toNat) := by
  apply BitVec.eq_of_toNat_eq
  rw [BitVec.toNat_sub, BitVec.toNat_ofInt]
  omega

/-- A comparison writes 1 exactly when it holds (R109). -/
theorem boolWord_eq_ite {b : Bool} {p : Prop} [Decidable p] (h : b = true ↔ p) : boolWord b = if p then 1 else 0 :=
  if_congr h rfl rfl

/-- Sign extension keeps the signed value (R79). -/
theorem immI_toInt (imm : BitVec 12) : (immI imm).toInt = imm.toInt := BitVec.toInt_signExtend_of_le (by omega)

/-- The unsigned value of an immediate -k is 2^32 - k (R112). -/
theorem immI_toNat (imm : BitVec 12) : ((immI imm).toNat : Int) = imm.toInt % 2 ^ 32 := by
  rw [immI_eq_ofInt, BitVec.toNat_ofInt]
  omega

theorem lessSigned_immI_iff (a : Word) (imm : BitVec 12) : lessSigned a (immI imm) = true ↔ a.toInt < imm.toInt := by
  rw [lessSigned_iff, immI_toInt]

theorem lessUnsigned_immI_iff (a : Word) (imm : BitVec 12) :
    lessUnsigned a (immI imm) = true ↔ (a.toNat : Int) < imm.toInt % 2 ^ 32 := by
  rw [lessUnsigned_iff, ← immI_toNat, Int.ofNat_lt]

theorem immU_eq_ofNat (imm : BitVec 20) : immU imm = BitVec.ofNat 32 (imm.toNat * 4096) := by
  rw [← immU_toNat, BitVec.ofNat_toNat, BitVec.setWidth_eq]

/-! ## What each instruction computes (R100 to R120) -/

theorem add_computes (s : State) (rd rs1 rs2 : RegId) :
    Computes (.add rd rs1 rs2) s rd (BitVec.ofNat 32 ((s.readReg rs1).toNat + (s.readReg rs2).toNat)) :=
  add_eq_ofNat _ _ ▸ writeResult_computes rfl

theorem sub_computes (s : State) (rd rs1 rs2 : RegId) :
    Computes (.sub rd rs1 rs2) s rd (BitVec.ofInt 32 (((s.readReg rs1).toNat : Int) - (s.readReg rs2).toNat)) :=
  sub_eq_ofInt _ _ ▸ writeResult_computes rfl

theorem addi_computes (s : State) (rd rs1 : RegId) (imm : BitVec 12) :
    Computes (.addi rd rs1 imm) s rd (BitVec.ofInt 32 ((s.readReg rs1).toInt + imm.toInt)) := by
  rw [← add_ofInt, ← immI_eq_ofInt]
  exact writeResult_computes rfl

theorem slt_computes (s : State) (rd rs1 rs2 : RegId) :
    Computes (.slt rd rs1 rs2) s rd (if (s.readReg rs1).toInt < (s.readReg rs2).toInt then 1 else 0) :=
  boolWord_eq_ite (lessSigned_iff _ _) ▸ writeResult_computes rfl

theorem sltu_computes (s : State) (rd rs1 rs2 : RegId) :
    Computes (.sltu rd rs1 rs2) s rd (if (s.readReg rs1).toNat < (s.readReg rs2).toNat then 1 else 0) :=
  boolWord_eq_ite (lessUnsigned_iff _ _) ▸ writeResult_computes rfl

theorem slti_computes (s : State) (rd rs1 : RegId) (imm : BitVec 12) :
    Computes (.slti rd rs1 imm) s rd (if (s.readReg rs1).toInt < imm.toInt then 1 else 0) :=
  boolWord_eq_ite (lessSigned_immI_iff _ _) ▸ writeResult_computes rfl

theorem sltiu_computes (s : State) (rd rs1 : RegId) (imm : BitVec 12) :
    Computes (.sltiu rd rs1 imm) s rd (if ((s.readReg rs1).toNat : Int) < imm.toInt % 2 ^ 32 then 1 else 0) :=
  boolWord_eq_ite (lessUnsigned_immI_iff _ _) ▸ writeResult_computes rfl

theorem sll_computes (s : State) (rd rs1 rs2 : RegId) :
    Computes (.sll rd rs1 rs2) s rd (BitVec.ofNat 32 ((s.readReg rs1).toNat * 2 ^ ((s.readReg rs2).toNat % 32))) := by
  rw [← shiftCount_eq_mod, ← shiftLeft_eq_ofNat]
  exact writeResult_computes rfl

theorem srl_computes (s : State) (rd rs1 rs2 : RegId) :
    Computes (.srl rd rs1 rs2) s rd (BitVec.ofNat 32 ((s.readReg rs1).toNat / 2 ^ ((s.readReg rs2).toNat % 32))) := by
  rw [← shiftCount_eq_mod, ← ushiftRight_eq_ofNat]
  exact writeResult_computes rfl

theorem sra_computes (s : State) (rd rs1 rs2 : RegId) :
    Computes (.sra rd rs1 rs2) s rd (BitVec.ofInt 32 ((s.readReg rs1).toInt / 2 ^ ((s.readReg rs2).toNat % 32))) := by
  rw [← shiftCount_eq_mod, ← sshiftRight_eq_ofInt]
  exact writeResult_computes rfl

theorem lui_computes (s : State) (rd : RegId) (imm : BitVec 20) :
    Computes (.lui rd imm) s rd (BitVec.ofNat 32 (imm.toNat * 4096)) :=
  immU_eq_ofNat _ ▸ writeResult_computes rfl

/-- `pc` is the address of the `auipc` itself (R120). -/
theorem auipc_computes (s : State) (rd : RegId) (imm : BitVec 20) :
    Computes (.auipc rd imm) s rd (BitVec.ofNat 32 (s.pc.toNat + imm.toNat * 4096)) := by
  rw [← immU_toNat, ← add_eq_ofNat]
  exact writeResult_computes rfl

/-! ## The statements of R100 to R120 -/

/-- Settles O11. -/
theorem addAndSubtractModulo : Obligations.AddAndSubtractModulo :=
  fun s rd rs1 rs2 => ⟨⟨decode_encode (i := .add rd rs1 rs2) rfl, add_computes s rd rs1 rs2⟩,
    ⟨decode_encode (i := .sub rd rs1 rs2) rfl, sub_computes s rd rs1 rs2⟩⟩

/-- Settles O12: the model's operation is the rule's own. -/
theorem bitwiseLogic : Obligations.BitwiseLogic :=
  fun _ rd rs1 rs2 => ⟨⟨decode_encode (i := .and rd rs1 rs2) rfl, writeResult_computes rfl⟩,
    ⟨decode_encode (i := .or rd rs1 rs2) rfl, writeResult_computes rfl⟩,
    ⟨decode_encode (i := .xor rd rs1 rs2) rfl, writeResult_computes rfl⟩⟩

/-- Settles O13. -/
theorem setLessThan : Obligations.SetLessThan := by
  intro s rd rs1 rs2
  simp only [BitVec.slt_iff_toInt_lt, BitVec.ult_iff_toNat_lt]
  exact ⟨⟨decode_encode (i := .slt rd rs1 rs2) rfl, slt_computes s rd rs1 rs2⟩,
    ⟨decode_encode (i := .sltu rd rs1 rs2) rfl, sltu_computes s rd rs1 rs2⟩⟩

/-- Settles O14. -/
theorem registerShifts : Obligations.RegisterShifts :=
  fun s rd rs1 rs2 => ⟨⟨decode_encode (i := .sll rd rs1 rs2) rfl, sll_computes s rd rs1 rs2⟩,
    ⟨decode_encode (i := .srl rd rs1 rs2) rfl, srl_computes s rd rs1 rs2⟩,
    ⟨decode_encode (i := .sra rd rs1 rs2) rfl, sra_computes s rd rs1 rs2⟩⟩

/-- Settles O15. -/
theorem addImmediate : Obligations.AddImmediate :=
  fun s rd rs1 imm => ⟨decode_encode (i := .addi rd rs1 imm) rfl, addi_computes s rd rs1 imm⟩

/-- Settles O16: the immediate is the word of its signed value. -/
theorem logicImmediate : Obligations.LogicImmediate := by
  intro s rd rs1 imm
  rw [← immI_eq_ofInt]
  exact ⟨⟨decode_encode (i := .andi rd rs1 imm) rfl, writeResult_computes rfl⟩,
    ⟨decode_encode (i := .ori rd rs1 imm) rfl, writeResult_computes rfl⟩,
    ⟨decode_encode (i := .xori rd rs1 imm) rfl, writeResult_computes rfl⟩⟩

/-- Settles O17. -/
theorem setLessThanImmediate : Obligations.SetLessThanImmediate :=
  fun s rd rs1 imm => ⟨⟨decode_encode (i := .slti rd rs1 imm) rfl, slti_computes s rd rs1 imm⟩,
    ⟨decode_encode (i := .sltiu rd rs1 imm) rfl, sltiu_computes s rd rs1 imm⟩⟩

/-- Settles O19. -/
theorem upperImmediates : Obligations.UpperImmediates :=
  fun s rd imm => ⟨⟨decode_encode (i := .lui rd imm) rfl, lui_computes s rd imm⟩,
    ⟨decode_encode (i := .auipc rd imm) rfl, auipc_computes s rd imm⟩⟩

/-! ## The idioms of section 5 (R121, R122) -/

/-- The destination, when it is not `x0`. -/
theorem RegsAfter.readReg_destination {s t : State} {rd : RegId} {v : Word} (h : RegsAfter s t rd v) (hrd : rd ≠ 0) :
    t.readReg rd = v := by
  rw [h rd, if_neg hrd, if_pos rfl]

/-- Any other register, `x0` among them. -/
theorem RegsAfter.readReg_of_ne {s t : State} {rd r : RegId} {v : Word} (h : RegsAfter s t rd v) (hr : r ≠ rd) :
    t.readReg r = s.readReg r := by
  rw [h r, if_neg hr]
  split
  · next hzero => rw [hzero, State.readReg_zero]
  · rfl

/-- The two parts of a constant add up to it: the upper part carries one more when the lower part, sign-extended, counts 4096 less. -/
theorem immU_add_immI_parts (C : Word) :
    immU (C.extractLsb' 12 20 + (C.extractLsb' 11 1).zeroExtend 20) + immI (C.extractLsb' 0 12) = C := by
  have hlo := immI_toNat (C.extractLsb' 0 12)
  rw [BitVec.toInt_eq_toNat_cond] at hlo
  apply BitVec.eq_of_toNat_eq
  rw [BitVec.toNat_add, immU_toNat]
  simp only [BitVec.toNat_add, BitVec.extractLsb'_toNat, BitVec.toNat_setWidth, Nat.shiftRight_eq_div_pow] at hlo ⊢
  omega

/-- Settles O56. -/
theorem luiAddiBuildsAnyConstant : Obligations.LuiAddiBuildsAnyConstant := by
  intro s rd C hrd lo hi
  obtain ⟨t, ht, hregs, _⟩ : Computes (.lui rd hi) s rd (immU hi) := writeResult_computes rfl
  obtain ⟨u, hu, hregs', _⟩ : Computes (.addi rd rd lo) t rd (t.readReg rd + immI lo) := writeResult_computes rfl
  refine ⟨t, u, ht, hu, ?_⟩
  rw [hregs'.readReg_destination hrd, hregs.readReg_destination hrd]
  exact immU_add_immI_parts C

/-- The sum is below an operand exactly when it wrapped (R121). -/
theorem toNat_add_lt_left_iff (a b : Word) : (a + b).toNat < a.toNat ↔ ¬a.toNat + b.toNat < 2 ^ 32 := by
  have ha := a.isLt
  have hb := b.isLt
  rw [BitVec.toNat_add]
  omega

/-- Settles O58: t1 still holds its operand when the `sltu` reads it, since the `add` wrote another register. -/
theorem carryOutBySetLessThan : Obligations.CarryOutBySetLessThan := by
  intro s t u t0 t1 t2 t3 ht0 hne ht3 hadd hsltu
  have hsum : Computes (.add t0 t1 t2) s t0 (s.readReg t1 + s.readReg t2) := writeResult_computes rfl
  obtain ⟨hregs, _⟩ := hsum.of_next hadd
  obtain ⟨hregs', _⟩ := (sltu_computes t t3 t0 t1).of_next hsltu
  rw [hregs'.readReg_destination ht3, hregs.readReg_destination ht0, hregs.readReg_of_ne hne.symm]
  simp only [toNat_add_lt_left_iff, ite_not]

end Sys2Proof.Machine
end

section
/-! PROOFS of the control transfer family (41_control_transfer.md): the targets of R131, R132 and R134 as integer arithmetic, the
conditions of R135 to R140, and the jump of section 2 to any aligned address. Completion, frame and fault of every transfer are
`transfer_jumps` and `branch_branches`, every word is an encoding; what is left is the target and the condition. -/

namespace Sys2Proof.Machine

/-! ## Targets as arithmetic -/

theorem jalTarget_eq_ofInt (s : State) (offset : BitVec 21) :
    jalTarget s offset = BitVec.ofInt 32 (s.pc.toNat + offset.toInt) := by
  rw [jalTarget, immJ_eq_ofInt, add_ofInt_toNat]

theorem branchTarget_eq_ofInt (s : State) (offset : BitVec 13) :
    branchTarget s offset = BitVec.ofInt 32 (s.pc.toNat + offset.toInt) := by
  rw [branchTarget, immB_eq_ofInt, add_ofInt_toNat]

theorem jalrTarget_eq_ofNat (s : State) (rs1 : RegId) (imm : BitVec 12) :
    jalrTarget s rs1 imm =
      BitVec.ofNat 32 ((BitVec.ofInt 32 ((s.readReg rs1).toInt + imm.toInt)).toNat / 2 * 2) := by
  rw [jalrTarget, immI_eq_ofInt, add_ofInt, and_clear_bit_zero]

/-! ## Words that hold a byte offset (R74, R76) -/

/-- An instruction with a byte offset is read back from its word when the offset is even, since no bit of the word supplies bit 0. -/
theorem decode_encode_of_even {n : Nat} {offset : BitVec n} {i : Instr} (hadm : i.admitted = true)
    (hoffset : i.offsetEven = !offset.getLsbD 0) (heven : offset.getLsbD 0 = false) : decode (encode i) = .ok i :=
  decode_encode (Bool.and_eq_true_iff.mpr ⟨hadm, by rw [hoffset, heven]; rfl⟩)

/-! ## The jumps (R131, R132) -/

theorem jal_jumps (s : State) (rd : RegId) (offset : BitVec 21) : Jumps (.jal rd offset) s rd (jalTarget s offset) :=
  transfer_jumps rfl

/-- The target is computed from the old `x[rs1]`, so `rd = rs1` is no exception (R132). -/
theorem jalr_jumps (s : State) (rd rs1 : RegId) (imm : BitVec 12) :
    Jumps (.jalr rd rs1 imm) s rd (jalrTarget s rs1 imm) :=
  transfer_jumps rfl

/-- Settles O20. -/
theorem jumpAndLink : Obligations.JumpAndLink :=
  fun s rd offset => ⟨decode_encode_of_even (i := .jal rd offset) rfl rfl, jalTarget_eq_ofInt s offset ▸ jal_jumps s rd offset⟩

/-- Settles O21. -/
theorem jumpAndLinkRegister : Obligations.JumpAndLinkRegister :=
  fun s rd rs1 imm => ⟨decode_encode (i := .jalr rd rs1 imm) rfl, jalrTarget_eq_ofNat s rs1 imm ▸ jalr_jumps s rd rs1 imm⟩

/-! ## The branches (R135 to R140) -/

/-- `branch_branches` with the target as arithmetic (R134). -/
theorem branch_branches_ofInt {i : Instr} {s : State} {taken : Bool} {cond : Prop} {offset : BitVec 13}
    (h : exec i s = branch s taken (branchTarget s offset)) (hc : taken = true ↔ cond) :
    Branches i s cond (BitVec.ofInt 32 (s.pc.toNat + offset.toInt)) :=
  branchTarget_eq_ofInt s offset ▸ branch_branches h hc

/-- Not below, as signed values, is at or above (R138). -/
theorem not_lessSigned_iff_sle (a b : Word) : (!lessSigned a b) = true ↔ b.sle a = true := by
  rw [Bool.not_eq_true', ← Bool.not_eq_true, lessSigned_iff, BitVec.sle_iff_toInt_le, Int.not_lt]

/-- Not below, as unsigned values, is at or above (R140). -/
theorem not_lessUnsigned_iff_ule (a b : Word) : (!lessUnsigned a b) = true ↔ b.ule a = true := by
  rw [Bool.not_eq_true', ← Bool.not_eq_true, lessUnsigned_iff, BitVec.ule_iff_toNat_le, Nat.not_lt]

/-- Settles O22. -/
theorem branchOnEqual : Obligations.BranchOnEqual :=
  fun _ rs1 rs2 offset =>
    ⟨⟨decode_encode_of_even (i := .beq rs1 rs2 offset) rfl rfl, branch_branches_ofInt rfl beq_iff_eq⟩,
      ⟨decode_encode_of_even (i := .bne rs1 rs2 offset) rfl rfl, branch_branches_ofInt rfl bne_iff_ne⟩⟩

/-- Settles O23. -/
theorem branchOnSignedOrder : Obligations.BranchOnSignedOrder :=
  fun _ rs1 rs2 offset =>
    ⟨⟨decode_encode_of_even (i := .blt rs1 rs2 offset) rfl rfl,
        branch_branches_ofInt rfl ((lessSigned_iff _ _).trans BitVec.slt_iff_toInt_lt.symm)⟩,
      ⟨decode_encode_of_even (i := .bge rs1 rs2 offset) rfl rfl, branch_branches_ofInt rfl (not_lessSigned_iff_sle _ _)⟩⟩

/-- Settles O24. -/
theorem branchOnUnsignedOrder : Obligations.BranchOnUnsignedOrder :=
  fun _ rs1 rs2 offset =>
    ⟨⟨decode_encode_of_even (i := .bltu rs1 rs2 offset) rfl rfl,
        branch_branches_ofInt rfl ((lessUnsigned_iff _ _).trans BitVec.ult_iff_toNat_lt.symm)⟩,
      ⟨decode_encode_of_even (i := .bgeu rs1 rs2 offset) rfl rfl, branch_branches_ofInt rfl (not_lessUnsigned_iff_ule _ _)⟩⟩

/-! ## Reaching any aligned address (R141) -/

/-- Clearing bit 0 keeps a multiple of 4. -/
theorem and_clear_bit_zero_of_aligned {v : Word} (h : v.toNat % 4 = 0) : v &&& 0xFFFFFFFE = v := by
  have heven : v.toNat / 2 * 2 = v.toNat := by omega
  rw [and_clear_bit_zero, heven, BitVec.ofNat_toNat, BitVec.setWidth_eq]

/-- Settles O57: the parts add up to the target as for `lui` and `addi`, and clearing bit 0 keeps it, since it is aligned. -/
theorem luiJalrReachesAnyAddress : Obligations.LuiJalrReachesAnyAddress := by
  intro s rd target hrd haligned lo hi
  obtain ⟨t, ht, hregs, hpc, _⟩ : Computes (.lui rd hi) s rd (immU hi) := writeResult_computes rfl
  have htarget : jalrTarget t rd lo = target := by
    rw [jalrTarget, hregs.readReg_destination hrd, immU_add_immI_parts target, and_clear_bit_zero_of_aligned haligned]
  obtain ⟨hcompletes, _⟩ := jalr_jumps t rd rd lo
  rw [htarget] at hcompletes
  obtain ⟨u, hu, hregs', hpc', _⟩ := hcompletes haligned
  refine ⟨t, u, ht, hu, hpc', ?_⟩
  calc u.readReg rd = t.pc + 4 := hregs'.readReg_destination hrd
    _ = s.pc + 4 + 4 := by rw [hpc]
    _ = s.pc + 8 := BitVec.add_assoc s.pc 4 4

end Sys2Proof.Machine
end

section
/-! PROOFS of the load and store family (42_load_store.md): the words of the RV64I rows that the decoder skips (R160), the effective
address as integer arithmetic (R41, R79), and the loads and stores of R150 to R159. Completion, frame and faults of every access are
`load_loads` and `store_stores`, every word is an encoding; what is left is the address and how a load extends its bytes. -/

namespace Sys2Proof

/-! ## The rows that are not admitted (R160) -/

/-- The one row that fits the word of such an instruction is skipped, and it has no floating-point opcode (R81, R82). -/
theorem decode_encode_of_not_admitted {i : Instr} (h : i.admitted = false) :
    decode (encode i) = .error (.illegalInstruction (encode i)) := by
  obtain ⟨r, hr, hadm, hfits, _⟩ := encode_fits_row i
  have hskipped : r.admitted = false := hadm.trans h
  have hno : ∀ q ∈ opcodeTable, q.admitted = true → encode i &&& q.mask ≠ q.mtch := by
    intro q hq hqadm hqfits
    rw [fitting_row_unique hq hr hqfits hfits, hskipped] at hqadm
    cases hqadm
  have hnot : fieldOpcode (encode i) ∉ floatingPointOpcodes := by
    rw [fieldOpcode_of_fits hr hfits]
    exact (opcodeTable_opcode r hr).2
  rw [decode_of_no_fit hno, if_neg hnot]

end Sys2Proof

namespace Sys2Proof.Machine

/-- Settles O5: the four words are the encodings of the instructions that are not admitted. -/
theorem rv64WordsAreIllegal : Obligations.Rv64WordsAreIllegal :=
  fun _ rd rs1 rs2 imm =>
    ⟨⟨decode_encode_of_not_admitted (i := .lwu rd rs1 imm) rfl, rfl⟩,
      ⟨decode_encode_of_not_admitted (i := .ld rd rs1 imm) rfl, rfl⟩,
      ⟨decode_encode_of_not_admitted (i := .sd rs2 rs1 imm) rfl, rfl⟩,
      ⟨decode_encode_of_not_admitted (i := .addiw rd rs1 imm) rfl, rfl⟩⟩

/-! ## The effective address (R41, R79) -/

theorem loadAddress_eq_ofInt (s : State) (rs1 : RegId) (imm : BitVec 12) :
    loadAddress s rs1 imm = BitVec.ofInt 32 ((s.readReg rs1).toInt + imm.toInt) := by
  rw [loadAddress, immI_eq_ofInt, add_ofInt]

theorem storeAddress_eq_ofInt (s : State) (rs1 : RegId) (imm : BitVec 12) :
    storeAddress s rs1 imm = BitVec.ofInt 32 ((s.readReg rs1).toInt + imm.toInt) := by
  rw [storeAddress, immS_eq_ofInt, add_ofInt]

/-! ## The loads (R151 to R155) -/

/-- Zero extension to 32 bits is the word of the unsigned value. -/
theorem zeroExtend_eq_ofNat {n : Nat} (v : BitVec n) : v.zeroExtend 32 = BitVec.ofNat 32 v.toNat := (BitVec.ofNat_toNat 32 v).symm

theorem lb_loads (s : State) (rd rs1 : RegId) (imm : BitVec 12) :
    Loads (.lb rd rs1 imm) s rd (loadAddress s rs1 imm) 1 ((s.mem.get (loadAddress s rs1 imm).toNat).signExtend 32) :=
  load_loads (n := 1) (extend := fun v => v.signExtend 32) rfl (congrArg (·.signExtend 32) (ofBytesLE_one _).symm)

theorem lh_loads (s : State) (rd rs1 : RegId) (imm : BitVec 12) :
    Loads (.lh rd rs1 imm) s rd (loadAddress s rs1 imm) 2
      ((s.mem.get ((loadAddress s rs1 imm).toNat + 1) ++ s.mem.get (loadAddress s rs1 imm).toNat).signExtend 32) :=
  load_loads (n := 2) (extend := fun v => v.signExtend 32) rfl (congrArg (·.signExtend 32) (ofBytesLE_two _ _).symm)

/-- Settles O25. -/
theorem loadByte : Obligations.LoadByte :=
  fun s rd rs1 imm => ⟨loadAddress_eq_ofInt s rs1 imm,
    ⟨decode_encode (i := .lb rd rs1 imm) rfl, signExtend_eq_ofInt _ ▸ lb_loads s rd rs1 imm⟩,
    ⟨decode_encode (i := .lbu rd rs1 imm) rfl, zeroExtend_eq_ofNat _ ▸ lbu_loads s rd rs1 imm⟩⟩

/-- Settles O26. -/
theorem loadHalfword : Obligations.LoadHalfword :=
  fun s rd rs1 imm => ⟨loadAddress_eq_ofInt s rs1 imm,
    ⟨decode_encode (i := .lh rd rs1 imm) rfl, signExtend_eq_ofInt _ ▸ lh_loads s rd rs1 imm⟩,
    ⟨decode_encode (i := .lhu rd rs1 imm) rfl, zeroExtend_eq_ofNat _ ▸ lhu_loads s rd rs1 imm⟩⟩

/-- Settles O27. -/
theorem loadWord : Obligations.LoadWord :=
  fun s rd rs1 imm => ⟨loadAddress_eq_ofInt s rs1 imm, decode_encode (i := .lw rd rs1 imm) rfl, lw_loads s rd rs1 imm⟩

/-! ## The stores (R156 to R159) -/

theorem sb_stores (s : State) (rs2 rs1 : RegId) (imm : BitVec 12) :
    Stores (.sb rs2 rs1 imm) s (storeAddress s rs1 imm) 1 (s.readReg rs2) :=
  store_stores rfl

theorem sh_stores (s : State) (rs2 rs1 : RegId) (imm : BitVec 12) :
    Stores (.sh rs2 rs1 imm) s (storeAddress s rs1 imm) 2 (s.readReg rs2) :=
  store_stores rfl

theorem sw_stores (s : State) (rs2 rs1 : RegId) (imm : BitVec 12) :
    Stores (.sw rs2 rs1 imm) s (storeAddress s rs1 imm) 4 (s.readReg rs2) :=
  store_stores rfl

/-- Settles O29. -/
theorem storesWriteTheLowBytes : Obligations.StoresWriteTheLowBytes :=
  fun s rs1 rs2 imm => ⟨storeAddress_eq_ofInt s rs1 imm,
    ⟨decode_encode (i := .sb rs2 rs1 imm) rfl, sb_stores s rs2 rs1 imm⟩,
    ⟨decode_encode (i := .sh rs2 rs1 imm) rfl, sh_stores s rs2 rs1 imm⟩,
    ⟨decode_encode (i := .sw rs2 rs1 imm) rfl, sw_stores s rs2 rs1 imm⟩⟩

end Sys2Proof.Machine
end

section
/-! PROOFS of the system family (43_system.md): the fences and the words beside them that are illegal (R170, R171), the two stops
(R172, R173) and the six CSR instructions (R174 to R180). What stands between the shared operations and the statements is said once
each: what a word of the fences' opcode that is neither fence decodes to, every fault an instruction can raise, and what the CSR
access answers where the CSR is absent, read-only, or may be accessed. -/

namespace Sys2Proof

/-! ## Words of the fences' opcode (R82, R170, R171) -/

/-- A word that no row of its own major opcode fits is illegal, unless the opcode is one of floating point. -/
theorem decode_of_no_fit_of_opcode {w : Word} {opcode : BitVec 7} (hopcode : fieldOpcode w = opcode)
    (hnot : opcode ∉ floatingPointOpcodes)
    (hno : ∀ r ∈ opcodeTable, r.mtch.extractLsb' 0 7 = opcode → w &&& r.mask ≠ r.mtch) :
    decode w = .error (.illegalInstruction w) := by
  have hnone : ∀ r ∈ opcodeTable, r.admitted = true → w &&& r.mask ≠ r.mtch := fun r hr _ hfits =>
    hno r hr ((fieldOpcode_of_fits hr hfits).symm.trans hopcode) hfits
  rw [decode_of_no_fit hnone, if_neg (hopcode ▸ hnot)]

/-- The opcode 0001111 has two rows, `fence` and `fence.i`. -/
theorem opcodeTable_fenceRows : ∀ r ∈ opcodeTable, r.mtch.extractLsb' 0 7 = 0b0001111#7 →
    (r.mask = 0xF00FFFFF ∧ r.mtch = 0x0000000F) ∨ (r.mask = 0xFFFFFFFF ∧ r.mtch = 0x0000100F) := by decide

theorem decode_of_fenceOpcode {w : Word} (hopcode : fieldOpcode w = 0b0001111#7) (hfence : w &&& 0xF00FFFFF ≠ 0x0000000F)
    (hfenceI : w ≠ 0x0000100F) : decode w = .error (.illegalInstruction w) := by
  refine decode_of_no_fit_of_opcode hopcode (by decide) fun r hr hrow hfits => ?_
  rcases opcodeTable_fenceRows r hr hrow with ⟨hmask, hmtch⟩ | ⟨hmask, hmtch⟩ <;> rw [hmask, hmtch] at hfits
  · exact hfence hfits
  · exact hfenceI (eq_of_full_pattern hfits)

/-- The fields of a `fence` word that are fixed to 0 (R170). -/
theorem fence_pattern_fields {w : Word} (h : w &&& 0xF00FFFFF = 0x0000000F) :
    w.extractLsb' 28 4 = 0 ∧ w.extractLsb' 15 5 = 0 ∧ w.extractLsb' 12 3 = 0 ∧ w.extractLsb' 7 5 = 0 :=
  ⟨field_of_pattern h 28 4 (by decide), field_of_pattern h 15 5 (by decide), field_of_pattern h 12 3 (by decide),
    field_of_pattern h 7 5 (by decide)⟩

/-- Of the words with funct3 000 only those of `fence` decode (R170). -/
theorem decode_of_fenceSlot {w : Word} (hopcode : fieldOpcode w = 0b0001111#7) (hfunct3 : w.extractLsb' 12 3 = 0b000#3)
    (hnonzero : w.extractLsb' 28 4 ≠ 0 ∨ w.extractLsb' 15 5 ≠ 0 ∨ w.extractLsb' 7 5 ≠ 0) :
    decode w = .error (.illegalInstruction w) := by
  refine decode_of_fenceOpcode hopcode (fun hfits => ?_) (fun hw => ?_)
  · obtain ⟨h28, h15, -, h7⟩ := fence_pattern_fields hfits
    rcases hnonzero with hn | hn | hn
    · exact hn h28
    · exact hn h15
    · exact hn h7
  · subst hw
    exact absurd hfunct3 (by decide)

/-- Of the words with funct3 001 only that of `fence.i` decodes (R171). -/
theorem decode_of_fenceISlot {w : Word} (hopcode : fieldOpcode w = 0b0001111#7) (hfunct3 : w.extractLsb' 12 3 = 0b001#3)
    (hw : w ≠ 0x0000100F) : decode w = .error (.illegalInstruction w) := by
  refine decode_of_fenceOpcode hopcode (fun hfits => ?_) hw
  obtain ⟨-, -, hzero, -⟩ := fence_pattern_fields hfits
  rw [hzero] at hfunct3
  exact absurd hfunct3 (by decide)

end Sys2Proof

namespace Sys2Proof.Machine

/-! ## The fences (R170, R171) -/

theorem fence_onlyPc (s : State) (pred succ : BitVec 4) : OnlyPc (.fence pred succ) s (s.pc + 4) :=
  ⟨s.advance, rfl, fun _ => rfl, rfl, fun _ => rfl, rfl, rfl, rfl⟩

/-- Settles O31. -/
theorem fenceChangesOnlyPc : Obligations.FenceChangesOnlyPc :=
  fun s pred succ => ⟨decode_encode (i := .fence pred succ) rfl, fence_onlyPc s pred succ,
    fun _ hw hopcode hfunct3 hnonzero => step_eq_rejectOutcome hw (decode_of_fenceSlot hopcode hfunct3 hnonzero)⟩

/-- Settles O32. -/
theorem fenceIEmptiesStaleSet : Obligations.FenceIEmptiesStaleSet :=
  fun s => ⟨decode_eq_of_encode_eq rfl (by decide),
    ⟨({ s with stale := [] } : State).advance, rfl, fun _ => rfl, rfl, rfl, fun _ => rfl, rfl, rfl⟩,
    fun _ hw hopcode hfunct3 hne => step_eq_rejectOutcome hw (decode_of_fenceISlot hopcode hfunct3 hne)⟩

/-! ## The CSR access (R174) -/

section Access

variable {s : State} {word : Word} {rd : RegId} {a : CsrAddr} {reads : Bool} {update : Option (Word → Word)} {c : Csr}

/-- A CSR that is not in the file (R174). -/
theorem csrAccess_of_absent (hn : s.findCsr a = none) : csrAccess s word rd a reads update = .fault (.illegalInstruction word) := by
  rcases csrAccess_cases s word rd a reads update with ⟨_, e⟩ | ⟨_, _, _, _, e⟩ | ⟨_, _, hc, _⟩
  · exact e
  · exact e
  · cases hn.symm.trans hc

/-- A CSR that is read-only and would be written (R174). -/
theorem csrAccess_of_readOnly (hc : s.findCsr a = some c) (hro : c.readOnly = true) (hw : update.isSome = true) :
    csrAccess s word rd a reads update = .fault (.illegalInstruction word) := by
  rcases csrAccess_cases s word rd a reads update with ⟨_, e⟩ | ⟨_, _, _, _, e⟩ | ⟨d, _, hd, hwritable, _⟩
  · exact e
  · exact e
  · cases hc.symm.trans hd
    cases hro.symm.trans (hwritable hw)

/-- A CSR that is there, and is not read-only if it is written: the access completes (R174). -/
theorem csrAccess_of_permitted {i : Instr} (h : exec i s = csrAccess s word rd a reads update) (hc : s.findCsr a = some c)
    (hw : update.isSome = true → c.readOnly = false) :
    AccessesCsr i s rd a c (c.valueRead a reads) (c.afterAccess a reads update) := by
  rcases csrAccess_cases s word rd a reads update with ⟨hn, _⟩ | ⟨d, hd, hu, hro, _⟩ | ⟨d, held, hd, _, hheld, e⟩
  · cases hn.symm.trans hc
  · cases hd.symm.trans hc
    cases hro.symm.trans (hw hu)
  · cases hd.symm.trans hc
    subst hheld
    refine csrAccess_accesses hc (h.trans (e.trans ?_))
    cases update <;> rfl

end Access

/-! ## Absent and read-only CSRs (R174) -/

/-- An instruction whose meaning is a CSR access with its own word: it decodes, and it raises with that word. -/
theorem csrAccess_illegal {i : Instr} {s : State} {rd : RegId} {a : CsrAddr} {reads : Bool} {update : Option (Word → Word)}
    {writes : Prop} (hi : i.wellFormed = true) (h : exec i s = csrAccess s (encode i) rd a reads update)
    (hw : writes → update.isSome = true) :
    decode (encode i) = .ok i ∧ (s.findCsr a = none → exec i s = .fault (.illegalInstruction (encode i))) ∧
    ∀ c, s.findCsr a = some c → c.readOnly = true → writes → exec i s = .fault (.illegalInstruction (encode i)) :=
  ⟨decode_encode hi, fun hn => h.trans (csrAccess_of_absent hn),
    fun _ hc hro hwrites => h.trans (csrAccess_of_readOnly hc hro (hw hwrites))⟩

/-- An `rs1` or `zimm` other than 0 is what makes the set and clear forms write (R176). -/
theorem isSome_update_of_ne_zero {src : BitVec 5} {f : Word → Word} (h : src ≠ 0) :
    (if src = 0 then none else some f).isSome = true := by
  rw [if_neg h]
  rfl

/-- Settles O34: each word is the instruction's encoding, and the file is empty after reset. -/
theorem csrAbsentOrReadOnlyIsIllegal : Obligations.CsrAbsentOrReadOnlyIsIllegal :=
  fun _ rd src csr => ⟨rfl,
    csrAccess_illegal (i := .csrrw rd csr src) rfl rfl fun _ => rfl,
    csrAccess_illegal (i := .csrrs rd csr src) rfl rfl isSome_update_of_ne_zero,
    csrAccess_illegal (i := .csrrc rd csr src) rfl rfl isSome_update_of_ne_zero,
    csrAccess_illegal (i := .csrrwi rd csr src) rfl rfl fun _ => rfl,
    csrAccess_illegal (i := .csrrsi rd csr src) rfl rfl isSome_update_of_ne_zero,
    csrAccess_illegal (i := .csrrci rd csr src) rfl rfl isSome_update_of_ne_zero⟩

/-! ## Swapping with a CSR (R175, R178) -/

/-- Whatever value would go to `x0` is discarded (R21). -/
theorem AccessesCsr.of_zero {i : Instr} {s : State} {a : CsrAddr} {c : Csr} {v held : Word} (w : Word)
    (h : AccessesCsr i s 0 a c v held) : AccessesCsr i s 0 a c w held := by
  obtain ⟨t, ht, hregs, hrest⟩ := h
  refine ⟨t, ht, fun r => (hregs r).trans ?_, hrest⟩
  split <;> rfl

/-- `csrrw` and `csrrwi`: the CSR is read unless `rd` is `x0`, and written in any case. -/
theorem csrSwap_accesses {i : Instr} {s : State} {word : Word} {rd : RegId} {a : CsrAddr} {c : Csr} {v : Word}
    (h : exec i s = csrAccess s word rd a (rd != 0) (some fun _ => v)) (hc : s.findCsr a = some c) (hro : c.readOnly = false) :
    AccessesCsr i s rd a c (Config.csrRead a c.value)
      (Config.csrWrite a (if rd = 0 then c.value else Config.csrAfterRead a c.value) v) := by
  have haccess := csrAccess_of_permitted h hc fun _ => hro
  by_cases hrd : rd = 0
  · subst hrd
    exact haccess.of_zero _
  · have hreads : (rd != 0) = true := bne_iff_ne.mpr hrd
    rw [hreads] at haccess
    rw [if_neg hrd]
    exact haccess

/-- Settles O35. -/
theorem csrReadAndWrite : Obligations.CsrReadAndWrite :=
  fun _ _ src _ _ hc hro => ⟨csrSwap_accesses rfl hc hro, immZ_eq_ofNat src ▸ csrSwap_accesses rfl hc hro⟩

/-! ## Setting and clearing bits of a CSR (R176, R177, R179, R180) -/

section SetAndClear

variable {i : Instr} {s : State} {word : Word} {rd : RegId} {a : CsrAddr} {c : Csr} {src : BitVec 5} {f : Word → Word}

/-- With 0 in the `rs1` or `zimm` field the CSR is read and not written, so a read-only one is no exception. -/
theorem csrUpdate_reads (h : exec i s = csrAccess s word rd a true (if src = 0 then none else some f)) (hc : s.findCsr a = some c)
    (hsrc : src = 0) : AccessesCsr i s rd a c (Config.csrRead a c.value) (Config.csrAfterRead a c.value) := by
  rw [if_pos hsrc] at h
  exact csrAccess_of_permitted h hc nofun

/-- Else the CSR is written with what `f` makes of the value read. -/
theorem csrUpdate_writes (h : exec i s = csrAccess s word rd a true (if src = 0 then none else some f)) (hc : s.findCsr a = some c)
    (hsrc : src ≠ 0) (hro : c.readOnly = false) :
    AccessesCsr i s rd a c (Config.csrRead a c.value)
      (Config.csrWrite a (Config.csrAfterRead a c.value) (f (Config.csrRead a c.value))) := by
  rw [if_neg hsrc] at h
  exact csrAccess_of_permitted h hc fun _ => hro

end SetAndClear

/-- Settles O36. -/
theorem csrSetAndClearBits : Obligations.CsrSetAndClearBits := by
  intro s rd src csr c hc held read imm
  have himm : immZ src = imm := immZ_eq_ofNat src
  refine ⟨fun hsrc => ⟨csrUpdate_reads rfl hc hsrc, csrUpdate_reads rfl hc hsrc, csrUpdate_reads rfl hc hsrc,
    csrUpdate_reads rfl hc hsrc⟩, fun hsrc hro => ?_⟩
  rw [← himm]
  exact ⟨csrUpdate_writes (f := fun t => t ||| s.readReg src) rfl hc hsrc hro,
    csrUpdate_writes (f := fun t => t &&& ~~~s.readReg src) rfl hc hsrc hro,
    csrUpdate_writes (f := fun t => t ||| immZ src) rfl hc hsrc hro,
    csrUpdate_writes (f := fun t => t &&& ~~~immZ src) rfl hc hsrc hro⟩

/-! ## Every fault of every instruction (R222) -/

/-- A jump or taken branch that raises (R130). -/
theorem transfer_fault {s : State} {t : Word} {link : Option (RegId × Word)} {f : Fault} (h : transfer s t link = .fault f) :
    f = .instructionAddressMisaligned t := by
  unfold transfer at h
  split at h
  · cases h
    rfl
  · cases link <;> cases h

/-- A branch that raises is taken (R134). -/
theorem branch_fault {s : State} {taken : Bool} {t : Word} {f : Fault} (h : branch s taken t = .fault f) :
    f = .instructionAddressMisaligned t := by
  unfold branch at h
  split at h
  · exact transfer_fault h
  · cases h

/-- A load that raises (R215, R216). -/
theorem load_fault {s : State} {rd : RegId} {addr : Word} {n : Nat} {extend : BitVec (8 * n) → Word} {f : Fault}
    (h : load s rd addr n extend = .fault f) :
    (addr.toNat % n ≠ 0 ∧ f = .loadAddressMisaligned addr) ∨
    (addr.toNat % n = 0 ∧ ¬AllBacked s addr.toNat n ∧ f = .loadAccessFault addr) := by
  rcases load_cases s rd addr n extend with ⟨_, _, e⟩ | ⟨ha, e⟩ | ⟨ha, hb, e⟩ <;> cases h.symm.trans e
  · exact .inl ⟨ha, rfl⟩
  · exact .inr ⟨ha, hb, rfl⟩

/-- A store that raises (R217, R218). -/
theorem store_fault {s : State} {addr : Word} {n : Nat} {v : Word} {f : Fault} (h : store s addr n v = .fault f) :
    (addr.toNat % n ≠ 0 ∧ f = .storeAddressMisaligned addr) ∨
    (addr.toNat % n = 0 ∧ ¬AllBacked s addr.toNat n ∧ f = .storeAccessFault addr) := by
  rcases store_cases s addr n v with ⟨_, _, e⟩ | ⟨ha, e⟩ | ⟨ha, hb, e⟩ <;> cases h.symm.trans e
  · exact .inl ⟨ha, rfl⟩
  · exact .inr ⟨ha, hb, rfl⟩

/-- A CSR access that raises (R174). -/
theorem csrAccess_fault {s : State} {word : Word} {rd : RegId} {a : CsrAddr} {reads : Bool} {update : Option (Word → Word)}
    {f : Fault} (h : csrAccess s word rd a reads update = .fault f) : f = .illegalInstruction word := by
  rcases csrAccess_cases s word rd a reads update with ⟨_, e⟩ | ⟨_, _, _, _, e⟩ | ⟨_, _, _, _, _, e⟩ <;> cases h.symm.trans e
  · rfl
  · rfl

/-- An instruction that raises, raises an exception whose code R222 lists for it. -/
theorem exec_fault_code {i : Instr} {s : State} {f : Fault} (h : exec i s = .fault f) :
    ∃ n ∈ raisableCodes i, f.code = some n := by
  cases i with
  | lui | auipc | addi | slti | sltiu | xori | ori | andi | slli | srli | srai => cases h
  | add | sub | sll | slt | sltu | xor | srl | sra | or | and => cases h
  | mul | mulh | mulhsu | mulhu | div | divu | rem | remu => cases h
  | fence | fenceI => cases h
  | jal | jalr => exact ⟨0, .head _, congrArg Fault.code (transfer_fault (s := s) (link := some (_, s.nextPc)) h)⟩
  | beq | bne | blt | bge | bltu | bgeu => exact ⟨0, .head _, congrArg Fault.code (branch_fault h)⟩
  | lb | lbu =>
    obtain ⟨ha, _⟩ | ⟨_, _, rfl⟩ := load_fault h
    · exact absurd (Nat.mod_one _) ha
    · exact ⟨5, .head _, rfl⟩
  | lh | lhu | lw =>
    obtain ⟨_, rfl⟩ | ⟨_, _, rfl⟩ := load_fault h
    · exact ⟨4, .head _, rfl⟩
    · exact ⟨5, .tail _ (.head _), rfl⟩
  | sb =>
    obtain ⟨ha, _⟩ | ⟨_, _, rfl⟩ := store_fault h
    · exact absurd (Nat.mod_one _) ha
    · exact ⟨7, .head _, rfl⟩
  | sh | sw =>
    obtain ⟨_, rfl⟩ | ⟨_, _, rfl⟩ := store_fault h
    · exact ⟨6, .head _, rfl⟩
    · exact ⟨7, .tail _ (.head _), rfl⟩
  | csrrw | csrrs | csrrc | csrrwi | csrrsi | csrrci =>
    exact ⟨2, .head _, congrArg Fault.code (csrAccess_fault h)⟩
  | lwu | ld | sd | addiw =>
    cases h
    exact ⟨2, .head _, rfl⟩
  | ecall =>
    cases h
    exact ⟨11, .head _, rfl⟩
  | ebreak =>
    cases h
    exact ⟨3, .head _, rfl⟩

/-! ## The two stops (R172, R173) -/

/-- R222 lists code 11 for `ecall` alone. -/
theorem eq_ecall_of_raises {i : Instr} (h : 11 ∈ raisableCodes i) : i = .ecall := by
  cases i with
  | ecall => rfl
  | _ => exact absurd h (of_decide_eq_false rfl)

/-- R222 lists code 3 for `ebreak` alone. -/
theorem eq_ebreak_of_raises {i : Instr} (h : 3 ∈ raisableCodes i) : i = .ebreak := by
  cases i with
  | ebreak => rfl
  | _ => exact absurd h (of_decide_eq_false rfl)

/-- Settles O33: each of the two exceptions has a code that one instruction alone may raise. -/
theorem environmentCallAndBreakpointStop : Obligations.EnvironmentCallAndBreakpointStop := by
  refine ⟨decode_eq_of_encode_eq rfl (by decide), decode_eq_of_encode_eq rfl (by decide), fun _ => ⟨rfl, rfl⟩,
    fun s i w => ⟨fun h => ?_, fun h => ?_⟩⟩
  · obtain ⟨n, hn, hcode⟩ := exec_fault_code h
    cases hcode
    exact eq_ecall_of_raises hn
  · obtain ⟨n, hn, hcode⟩ := exec_fault_code h
    cases hcode
    exact eq_ebreak_of_raises hn

end Sys2Proof.Machine
end

section
/-! PROOFS of the multiply and divide family (44_rv32m.md, R191 to R198). Each instruction is one `writeResult`, so completion and frame
are `writeResult_computes`; what is left is arithmetic. The model narrows exact integer products, the statements take bits of 64-bit
products: both are `BitVec.ofInt`, which keeps sums and products. -/

namespace Sys2Proof.Machine

/-! ## The low half of a product (R191) -/

theorem mul_eq_ofInt (a b : Word) : a * b = BitVec.ofInt 32 (a.toInt * b.toInt) := by
  rw [BitVec.ofInt_mul, BitVec.ofInt_toInt, BitVec.ofInt_toInt]

theorem mul_eq_ofNat (a b : Word) : a * b = BitVec.ofNat 32 (a.toNat * b.toNat) := by
  rw [BitVec.ofNat_mul, BitVec.ofNat_toNat, BitVec.ofNat_toNat, BitVec.setWidth_eq, BitVec.setWidth_eq]

/-- Settles O37: a word is the word of its signed value and of its unsigned value, so each product is the product of the words. -/
theorem multiplyLowWord : Obligations.MultiplyLowWord := by
  intro s rd rs1 rs2
  rw [← mul_eq_ofInt]
  exact ⟨⟨decode_encode (i := .mul rd rs1 rs2) rfl, writeResult_computes rfl⟩, mul_eq_ofNat _ _⟩

/-! ## The high half of a product (R192 to R194) -/

theorem extractLsb'_ofInt_eq_highWord (p : Int) : (BitVec.ofInt 64 p).extractLsb' 32 32 = highWord p := by
  apply BitVec.eq_of_toNat_eq
  rw [highWord, BitVec.extractLsb'_toNat, BitVec.toNat_ofInt, BitVec.toNat_ofInt, Nat.shiftRight_eq_div_pow]
  omega

/-- Whichever integers the two operands are read as, the 64-bit product has the high half of the exact one. -/
theorem extractLsb'_mul_eq_highWord {a b : BitVec 64} {m n : Int} (ha : a = BitVec.ofInt 64 m) (hb : b = BitVec.ofInt 64 n) :
    (a * b).extractLsb' 32 32 = highWord (m * n) := by
  rw [ha, hb, ← BitVec.ofInt_mul, extractLsb'_ofInt_eq_highWord]

theorem signExtend_eq_ofInt_toInt (v : Word) : v.signExtend 64 = BitVec.ofInt 64 v.toInt := rfl

theorem zeroExtend_eq_ofInt_toNat (v : Word) : v.zeroExtend 64 = BitVec.ofInt 64 v.toNat := by
  rw [BitVec.ofInt_natCast, BitVec.ofNat_toNat]

/-- On a product of unsigned values the arithmetic and the logical shift agree (R193). -/
theorem highWord_natCast (n : Nat) : highWord n = BitVec.ofNat 32 (n >>> 32) := by
  rw [Nat.shiftRight_eq_div_pow, ← BitVec.ofInt_natCast, highWord]
  norm_cast

theorem mulh_computes (s : State) (rd rs1 rs2 : RegId) :
    Computes (.mulh rd rs1 rs2) s rd (((s.readReg rs1).signExtend 64 * (s.readReg rs2).signExtend 64).extractLsb' 32 32) :=
  extractLsb'_mul_eq_highWord (signExtend_eq_ofInt_toInt _) (signExtend_eq_ofInt_toInt _) ▸ writeResult_computes rfl

theorem mulhsu_computes (s : State) (rd rs1 rs2 : RegId) :
    Computes (.mulhsu rd rs1 rs2) s rd (((s.readReg rs1).signExtend 64 * (s.readReg rs2).zeroExtend 64).extractLsb' 32 32) :=
  extractLsb'_mul_eq_highWord (signExtend_eq_ofInt_toInt _) (zeroExtend_eq_ofInt_toNat _) ▸ writeResult_computes rfl

theorem mulhu_computes (s : State) (rd rs1 rs2 : RegId) :
    Computes (.mulhu rd rs1 rs2) s rd (((s.readReg rs1).zeroExtend 64 * (s.readReg rs2).zeroExtend 64).extractLsb' 32 32) := by
  rw [extractLsb'_mul_eq_highWord (zeroExtend_eq_ofInt_toNat _) (zeroExtend_eq_ofInt_toNat _), ← Nat.cast_mul, highWord_natCast]
  exact writeResult_computes rfl

/-- Settles O38. -/
theorem multiplyHighWord : Obligations.MultiplyHighWord :=
  fun s rd rs1 rs2 => ⟨⟨decode_encode (i := .mulh rd rs1 rs2) rfl, mulh_computes s rd rs1 rs2⟩,
    ⟨decode_encode (i := .mulhu rd rs1 rs2) rfl, mulhu_computes s rd rs1 rs2⟩,
    ⟨decode_encode (i := .mulhsu rd rs1 rs2) rfl, mulhsu_computes s rd rs1 rs2⟩⟩

/-! ## What the divisions write (R195 to R198) -/

theorem remainderSigned_eq_tmod (a b : Word) :
    remainderSigned a b = if b = 0 then a else if a = 0x80000000 ∧ b = 0xFFFFFFFF then 0
      else BitVec.ofInt 32 (a.toInt.tmod b.toInt) := by
  rw [remainderSigned, sub_mul_tdiv]

theorem quotientUnsigned_eq_udiv (a b : Word) : quotientUnsigned a b = if b = 0 then 0xFFFFFFFF else a / b := by
  rw [quotientUnsigned, BitVec.udiv_def]

theorem remainderUnsigned_eq_umod (a b : Word) : remainderUnsigned a b = if b = 0 then a else a % b := by
  rw [remainderUnsigned, BitVec.umod_def]

theorem div_computes (s : State) (rd rs1 rs2 : RegId) :
    Computes (.div rd rs1 rs2) s rd (quotientSigned (s.readReg rs1) (s.readReg rs2)) := writeResult_computes rfl

theorem rem_computes (s : State) (rd rs1 rs2 : RegId) :
    Computes (.rem rd rs1 rs2) s rd (remainderSigned (s.readReg rs1) (s.readReg rs2)) := writeResult_computes rfl

theorem divu_computes (s : State) (rd rs1 rs2 : RegId) :
    Computes (.divu rd rs1 rs2) s rd (quotientUnsigned (s.readReg rs1) (s.readReg rs2)) := writeResult_computes rfl

theorem remu_computes (s : State) (rd rs1 rs2 : RegId) :
    Computes (.remu rd rs1 rs2) s rd (remainderUnsigned (s.readReg rs1) (s.readReg rs2)) := writeResult_computes rfl

/-- Settles O39: the model's quotient is the rule's own, its remainder is what that quotient leaves. -/
theorem signedDivision : Obligations.SignedDivision := by
  intro s rd rs1 rs2
  rw [← remainderSigned_eq_tmod]
  exact ⟨⟨decode_encode (i := .div rd rs1 rs2) rfl, div_computes s rd rs1 rs2⟩,
    ⟨decode_encode (i := .rem rd rs1 rs2) rfl, rem_computes s rd rs1 rs2⟩⟩

/-- Settles O40. -/
theorem unsignedDivision : Obligations.UnsignedDivision := by
  intro s rd rs1 rs2
  rw [← quotientUnsigned_eq_udiv, ← remainderUnsigned_eq_umod]
  exact ⟨⟨decode_encode (i := .divu rd rs1 rs2) rfl, divu_computes s rd rs1 rs2⟩,
    ⟨decode_encode (i := .remu rd rs1 rs2) rfl, remu_computes s rd rs1 rs2⟩⟩

/-! ## The dividend from quotient and remainder (R197) -/

/-- Narrowing keeps the division identity of the integers. -/
theorem ofInt_mul_add_ofInt_sub (a b : Word) (q : Int) :
    BitVec.ofInt 32 q * b + BitVec.ofInt 32 (a.toInt - b.toInt * q) = a := by
  calc BitVec.ofInt 32 q * b + BitVec.ofInt 32 (a.toInt - b.toInt * q)
      = BitVec.ofInt 32 (q * b.toInt + (a.toInt - b.toInt * q)) := by rw [BitVec.ofInt_add, BitVec.ofInt_mul, BitVec.ofInt_toInt]
    _ = BitVec.ofInt 32 a.toInt := by congr 1; ring
    _ = a := BitVec.ofInt_toInt

theorem quotientSigned_mul_add_remainderSigned (a b : Word) : quotientSigned a b * b + remainderSigned a b = a := by
  unfold quotientSigned remainderSigned
  by_cases hzero : b = 0
  · rw [if_pos hzero, if_pos hzero, hzero, mul_zero, zero_add]
  rw [if_neg hzero, if_neg hzero]
  by_cases hoverflow : a = 0x80000000 ∧ b = 0xFFFFFFFF
  · obtain ⟨rfl, rfl⟩ := hoverflow
    decide
  · rw [if_neg hoverflow, if_neg hoverflow, ofInt_mul_add_ofInt_sub]

theorem udiv_mul_add_umod (a b : Word) : a / b * b + a % b = a := by
  apply BitVec.eq_of_toNat_eq
  rw [BitVec.toNat_add, BitVec.toNat_mul, BitVec.toNat_udiv, BitVec.toNat_umod, Nat.mod_add_mod,
    Nat.div_add_mod', Nat.mod_eq_of_lt a.isLt]

theorem quotientUnsigned_mul_add_remainderUnsigned (a b : Word) : quotientUnsigned a b * b + remainderUnsigned a b = a := by
  rw [quotientUnsigned_eq_udiv, remainderUnsigned_eq_umod]
  by_cases hzero : b = 0
  · rw [if_pos hzero, if_pos hzero, hzero, mul_zero, zero_add]
  · rw [if_neg hzero, if_neg hzero, udiv_mul_add_umod]

/-- Settles O41. -/
theorem quotientTimesDivisorPlusRemainder : Obligations.QuotientTimesDivisorPlusRemainder := by
  intro s t u t' u' rd rs1 rs2 hrd hdiv hrem hdivu hremu
  obtain ⟨hq, _⟩ := (div_computes s rd rs1 rs2).of_next hdiv
  obtain ⟨hr, _⟩ := (rem_computes s rd rs1 rs2).of_next hrem
  obtain ⟨hq', _⟩ := (divu_computes s rd rs1 rs2).of_next hdivu
  obtain ⟨hr', _⟩ := (remu_computes s rd rs1 rs2).of_next hremu
  rw [hq.readReg_destination hrd, hr.readReg_destination hrd, hq'.readReg_destination hrd, hr'.readReg_destination hrd]
  exact ⟨(quotientSigned_mul_add_remainderSigned _ _).symm, (quotientUnsigned_mul_add_remainderUnsigned _ _).symm⟩

end Sys2Proof.Machine
end

section
/-! PROOFS of the exceptions family (60_exceptions.md): which exceptions each instruction raises, when, and with what info (R215 to
R218, R222, R224), and the two that only a fetch raises (R212, R220). A load or store raises exactly when it does not complete, which
its shape already says. A step raises code 1 or `StaleFetch` only at the fetch, since no instruction has these codes. -/

namespace Sys2Proof.Machine

/-! ## Loads and stores (R215 to R218) -/

/-- An access that completes where it is aligned and backed, and else raises one exception for each check that fails, raises nothing
else. -/
theorem access_fault_iff {o : Host.Outcome State Fault Refusal} {aligned backed : Prop} {misaligned access f : Fault}
    (hcompletes : aligned → backed → ∃ t, o = .next t) (hmisaligned : ¬aligned → o = .fault misaligned)
    (hunbacked : aligned → ¬backed → o = .fault access) :
    o = .fault f ↔ (¬aligned ∧ f = misaligned) ∨ (aligned ∧ ¬backed ∧ f = access) := by
  by_cases ha : aligned
  · by_cases hb : backed
    · obtain ⟨t, rfl⟩ := hcompletes ha hb
      simp [ha, hb]
    · simp [hunbacked ha hb, ha, hb, eq_comm]
  · simp [hmisaligned ha, ha, eq_comm]

/-- A load raises exactly when its address is misaligned or unbacked, each case with its own exception (R215, R216). -/
theorem Loads.fault_iff {i : Instr} {s : State} {rd : RegId} {addr : Word} {n : Nat} {v : Word} {f : Fault}
    (h : Loads i s rd addr n v) :
    exec i s = .fault f ↔
      (addr.toNat % n ≠ 0 ∧ f = .loadAddressMisaligned addr) ∨
      (addr.toNat % n = 0 ∧ ¬AllBacked s addr.toNat n ∧ f = .loadAccessFault addr) := by
  obtain ⟨hcompletes, hmisaligned, hunbacked⟩ := h
  exact access_fault_iff (fun ha hb => (hcompletes ha hb).imp fun _ ht => ht.1) hmisaligned hunbacked

/-- A byte load is never misaligned (R215). -/
theorem Loads.fault_iff_of_byte {i : Instr} {s : State} {rd : RegId} {addr : Word} {v : Word} {f : Fault}
    (h : Loads i s rd addr 1 v) : exec i s = .fault f ↔ ¬AllBacked s addr.toNat 1 ∧ f = .loadAccessFault addr := by
  simp [h.fault_iff, Nat.mod_one]

/-- Settles O28. -/
theorem loadExceptionsExactly : Obligations.LoadExceptionsExactly :=
  fun s rd rs1 imm _ => ⟨(lb_loads s rd rs1 imm).fault_iff_of_byte, (lbu_loads s rd rs1 imm).fault_iff_of_byte,
    (lh_loads s rd rs1 imm).fault_iff, (lhu_loads s rd rs1 imm).fault_iff, (lw_loads s rd rs1 imm).fault_iff⟩

/-- A store raises exactly when its address is misaligned or unbacked, each case with its own exception (R217, R218). -/
theorem Stores.fault_iff {i : Instr} {s : State} {addr : Word} {n : Nat} {v : Word} {f : Fault} (h : Stores i s addr n v) :
    exec i s = .fault f ↔
      (addr.toNat % n ≠ 0 ∧ f = .storeAddressMisaligned addr) ∨
      (addr.toNat % n = 0 ∧ ¬AllBacked s addr.toNat n ∧ f = .storeAccessFault addr) := by
  obtain ⟨hcompletes, hmisaligned, hunbacked⟩ := h
  exact access_fault_iff (fun ha hb => (hcompletes ha hb).imp fun _ ht => ht.1) hmisaligned hunbacked

/-- A byte store is never misaligned (R217). -/
theorem Stores.fault_iff_of_byte {i : Instr} {s : State} {addr : Word} {v : Word} {f : Fault} (h : Stores i s addr 1 v) :
    exec i s = .fault f ↔ ¬AllBacked s addr.toNat 1 ∧ f = .storeAccessFault addr := by
  simp [h.fault_iff, Nat.mod_one]

/-- Settles O30. -/
theorem storeExceptionsExactly : Obligations.StoreExceptionsExactly :=
  fun s rs1 rs2 imm _ => ⟨(sb_stores s rs2 rs1 imm).fault_iff_of_byte, (sh_stores s rs2 rs1 imm).fault_iff,
    (sw_stores s rs2 rs1 imm).fault_iff⟩

/-! ## No instruction refuses (R222) -/

theorem branch_ne_refused (s : State) (taken : Bool) (t : Word) (r : Refusal) : branch s taken t ≠ .refused r := by
  unfold branch transfer
  split
  · split <;> nofun
  · nofun

theorem store_ne_refused (s : State) (addr : Word) (n : Nat) (v : Word) (r : Refusal) : store s addr n v ≠ .refused r := by
  rcases store_cases s addr n v with ⟨_, _, e⟩ | ⟨_, e⟩ | ⟨_, _, e⟩ <;> rw [e] <;> nofun

/-- Every instruction completes or raises. One that writes a register does so whatever its `rd` field is. -/
theorem exec_ne_refused (i : Instr) (s : State) (r : Refusal) : exec i s ≠ .refused r := by
  cases hd : destination i with
  | some rd =>
    rcases exec_withDestination_zero s hd with ⟨_, _, e, _⟩ | ⟨_, _, e, _⟩ | ⟨_, e, _⟩ <;> rw [e] <;> nofun
  | none =>
    cases i with
    | beq | bne | blt | bge | bltu | bgeu => exact branch_ne_refused s _ _ r
    | sb | sh | sw => exact store_ne_refused s _ _ _ r
    | fence | fenceI | ecall | ebreak | lwu | ld | sd | addiw => nofun
    | _ => cases hd

/-- Settles O47. -/
theorem instructionsRaiseOnlyTheirCodes : Obligations.InstructionsRaiseOnlyTheirCodes :=
  fun i s => ⟨fun _ h => exec_fault_code h, exec_ne_refused i s⟩

/-! ## The exceptions that only a fetch raises (R212, R220, R224) -/

/-- R222 lists code 1 for no instruction. -/
theorem one_not_mem_raisableCodes (i : Instr) : 1 ∉ raisableCodes i := by
  cases i <;> exact of_decide_eq_false rfl

/-- No instruction raises a fetch exception: `InstructionAccessFault`, which has code 1, or `StaleFetch`, which has none (R224). -/
theorem exec_fault_not_fetch {i : Instr} {s : State} {f : Fault} (h : exec i s = .fault f) :
    f.code ≠ some 1 ∧ f.code ≠ none := by
  obtain ⟨n, hn, hcode⟩ := exec_fault_code h
  rw [hcode]
  refine ⟨fun e => ?_, nofun⟩
  cases e
  exact one_not_mem_raisableCodes i hn

/-- A step raises at the fetch, at decode, or in the instruction (R10). -/
theorem step_fault {s : State} {f : Fault} (h : step s = .fault f) :
    fetch s = .error f ∨ (∃ w, f = .illegalInstruction w) ∨ ∃ i, exec i s = .fault f := by
  unfold step at h
  split at h
  · next hfetch =>
    cases h
    exact .inl hfetch
  · split at h
    · next e _ =>
      cases e with
      | illegalInstruction w =>
        cases h
        exact .inr (.inl ⟨w, rfl⟩)
      | floatingPointNotSpecified => cases h
    · next i _ => exact .inr (.inr ⟨i, h⟩)

/-- A step raises a fetch exception exactly when its fetch does. -/
theorem step_fault_iff_fetch {s : State} {f : Fault} (hcode : f.code = some 1 ∨ f.code = none) :
    step s = .fault f ↔ fetch s = .error f := by
  refine ⟨fun h => ?_, step_eq_fault_of_fetch⟩
  rcases step_fault h with hfetch | ⟨w, rfl⟩ | ⟨i, hexec⟩
  · exact hfetch
  · rcases hcode with hcode | hcode <;> cases hcode
  · obtain ⟨hone, hnone⟩ := exec_fault_not_fetch hexec
    exact absurd hcode (not_or.mpr ⟨hone, hnone⟩)

theorem step_instructionAccessFault_iff {s : State} {w : Word} :
    step s = .fault (.instructionAccessFault w) ↔ s.pc.toNat % 4 = 0 ∧ ¬AllBacked s s.pc.toNat 4 ∧ w = s.pc := by
  rw [step_fault_iff_fetch (.inl rfl)]
  rcases fetch_cases s with ⟨ha, e⟩ | ⟨ha, hb, e⟩ | ⟨_, hb, _, e⟩ | ⟨_, hb, _, e⟩
  · simp [e, ha]
  · simp [e, ha, hb, eq_comm]
  · simp [e, hb]
  · simp [e, hb]

theorem step_staleFetch_iff {s : State} {w : Word} :
    step s = .fault (.staleFetch w) ↔
      s.pc.toNat % 4 = 0 ∧ AllBacked s s.pc.toNat 4 ∧ (∃ k, k < 4 ∧ s.pc.toNat + k ∈ s.stale) ∧ w = s.pc := by
  rw [step_fault_iff_fetch (.inr rfl)]
  rcases fetch_cases s with ⟨ha, e⟩ | ⟨_, hb, e⟩ | ⟨ha, hb, hs, e⟩ | ⟨_, _, hs, e⟩
  · simp [e, ha]
  · simp [e, hb]
  · simp [e, ha, hb, hs, eq_comm]
  · rw [e]
    exact iff_of_false nofun fun ⟨_, _, ⟨k, hk, hmem⟩, _⟩ => hs k hk hmem

/-! ## Landing on an unbacked target (R212) -/

/-- The step after an instruction that keeps the parameters and leaves pc at an aligned, unbacked address. -/
theorem step_of_unbacked_pc {s t : State} (hconfig : t.config = s.config) (ha : t.pc.toNat % 4 = 0)
    (hb : ¬AllBacked s t.pc.toNat 4) : step t = .fault (.instructionAccessFault t.pc) :=
  step_instructionAccessFault_iff.mpr ⟨ha, fun hbt => hb (hbt.of_config hconfig.symm), rfl⟩

/-- `i` completes with pc at `target`, the registers as `regs` says and nothing else changed, and the next step raises at the fetch. -/
def LandsUnbacked (i : Instr) (s : State) (target : Word) (regs : State → Prop) : Prop :=
  ∃ t, exec i s = .next t ∧ regs t ∧ t.pc = target ∧ SameRest s t ∧ step t = .fault (.instructionAccessFault target)

theorem LandsUnbacked.of_completes {i : Instr} {s t : State} {target : Word} {regs : State → Prop} (h : exec i s = .next t)
    (hregs : regs t) (hpc : t.pc = target) (hrest : SameRest s t) (ha : target.toNat % 4 = 0)
    (hb : ¬AllBacked s target.toNat 4) : LandsUnbacked i s target regs := by
  subst hpc
  exact ⟨t, h, hregs, rfl, hrest, step_of_unbacked_pc (exec_config h) ha hb⟩

/-- A jump completes whether or not its target is backed. -/
theorem Jumps.landsUnbacked {i : Instr} {s : State} {rd : RegId} {target : Word} (h : Jumps i s rd target)
    (ha : target.toNat % 4 = 0) (hb : ¬AllBacked s target.toNat 4) :
    LandsUnbacked i s target fun t => RegsAfter s t rd (s.pc + 4) := by
  obtain ⟨hcompletes, _⟩ := h
  obtain ⟨t, ht, hregs, hpc, hrest⟩ := hcompletes ha
  exact .of_completes ht hregs hpc hrest ha hb

/-- So does a taken branch. -/
theorem Branches.landsUnbacked {i : Instr} {s : State} {cond : Prop} {target : Word} (h : Branches i s cond target)
    (hc : cond) (ha : target.toNat % 4 = 0) (hb : ¬AllBacked s target.toNat 4) : LandsUnbacked i s target (SameRegs s) := by
  obtain ⟨_, htaken, _⟩ := h
  obtain ⟨t, ht, hregs, hpc, hrest⟩ := htaken hc ha
  exact .of_completes ht hregs hpc hrest ha hb

/-- From an aligned pc every instruction that completes leaves pc aligned (R25, R130). -/
theorem exec_pc_aligned {i : Instr} {s t : State} (h : exec i s = .next t) (ha : s.pc.toNat % 4 = 0) : t.pc.toNat % 4 = 0 := by
  cases exec_next h with
  | jump _ _ _ _ _ _ _ hp e => exact e ▸ hp
  | branch _ _ _ _ _ _ hp e =>
    subst e
    rcases hp with rfl | ⟨hp, _⟩
    · exact add_four_aligned ha
    · exact hp
  | result | csr | store | fence | fenceI => simp [*]

/-- Not below, as signed values, is at or above. -/
theorem not_lessSigned_iff (a b : Word) : (!lessSigned a b) = true ↔ a.toInt ≥ b.toInt := by
  rw [not_lessSigned_iff_sle, BitVec.sle_iff_toInt_le]

/-- Not below, as unsigned values, is at or above. -/
theorem not_lessUnsigned_iff (a b : Word) : (!lessUnsigned a b) = true ↔ a.toNat ≥ b.toNat := by
  rw [not_lessUnsigned_iff_ule, BitVec.ule_iff_toNat_le]

/-! ## The content of `StaleSet` (R220) -/

/-- `fence.i` leaves nothing in `StaleSet`; any other instruction adds what it stores to (R44, R54, R171). -/
theorem mem_stale_iff {i : Instr} {s t : State} (h : exec i s = .next t) (a : Nat) :
    a ∈ t.stale ↔ i ≠ .fenceI ∧ (a ∈ s.stale ∨ (s.config.ifetchCoherent = false ∧ storesTo i s a)) := by
  by_cases hf : i = .fenceI
  · subst hf
    simp [execFenceI_stale h]
  · cases hs : isStore i with
    | true => simpa [hf] using mem_stale_iff_of_store h hs a
    | false =>
      have hnot : ¬storesTo i s a := fun hto => by simp [isStore_of_storesTo hto] at hs
      simp [exec_stale_of_not_store h hs hf, hf, hnot]

/-- With coherent fetches the invariant leaves nothing stale to fetch (R54). -/
theorem step_ne_staleFetch_of_coherent {s : State} (w : Word) (hc : s.config.ifetchCoherent = true) (hs : s.Inv) :
    step s ≠ .fault (.staleFetch w) := by
  intro h
  obtain ⟨_, _, ⟨k, _, hmem⟩, _⟩ := step_staleFetch_iff.mp h
  rw [hs.stale_of_coherent hc] at hmem
  cases hmem

/-- Settles O3. -/
theorem fetchExceptionsExactly : Obligations.FetchExceptionsExactly :=
  fun s w => ⟨step_instructionAccessFault_iff, step_staleFetch_iff,
    fun rd offset => (jal_jumps s rd offset).landsUnbacked,
    fun rd rs1 imm => (jalr_jumps s rd rs1 imm).landsUnbacked,
    fun _ _ _ => ⟨(branch_branches rfl beq_iff_eq).landsUnbacked, (branch_branches rfl bne_iff_ne).landsUnbacked,
      (branch_branches rfl (lessSigned_iff _ _)).landsUnbacked, (branch_branches rfl (not_lessSigned_iff _ _)).landsUnbacked,
      (branch_branches rfl (lessUnsigned_iff _ _)).landsUnbacked,
      (branch_branches rfl (not_lessUnsigned_iff _ _)).landsUnbacked⟩,
    fun _ _ _ ha h hb => step_of_unbacked_pc (exec_config h) (exec_pc_aligned h ha) hb,
    State.resetFrom_stale, fun _ _ a h => mem_stale_iff h a, step_ne_staleFetch_of_coherent w⟩

end Sys2Proof.Machine
end

section
/-! PROOFS of the reset family (70_reset_and_hazards.md): the state after reset meets the invariant (R240 to R243), and a byte that no
step has stored to stays as the reset left it: not stale, and holding what the program image gives it. The second is an induction on
the run, over what one completed instruction does to a byte it does not store to. -/

namespace Sys2Proof.Machine

/-! ## The invariant after reset (R240 to R243) -/

/-- The parameters `State.reset` takes are valid (log 1 to log 4). -/
theorem ResetParams.default_valid : ResetParams.default.Valid := by decide

/-- Settles O48. -/
theorem resetMeetsTheInvariant : Obligations.ResetMeetsTheInvariant :=
  ⟨State.resetFrom_inv ResetParams.default_valid, fun _ => State.resetFrom_inv⟩

/-! ## Bytes a run has not stored to (R243) -/

/-- What is stored within the first steps is stored within one step more. -/
theorem StoredWithin.succ {p : ResetParams} {n a : Nat} (h : StoredWithin p n a) : StoredWithin p (n + 1) a := by
  obtain ⟨k, s, i, hk, hrun, hperforms, hto⟩ := h
  exact ⟨k, s, i, Nat.lt_succ_of_lt hk, hrun, hperforms, hto⟩

/-- Among the bytes stored within `n + 1` steps are those that the last of these steps stores to. -/
theorem StoredWithin.of_last_step {p : ResetParams} {n a : Nat} {s : State} {i : Instr}
    (hrun : core.run n (State.resetFrom p) = .next s) (hperforms : Performs s i) (hto : storesTo i s a) :
    StoredWithin p (n + 1) a :=
  ⟨n, s, i, Nat.lt_succ_self n, hrun, hperforms, hto⟩

/-- An instruction that completes makes no byte stale but those it stores to (R30, R44). -/
theorem exec_not_mem_stale {i : Instr} {s t : State} {a : Nat} (h : exec i s = .next t) (hto : ¬storesTo i s a)
    (ha : a ∉ s.stale) : a ∉ t.stale := by
  rw [mem_stale_iff h a]
  rintro ⟨_, hold | ⟨_, hnew⟩⟩
  · exact ha hold
  · exact hto hnew

/-- A byte that no step of a run from reset stores to is not stale and reads as `InitMem` gives it. -/
theorem not_stale_and_get_of_not_storedWithin {p : ResetParams} {n a : Nat} {t : State}
    (h : core.run n (State.resetFrom p) = .next t) (ha : ¬StoredWithin p n a) :
    a ∉ t.stale ∧ t.mem.get a = p.initMem.get a := by
  induction n generalizing t with
  | zero =>
    cases h
    exact ⟨List.not_mem_nil, rfl⟩
  | succ n ih =>
    obtain ⟨s, hrun, hstep⟩ := run_succ_last h
    obtain ⟨hstale, hget⟩ := ih hrun fun hs => ha hs.succ
    obtain ⟨w, i, hw, hi, hexec⟩ := step_next hstep
    have hto : ¬storesTo i s a := fun hto => ha (.of_last_step hrun ⟨w, hw, hi⟩ hto)
    exact ⟨exec_not_mem_stale hexec hto hstale, (exec_get_of_not_storesTo hexec hto).trans hget⟩

/-- Where none of the four bytes at pc is stale, the step does not raise `StaleFetch` (R45, R220). -/
theorem step_ne_staleFetch_of_fresh {s : State} (hs : ∀ k, k < 4 → s.pc.toNat + k ∉ s.stale) (w : Word) :
    step s ≠ .fault (.staleFetch w) := by
  intro h
  obtain ⟨_, _, ⟨k, hk, hmem⟩, _⟩ := step_staleFetch_iff.mp h
  exact hs k hk hmem

/-- Where the four bytes at pc read as another memory gives them, they make its word. -/
theorem fetchBytes_of_get {s : State} {m : Memory} (h : ∀ k, k < 4 → s.mem.get (s.pc.toNat + k) = m.get (s.pc.toNat + k)) :
    s.fetchBytes =
      m.get (s.pc.toNat + 3) ++ m.get (s.pc.toNat + 2) ++ m.get (s.pc.toNat + 1) ++ m.get s.pc.toNat := by
  have h0 : s.mem.get s.pc.toNat = m.get s.pc.toNat := h 0 (by omega)
  rw [State.fetchBytes, h 3 (by omega), h 2 (by omega), h 1 (by omega), h0]

/-- Settles O51: bytes that are not stored are fresh, so the fetch passes R45's last check and reads them from the image. -/
theorem resetLeavesStaleSetAndCsrFileEmpty : Obligations.ResetLeavesStaleSetAndCsrFileEmpty := by
  refine ⟨rfl, rfl, fun p => ⟨State.resetFrom_stale p, fun n t hrun => ?_⟩⟩
  have hbyte := fun a => not_stale_and_get_of_not_storedWithin (a := a) hrun
  refine ⟨hbyte, fun hcode => ?_⟩
  have hfresh : ∀ k, k < 4 → t.pc.toNat + k ∉ t.stale := fun k hk => (hbyte _ (hcode k hk)).1
  have himage : ∀ k, k < 4 → t.mem.get (t.pc.toNat + k) = p.initMem.get (t.pc.toNat + k) :=
    fun k hk => (hbyte _ (hcode k hk)).2
  exact ⟨step_ne_staleFetch_of_fresh hfresh,
    fun ha hb => (fetch_eq_ok ha hb hfresh).trans (congrArg _ (fetchBytes_of_get himage))⟩

end Sys2Proof.Machine
end
